-- ==== Sys2Proof/Word.lean ====
section
/-! DEFINITION. The word types of PZYP-LZC: 32-bit registers and command words, bytes, bit sequences. -/

namespace Sys2Proof

/-- A register or command word (spec/10_state.md, section 9: all registers are 32 bits). -/
abbrev Word := BitVec 32

/-- One byte of a FIFO, of the window or of a stream. -/
abbrev Byte := BitVec 8

/-- A bit sequence, oldest bit first (spec/00_scope.md R9). -/
abbrev Bits := List Bool

end Sys2Proof
end

