-- ==== Sys2Proof/Syntax.lean ====
section
/-! DEFINITION. The command words of PZYP-LZC as syntax: one constructor per row of
spec/opcode_table.json (spec/30_encoding.md R107, R108). -/

namespace Sys2Proof

/-- The 13 commands. Widths, distances and lengths are numbers that the command compares with the
context, so they are `Nat` here and `WellFormed` bounds them by their fields; data bytes are bytes. -/
inductive Instr where
  /-- NOP (R130) -/
  | nop
  /-- CFG off, len (R131) -/
  | cfg (off len : Nat)
  /-- WLIT b (R141) -/
  | wlit (b : Byte)
  /-- WREF dist, length (R142) -/
  | wref (dist length : Nat)
  /-- WCLOSE (R143) -/
  | wclose
  /-- RTOK (R153) -/
  | rtok
  /-- RCLOSE (R155) -/
  | rclose
  /-- WEXT b (R171) -/
  | wext (b : Byte)
  /-- PCLR (R176) -/
  | pclr
  /-- PPUSH b (R177) -/
  | ppush (b : Byte)
  /-- WFIND (R173) -/
  | wfind
  /-- CSTEP b, next or CSTEP b, LAST (R190) -/
  | cstep (b next : Byte) (last : Bool)
  /-- DSTEP (R197) -/
  | dstep
  deriving DecidableEq, Repr

end Sys2Proof
end

