-- ==== Sys2Proof/WellFormed.lean ====
section
/-! DEFINITION. Which commands have an encoding: every operand fits its field (spec/30_encoding.md R107). -/

namespace Sys2Proof

/-- Every operand fits the field R107 gives it: OFF and LEN have 8 bits, DIST 15, LENGTH 9. The
one-byte operands and LAST fit by their types. Legality against the context (R131, R142) is a check
of the command itself, not of its form. -/
def Instr.wellFormed : Instr → Bool
  | .nop => true
  | .cfg off len => decide (off < 256) && decide (len < 256)
  | .wlit _ => true
  | .wref dist length => decide (dist < 32768) && decide (length < 512)
  | .wclose => true
  | .rtok => true
  | .rclose => true
  | .wext _ => true
  | .pclr => true
  | .ppush _ => true
  | .wfind => true
  | .cstep _ _ _ => true
  | .dstep => true

end Sys2Proof
end

