-- ==== Sys2Proof/Decode.lean ====
section
/-! DEFINITION. Decoding of command words, total and by name, and the encoder beside it
(spec/30_encoding.md R106 to R112, spec/opcode_table.json). -/

namespace Sys2Proof

/-- Why a word is no command (R109, R110): both are ILLEGAL_CMD for the block. -/
inductive Reject where
  /-- opcode 0xD, 0xE or 0xF -/
  | reservedOpcode (opcode : Nat)
  /-- a reserved bit is set under a defined opcode -/
  | reservedBit (opcode : Nat)
  deriving DecidableEq, Repr

/-- `w[hi:lo]`, the unsigned value of bits hi down to lo (spec/00_scope.md R8). -/
def field (w : Word) (hi lo : Nat) : Nat := w.toNat / 2 ^ lo % 2 ^ (hi + 1 - lo)

/-- A one-byte operand field, `w[lo+7:lo]`. -/
def byteField (w : Word) (lo : Nat) : Byte := BitVec.ofNat 8 (field w (lo + 7) lo)

/-- The command a word stands for. Each test is the row of R108 read by its fixed bits: the bits that
the row's mask selects hold the row's match. -/
def decode (w : Word) : Except Reject Instr :=
  if field w 31 0 = 0x00000000 then .ok .nop
  else if field w 31 16 = 0x1000 then .ok (.cfg (field w 7 0) (field w 15 8))
  else if field w 31 8 = 0x200000 then .ok (.wlit (byteField w 0))
  else if field w 31 24 = 0x30 then .ok (.wref (field w 14 0) (field w 23 15))
  else if field w 31 0 = 0x40000000 then .ok .wclose
  else if field w 31 0 = 0x50000000 then .ok .rtok
  else if field w 31 0 = 0x60000000 then .ok .rclose
  else if field w 31 8 = 0x700000 then .ok (.wext (byteField w 0))
  else if field w 31 0 = 0x80000000 then .ok .pclr
  else if field w 31 8 = 0x900000 then .ok (.ppush (byteField w 0))
  else if field w 31 0 = 0xA0000000 then .ok .wfind
  else if field w 31 17 = 0x5800 then
    .ok (.cstep (byteField w 0) (byteField w 8) (decide (field w 16 16 = 1)))
  else if field w 31 0 = 0xC0000000 then .ok .dstep
  else if 0xD ≤ field w 31 28 then .error (.reservedOpcode (field w 31 28))
  else .error (.reservedBit (field w 31 28))

/-- The decoder read from a table word: bit 0 of `w` is bit 0 of the command word (a command is one
32-bit word, R111, so there is no byte order to choose; log 12). A row wider than one word is none. -/
def decodeTableWord (nbits w : Nat) : Option Instr :=
  if nbits ≤ 32 then
    match decode (BitVec.ofNat 32 (w % 2 ^ nbits)) with
    | .ok i => some i
    | .error _ => none
  else none

/-- The word of a command: its match plus its operand fields at their places (R107, R108, R112). -/
def encodeNat : Instr → Nat
  | .nop => 0x00000000
  | .cfg off len => 0x10000000 + len * 2 ^ 8 + off
  | .wlit b => 0x20000000 + b.toNat
  | .wref dist length => 0x30000000 + length * 2 ^ 15 + dist
  | .wclose => 0x40000000
  | .rtok => 0x50000000
  | .rclose => 0x60000000
  | .wext b => 0x70000000 + b.toNat
  | .pclr => 0x80000000
  | .ppush b => 0x90000000 + b.toNat
  | .wfind => 0xA0000000
  | .cstep b next last => 0xB0000000 + last.toNat * 2 ^ 16 + next.toNat * 2 ^ 8 + b.toNat
  | .dstep => 0xC0000000

/-- The encoder: the one word of a well-formed command. -/
def encode (i : Instr) : Word := BitVec.ofNat 32 (encodeNat i)

/-- The opcode of a command, bits [31:28] of its word (R106, R108). -/
def Instr.opcode : Instr → Nat
  | .nop => 0x0
  | .cfg _ _ => 0x1
  | .wlit _ => 0x2
  | .wref _ _ => 0x3
  | .wclose => 0x4
  | .rtok => 0x5
  | .rclose => 0x6
  | .wext _ => 0x7
  | .pclr => 0x8
  | .ppush _ => 0x9
  | .wfind => 0xA
  | .cstep _ _ _ => 0xB
  | .dstep => 0xC

/-- One row of the opcode map as R108 prints it: the mask and the match. -/
structure OpcodeRow where
  opcode : Nat
  matchBits : Word
  maskBits : Word
  deriving DecidableEq, Repr

/-- The opcode map of R108, row by row. `decode` does not read it: it is the table to hold the decoder
against. -/
def opcodeMap : List OpcodeRow :=
  [ ⟨0x0, 0x00000000#32, 0xFFFFFFFF#32⟩, ⟨0x1, 0x10000000#32, 0xFFFF0000#32⟩,
    ⟨0x2, 0x20000000#32, 0xFFFFFF00#32⟩, ⟨0x3, 0x30000000#32, 0xFF000000#32⟩,
    ⟨0x4, 0x40000000#32, 0xFFFFFFFF#32⟩, ⟨0x5, 0x50000000#32, 0xFFFFFFFF#32⟩,
    ⟨0x6, 0x60000000#32, 0xFFFFFFFF#32⟩, ⟨0x7, 0x70000000#32, 0xFFFFFF00#32⟩,
    ⟨0x8, 0x80000000#32, 0xFFFFFFFF#32⟩, ⟨0x9, 0x90000000#32, 0xFFFFFF00#32⟩,
    ⟨0xA, 0xA0000000#32, 0xFFFFFFFF#32⟩, ⟨0xB, 0xB0000000#32, 0xFFFE0000#32⟩,
    ⟨0xC, 0xC0000000#32, 0xFFFFFFFF#32⟩ ]

/-- `(word & mask) = match` (R108). -/
def OpcodeRow.hits (r : OpcodeRow) (w : Word) : Bool := decide (w &&& r.maskBits = r.matchBits)

end Sys2Proof
end

