-- ==== Sys2Proof/Config.lean ====
section
/-! DEFINITION. What an implementation of PZYP-LZC fixes: the parameters of spec/00_scope.md R7 and the
constants of spec/10_state.md R44, R58 and spec/20_memory.md R73. The spec leaves no free value. -/

namespace Sys2Proof

/-- The parameters a model takes as arguments (R7, D24). They are held in `State` as a part no step
writes, so that every statement holds for every legal value (log 6). -/
structure Params where
  /-- COUT_DEPTH, bytes of the compressed output FIFO. -/
  coutDepth : Nat
  /-- CIN_DEPTH, bytes of the compressed input FIFO. -/
  cinDepth : Nat
  /-- ROUT_DEPTH, bytes of the raw output FIFO. -/
  routDepth : Nat
  /-- BLOCK_BASE, the platform address of the register window. -/
  blockBase : Nat
  deriving DecidableEq, Repr

/-- The minima of R7 and the alignment of BLOCK_BASE. -/
abbrev Params.Legal (p : Params) : Prop :=
  291 ≤ p.coutDepth ∧ 4 ≤ p.cinDepth ∧ 258 ≤ p.routDepth ∧ p.blockBase % 256 = 0

/-- "this block 512" for the three depths (R7). BLOCK_BASE is open: DESIGN CHOICE 0 (unsafe, log 6). -/
def Params.thisBlock : Params :=
  { coutDepth := 512, cinDepth := 512, routDepth := 512, blockBase := 0 }

/-- PAT_CAP (R7, R44). -/
def patCap : Nat := 258

/-- WSIZE_MAX, the bytes of window RAM (R7, R73). -/
def ramBytes : Nat := 32768

/-- The constant of the ID register (R1, R58). -/
def idValue : Word := 0x505A5901#32

/-- What a byte of window RAM that nothing has written since reset reads as.
DESIGN CHOICE (unsafe, log 1): R60 calls it unspecified and not observable. -/
def blankByte : Byte := 0#8

end Sys2Proof
end

