-- ==== Sys2Proof/Machine/State.lean ====
section
/-! DEFINITION. The state of PZYP-LZC as plain data, its reset value, and the kinds of outcome
(spec/10_state.md, spec/60_exceptions.md). -/

namespace Sys2Proof.Machine

/-- OFFB and LENB, the two stored widths of the context (R22); `cfgd` of `State` is CFGD. -/
structure Context where
  /-- OFFB, `encoded_offset_size` -/
  offb : BitVec 4
  /-- LENB, `encoded_len_size` -/
  lenb : BitVec 4
  deriving DecidableEq, Repr

/-- Window RAM (R41, R73): the bytes that differ from `blankByte`, by strictly rising address. -/
abbrev Memory := List Host.Cell

/-- The sliding window as R41 realises it. WIN is computed from these (`Window.bytes`). -/
structure Window where
  /-- the window RAM -/
  ram : Memory
  /-- WHEAD, RAM address of the oldest byte -/
  head : BitVec 15
  /-- WFILL, bytes held -/
  fill : BitVec 16
  /-- WCOUNT, bytes ever appended, modulo 2^32 (R40) -/
  count : Word
  deriving DecidableEq, Repr

/-- TOKKIND (R45). -/
inductive TokKind where
  | literal
  | reference
  | endOfStream
  | noToken
  deriving DecidableEq, Repr

/-- The fault codes a block can raise, and NONE (R230). Codes 13 to 15 have no constructor. -/
inductive ErrCode where
  | noFault
  | illegalCmd
  | notConfigured
  | badConfig
  | badToken
  | writerClosed
  | readerClosed
  | truncated
  | unreadData
  | badReference
  | patternFull
  | cmdWhileBusy
  | cinOverflow
  deriving DecidableEq, Repr

/-- One access the host makes: a platform address and a width in bytes (R70, R71). -/
inductive HostAccess where
  | read (addr width : Nat)
  | write (addr width : Nat) (value : Word)
  deriving DecidableEq, Repr

/-- Whose turn it is (R14, R81): the block's, the host's with one access, or the platform's reset
(R260). DESIGN CHOICE (safe, log 3): the interleaving is data. -/
inductive Turn where
  | block
  | access (a : HostAccess)
  | reset
  deriving DecidableEq, Repr

/-- What one register read returned to the host. -/
structure ReadBack where
  addr : Nat
  value : Word
  deriving DecidableEq, Repr

/-- Everything the spec gives the block (R60 lists it), the machine's constant parameters, and the
model's own schedule and record of the host's reads. -/
structure State where
  /-- FIFO depths and BLOCK_BASE (R7); never written -/
  params : Params
  /-- CFGD (R22) -/
  cfgd : Bool
  /-- OFFB and LENB (R22) -/
  ctx : Context
  /-- WACC (R25) -/
  wacc : Bits
  /-- WCLOSED (R25) -/
  wclosed : Bool
  /-- RBUF (R27) -/
  rbuf : Bits
  /-- RCLOSED (R27) -/
  rclosed : Bool
  /-- EOF (R27, R57) -/
  eof : Bool
  /-- EOS (R27) -/
  eos : Bool
  /-- COUT, oldest byte first (R30) -/
  cout : List Byte
  /-- CIN, oldest byte first (R30) -/
  cin : List Byte
  /-- ROUT, oldest byte first (R30) -/
  rout : List Byte
  /-- window RAM, WHEAD, WFILL, WCOUNT (R40, R41) -/
  window : Window
  /-- PAT (R44) -/
  pat : List Byte
  /-- TOKKIND (R45) -/
  tokkind : TokKind
  /-- RESA (R45) -/
  resa : Word
  /-- RESB (R45) -/
  resb : Word
  /-- FOUND (R45) -/
  found : Bool
  /-- FAULT (R46) -/
  fault : Bool
  /-- ERRCODE (R46) -/
  errcode : ErrCode
  /-- ERRCMD (R46) -/
  errcmd : Word
  /-- BUSY (R47) -/
  busy : Bool
  /-- LCMD (R47) -/
  lcmd : Word
  /-- the turns still to come (the model's own, log 3) -/
  turns : List Turn
  /-- the values the host has read, oldest first (the model's own, log 7) -/
  reads : List ReadBack
  deriving DecidableEq, Repr

/-- The stops of the model that are faults. None is raised by a command: a command's faults are next
states (R232). -/
inductive Fault where
  /-- Raised by a host access whose address lies outside the 256-byte register window (R70): no register
  is there. Safe (log 8). -/
  | outsideWindow (addr : Nat)
  deriving DecidableEq, Repr

/-- The stops of the model that are refusals. -/
inductive Refusal where
  /-- Raised only by an arm of `exec` whose command has no meaning yet (no arm is such). Safe. -/
  | notModelled (mnemonic : String)
  /-- Raised by a host access inside the window that is narrower or wider than 32 bits or misaligned: R71 has
  the model refuse it. Safe (log 8). -/
  | unsupportedAccess (addr width : Nat)
  deriving DecidableEq, Repr

/-- A token of the compressed stream (R15, R100, R101). -/
inductive Token where
  | lit (b : Byte)
  | ref (dist length : Nat)
  deriving DecidableEq, Repr

/-- The answers of `peek` (R150). -/
inductive Peek where
  | needMore
  | trunc
  | eos
  | token (t : Token) (bits : Nat)
  deriving DecidableEq, Repr

/-- What a held command waits for (R79): input bits or output space. -/
inductive Hold where
  | input
  | output
  deriving DecidableEq, Repr

/-- The stages of performing a command (R133): the first that applies. `done` carries the state with
every effect of the command committed but BUSY, which completing clears. -/
inductive Attempt where
  | fault (code : ErrCode)
  | hold (why : Hold)
  | done (after : State)
  deriving DecidableEq, Repr

/-- The registers of the register window, by the names of R70. -/
inductive Reg where
  | cmd
  | status
  | err
  | errcmd
  | ctx
  | ctx2
  | tokkind
  | resa
  | resb
  | wstat
  | wcount
  | coutData
  | coutCount
  | cinData
  | cinCount
  | cinEof
  | routData
  | routCount
  | ctrl
  | id
  | coutDepth
  | cinDepth
  | routDepth
  deriving DecidableEq, Repr

/-- The window after CFG and reset: empty, WHEAD and WCOUNT 0. -/
def Window.empty (ram : Memory) : Window := { ram := ram, head := 0, fill := 0, count := 0 }

/-- The state right after reset (R60), with the parameters of this block (R7), nothing scheduled and
nothing read. The RAM lists nothing: DESIGN CHOICE (log 1). -/
def State.reset : State :=
  { params := Params.thisBlock
    cfgd := false
    ctx := { offb := 0, lenb := 0 }
    wacc := []
    wclosed := false
    rbuf := []
    rclosed := false
    eof := false
    eos := false
    cout := []
    cin := []
    rout := []
    window := Window.empty []
    pat := []
    tokkind := .noToken
    resa := 0
    resb := 0
    found := false
    fault := false
    errcode := .noFault
    errcmd := 0
    busy := false
    lcmd := 0
    turns := []
    reads := [] }

end Sys2Proof.Machine
end

