-- ==== Sys2Proof/Machine/Bits.lean ====
section
/-! DEFINITION. Bit sequences: `bits_N`, `val`, `bytebits`, `allzero` of spec/00_scope.md R9, in the bit
order of spec/20_memory.md R74 (most significant bit first). -/

namespace Sys2Proof.Machine

/-- `bits_n(v)`: the n low bits of v, most significant first (R9). -/
def bitsOf : Nat → Nat → Bits
  | 0, _ => []
  | n + 1, v => decide (v / 2 ^ n % 2 = 1) :: bitsOf n v

/-- `val(s)`: the unsigned value of a bit sequence read most significant bit first; `val([]) = 0` (R9). -/
def val : Bits → Nat
  | [] => 0
  | b :: bs => b.toNat * 2 ^ bs.length + val bs

/-- `bytebits(b) = bits_8(b)` (R9). -/
def byteBits (b : Byte) : Bits := bitsOf 8 b.toNat

/-- The bits of a byte sequence in stream order (R28, R74). -/
def streamBits (bs : List Byte) : Bits := bs.flatMap byteBits

/-- `allzero(s)` (R9): every bit is 0; true of `[]`. -/
def allZero (s : Bits) : Bool := s.all (fun b => !b)

/-- The byte a full accumulator stands for, `val(WACC)` (R140). -/
def byteOf (s : Bits) : Byte := BitVec.ofNat 8 (val s)

end Sys2Proof.Machine
end

