-- ==== Sys2Proof/Machine/Memory.lean ====
section
/-! DEFINITION. The window RAM: `MemRead` and `MemWrite` of single bytes (spec/00_scope.md R12,
spec/20_memory.md R73), over one canonical list. -/

namespace Sys2Proof.Machine

/-- Every address of the list is below every later one. -/
def Memory.rising : Memory → Bool
  | [] => true
  | [_] => true
  | c :: d :: m => decide (c.1 < d.1) && Memory.rising (d :: m)

/-- The canonical form: addresses strictly rising, inside the RAM (R73), and no entry that reads as an
unlisted byte does. -/
def Memory.wf (m : Memory) : Bool :=
  m.rising && m.all (fun c => decide (c.1 < ramBytes) && !decide (c.2 = blankByte))

/-- `MemRead(addr, 1)` (R12, R73). -/
def Memory.read : Memory → Nat → Byte
  | [], _ => blankByte
  | c :: m, a => if c.1 = a then c.2 else Memory.read m a

/-- `MemWrite(addr, 1, v)` (R12, R73), keeping the canonical form. -/
def Memory.write : Memory → Nat → Byte → Memory
  | [], a, v => if v = blankByte then [] else [(a, v)]
  | c :: m, a, v =>
    if a < c.1 then (if v = blankByte then c :: m else (a, v) :: c :: m)
    else if c.1 = a then (if v = blankByte then m else (a, v) :: m)
    else c :: Memory.write m a v

end Sys2Proof.Machine
end

