-- ==== Sys2Proof/Machine/Ops.lean ====
section
/-! DEFINITION. The shared operations of PZYP-LZC: derived context quantities, bit writer, bit reader,
sliding window, fault entry and reset. -/

namespace Sys2Proof.Machine

/-! ### Context (spec/10_state.md R22, names of spec/00_scope.md R13) -/

/-- ESS, `encoded_string_size`. -/
def Context.ess (c : Context) : Nat := c.offb.toNat + c.lenb.toNat

/-- WSIZE, `window_size`. -/
def Context.wsize (c : Context) : Nat := 2 ^ c.offb.toNat

/-- BEP, `break_even_point` (integer division). -/
def Context.bep (c : Context) : Nat := c.ess / 8

/-- MINS, `min_string_size`. -/
def Context.mins (c : Context) : Nat := c.bep + 1

/-- MAXS, `max_string_size`. -/
def Context.maxs (c : Context) : Nat := 2 ^ c.lenb.toNat - 1 + c.mins

/-! ### Tokens (spec/30_encoding.md R100, R101) -/

/-- The bits of a token: flag, then payload. -/
def tokenBits (c : Context) : Token → Bits
  | .lit b => false :: byteBits b
  | .ref d l => true :: (bitsOf c.offb.toNat d ++ bitsOf c.lenb.toNat (l - c.mins))

/-- Tokens follow one another with no separator (R103). -/
def tokensBits (c : Context) (ts : List Token) : Bits := ts.flatMap (tokenBits c)

/-! ### Bit writer (spec/41_bitcodec.md R140) -/

/-- The loop of `put`: bits enter the accumulator one at a time, and a full accumulator is pushed.
Answers the new accumulator and the bytes pushed, in push order. -/
def pushBits : Bits → Bits → Bits × List Byte
  | acc, [] => (acc, [])
  | acc, b :: bs =>
    if (acc ++ [b]).length = 8 then
      ((pushBits [] bs).1, byteOf (acc ++ [b]) :: (pushBits [] bs).2)
    else pushBits (acc ++ [b]) bs

/-- Append bits to WACC, pushing every completed byte to COUT (R140). -/
def State.putBits (bs : Bits) (s : State) : State :=
  { s with wacc := (pushBits s.wacc bs).1, cout := s.cout ++ (pushBits s.wacc bs).2 }

/-- `put(v, n)` (R140). -/
def State.put (v n : Nat) (s : State) : State := s.putBits (bitsOf n v)

/-- The bytes that appending `n` bits pushes, `(|WACC| + n) / 8` (R79, R140). -/
def State.coutNeed (s : State) (n : Nat) : Nat := (s.wacc.length + n) / 8

/-- Free COUT bytes (R79). -/
def State.coutFree (s : State) : Nat := s.params.coutDepth - s.cout.length

/-- Free ROUT bytes (R79). -/
def State.routFree (s : State) : Nat := s.params.routDepth - s.rout.length

/-! ### Bit reader (spec/10_state.md R28, R29; spec/41_bitcodec.md R150) -/

/-- U, the unread bits (R28). -/
def State.unread (s : State) : Bits := s.rbuf ++ streamBits s.cin

/-- `peek(U, EOF)` (R150): classifies the unread bits and changes nothing. -/
def peek (c : Context) (u : Bits) (eof : Bool) : Peek :=
  if eof && decide (u.length < 8) && allZero u then .eos
  else match u with
    | [] => .needMore
    | false :: rest =>
      if u.length < 9 then (if eof then .trunc else .needMore)
      else .token (.lit (byteOf (rest.take 8))) 9
    | true :: rest =>
      if u.length < 1 + c.ess then (if eof then .trunc else .needMore)
      else .token
        (.ref (val (rest.take c.offb.toNat))
          (val ((rest.drop c.offb.toNat).take c.lenb.toNat) + c.mins))
        (1 + c.ess)

/-- `peek` of the reader's own unread bits. -/
def State.peek (s : State) : Peek := Machine.peek s.ctx s.unread s.eof

/-- The bytes `consume(k)` pops: those of CIN that hold any of the first k unread bits (R29). -/
def State.pullCount (s : State) (k : Nat) : Nat := (k - s.rbuf.length + 7) / 8

/-- `consume(k)` (R29, R153): the first k unread bits are gone, the bytes that held them are popped,
and RBUF keeps the rest of the last byte popped. -/
def State.consume (k : Nat) (s : State) : State :=
  { s with
    rbuf := (s.rbuf ++ streamBits (s.cin.take (s.pullCount k))).drop k
    cin := s.cin.drop (s.pullCount k) }

/-- RTOK and DSTEP write EOS, TOKKIND, RESA and RESB together (R45, R153). -/
def State.setResult (eos : Bool) (kind : TokKind) (a b : Word) (s : State) : State :=
  { s with eos := eos, tokkind := kind, resa := a, resb := b }

/-- The end-of-stream answer (R153, R197). -/
def State.answerEos (s : State) : State := s.setResult true .endOfStream 0 0

/-- The answer for a token (R153, R197). -/
def State.answerToken (t : Token) (s : State) : State :=
  match t with
  | .lit b => s.setResult false .literal (BitVec.ofNat 32 b.toNat) 0
  | .ref d l => s.setResult false .reference (BitVec.ofNat 32 d) (BitVec.ofNat 32 l)

/-! ### Sliding window (spec/42_window.md R170, R172) -/

/-- RAM address of the window byte with index k, oldest first (R41). -/
def Window.addr (wsize : Nat) (w : Window) (k : Nat) : Nat := (w.head.toNat + k) % wsize

/-- WIN[k] (R41). -/
def Window.byte (wsize : Nat) (w : Window) (k : Nat) : Byte := w.ram.read (w.addr wsize k)

/-- WIN, oldest first (R40, R41). -/
def Window.bytes (wsize : Nat) (w : Window) : List Byte :=
  (List.range w.fill.toNat).map (w.byte wsize)

/-- WBASE, the absolute stream position of WIN[0] (R40). -/
def Window.base (w : Window) : Word := w.count - BitVec.ofNat 32 w.fill.toNat

/-- `append(b)`, the RAM view (R170). -/
def Window.append (wsize : Nat) (b : Byte) (w : Window) : Window :=
  if w.fill.toNat < wsize then
    { ram := w.ram.write (w.addr wsize w.fill.toNat) b
      head := w.head
      fill := BitVec.ofNat 16 (w.fill.toNat + 1)
      count := w.count + 1 }
  else
    { ram := w.ram.write w.head.toNat b
      head := BitVec.ofNat 15 ((w.head.toNat + 1) % wsize)
      fill := w.fill
      count := w.count + 1 }

/-- The loop of `find` over the rest of the window, `cur` the match cursor, `k` the index of the next
byte: the index of the byte that completed the match (R172). A mismatch zeroes the cursor and the byte
is not compared again. -/
def scan (p : List Byte) : List Byte → Nat → Nat → Option Nat
  | [], _, _ => none
  | w :: ws, cur, k =>
    if p[cur]? = some w then
      if cur + 1 = p.length then some k else scan p ws (cur + 1) (k + 1)
    else scan p ws 0 (k + 1)

/-- `find(P)` (R172): the absolute position of the match the naive scan detects, or none. -/
def Window.find (wsize : Nat) (p : List Byte) (w : Window) : Option Word :=
  if p.length = 0 then none
  else match scan p (w.bytes wsize) 0 0 with
    | none => none
    | some k => some (w.base + BitVec.ofNat 32 (k + 1) - BitVec.ofNat 32 p.length)

/-- The copy of a reference (R197): `len` times, the byte `dist` back from the current end of the window
is appended. Answers the window after and the bytes copied, in order. -/
def Window.copy (wsize dist : Nat) : Nat → Window → Window × List Byte
  | 0, w => (w, [])
  | len + 1, w =>
    let b := w.byte wsize (w.fill.toNat - dist)
    let r := Window.copy wsize dist len (w.append wsize b)
    (r.1, b :: r.2)

/-- WIN of a state. -/
def State.win (s : State) : List Byte := s.window.bytes s.ctx.wsize

/-- `find(P)` in the window of a state. -/
def State.find (s : State) (p : List Byte) : Option Word := s.window.find s.ctx.wsize p

/-- `append(b)` on a state (R170). -/
def State.append (b : Byte) (s : State) : State :=
  { s with window := s.window.append s.ctx.wsize b }

/-- DSTEP's effect on ROUT and the window for one token (R197). -/
def State.replay (t : Token) (s : State) : State :=
  match t with
  | .lit b => { s with rout := s.rout ++ [b], window := s.window.append s.ctx.wsize b }
  | .ref d l =>
    { s with
      rout := s.rout ++ (s.window.copy s.ctx.wsize d l).2
      window := (s.window.copy s.ctx.wsize d l).1 }

/-! ### Fault entry, completion and reset -/

/-- Fault entry, shared by commands and register accesses (R232): FAULT, ERRCODE, ERRCMD and BUSY, and
nothing else. -/
def State.takeFault (code : ErrCode) (value : Word) (s : State) : State :=
  { s with fault := true, errcode := code, errcmd := value, busy := false }

/-- `BUSY <- 0` at the end of a command (R47). -/
def State.complete (s : State) : State := { s with busy := false }

/-- How a block step ends for a latched command (R133): a fault is entered with LCMD recorded (R232,
R234), a hold leaves the step not taken (R79; log 5), and a commit completes. -/
def finish (s : State) : Attempt → Host.Outcome State Fault Refusal
  | .fault code => .next (s.takeFault code s.lcmd)
  | .hold _ => .next s
  | .done after => .next after.complete

/-- Hardware reset and soft reset (R60, R260, R261): every element of the block takes its reset value.
The parameters are not state of the block, and the host's schedule and record are the host's. The RAM
lists nothing afterwards: DESIGN CHOICE (log 2). -/
def State.hardReset (s : State) : State :=
  { State.reset with params := s.params, turns := s.turns, reads := s.reads }

/-- The latched command word the next block step performs: LCMD while BUSY = 1, and none while FAULT = 1
(R47, R233). -/
def State.latched (s : State) : Option Word :=
  if s.busy && !s.fault then some s.lcmd else none

end Sys2Proof.Machine
end

