-- ==== Sys2Proof/Machine/Operands.lean ====
section
/-! DEFINITION. The operand checks of the commands (spec/40_control.md R133 stage "operand checks" and
"data checks"). Every operand is an immediate (spec/30_encoding.md R106). -/

namespace Sys2Proof.Machine

/-- CFG's operands (R2, R131): 1 <= OFF <= 15 and 1 <= LEN <= 8. -/
def cfgLegal (off len : Nat) : Bool :=
  decide (1 ≤ off) && decide (off ≤ 15) && decide (1 ≤ len) && decide (len ≤ 8)

/-- WREF's operands (R142): d < WSIZE and MINS <= l <= MAXS. -/
def refLegal (c : Context) (dist length : Nat) : Bool :=
  decide (dist < c.wsize) && decide (c.mins ≤ length) && decide (length ≤ c.maxs)

/-- PPUSH and CSTEP need room in PAT (R177, R190). -/
def patFull (s : State) : Bool := decide (s.pat.length = patCap)

/-- DSTEP's distance check (R197, R198): the distance names a byte the window holds. -/
def distUsable (s : State) (dist : Nat) : Bool :=
  !decide (dist = 0) && decide (dist ≤ s.window.fill.toNat)

/-- The bytes a token produces in ROUT (R79, R197). -/
def tokenYield : Token → Nat
  | .lit _ => 1
  | .ref _ l => l

end Sys2Proof.Machine
end

