-- ==== Sys2Proof/Machine/Codec.lean ====
section
/-! DEFINITION. The bit stream codec's commands WLIT, WREF, WCLOSE, RTOK, RCLOSE (spec/41_bitcodec.md). -/

namespace Sys2Proof.Machine

/-- The stages of WLIT (R141): `put(0, 1); put(b, 8)`. -/
def tryWlit (b : Byte) (s : State) : Attempt :=
  if !s.cfgd then .fault .notConfigured
  else if s.wclosed then .fault .writerClosed
  else if s.coutFree < s.coutNeed 9 then .hold .output
  else .done ((s.put 0 1).put b.toNat 8)

/-- WLIT (R141). -/
def execWlit (b : Byte) (s : State) : Host.Outcome State Fault Refusal := finish s (tryWlit b s)

/-- The stages of WREF (R142): `put(1, 1); put(d, OFFB); put(l - MINS, LENB)`. -/
def tryWref (dist length : Nat) (s : State) : Attempt :=
  if !s.cfgd then .fault .notConfigured
  else if s.wclosed then .fault .writerClosed
  else if !refLegal s.ctx dist length then .fault .badToken
  else if s.coutFree < s.coutNeed (1 + s.ctx.ess) then .hold .output
  else .done (((s.put 1 1).put dist s.ctx.offb.toNat).put (length - s.ctx.mins) s.ctx.lenb.toNat)

/-- WREF (R142). -/
def execWref (dist length : Nat) (s : State) : Host.Outcome State Fault Refusal :=
  finish s (tryWref dist length s)

/-- The bits WCLOSE pads with: to the next byte boundary, none when WACC is empty (R143). -/
def State.padBits (s : State) : Nat := if s.wacc.length = 0 then 0 else 8 - s.wacc.length

/-- The bytes WCLOSE pushes, `1 if |WACC| > 0 else 0` (R79). -/
def State.closeNeed (s : State) : Nat := if 0 < s.wacc.length then 1 else 0

/-- The stages of WCLOSE (R143). -/
def tryWclose (s : State) : Attempt :=
  if !s.cfgd then .fault .notConfigured
  else if s.wclosed then .fault .writerClosed
  else if s.coutFree < s.closeNeed then .hold .output
  else .done { s.put 0 s.padBits with wclosed := true }

/-- WCLOSE (R143). -/
def execWclose (s : State) : Host.Outcome State Fault Refusal := finish s (tryWclose s)

/-- The stages of RTOK (R153). -/
def tryRtok (s : State) : Attempt :=
  if !s.cfgd then .fault .notConfigured
  else if s.rclosed then .fault .readerClosed
  else match s.peek with
    | .needMore => .hold .input
    | .trunc => .fault .truncated
    | .eos => .done s.answerEos
    | .token t k => .done ((s.consume k).answerToken t)

/-- RTOK (R153). -/
def execRtok (s : State) : Host.Outcome State Fault Refusal := finish s (tryRtok s)

/-- The stages of RCLOSE (R155). -/
def tryRclose (s : State) : Attempt :=
  if !s.cfgd then .fault .notConfigured
  else if s.rclosed then .fault .readerClosed
  else if !allZero s.unread then .fault .unreadData
  else .done { s with rbuf := [], cin := [], rclosed := true }

/-- RCLOSE (R155). -/
def execRclose (s : State) : Host.Outcome State Fault Refusal := finish s (tryRclose s)

end Sys2Proof.Machine
end

