-- ==== Sys2Proof/Machine/Control.lean ====
section
/-! DEFINITION. NOP and CFG (spec/40_control.md). -/

namespace Sys2Proof.Machine

/-- The stages of NOP (R130): it needs no context and has no effect but completing. -/
def tryNop (s : State) : Attempt := .done s

/-- NOP (R130). -/
def execNop (s : State) : Host.Outcome State Fault Refusal := finish s (tryNop s)

/-- CFG's effect (R131): the new context, and a new session with everything empty but COUT and ROUT.
The window RAM is not written (R80). -/
def State.configure (off len : Nat) (s : State) : State :=
  { s with
    cfgd := true
    ctx := { offb := BitVec.ofNat 4 off, lenb := BitVec.ofNat 4 len }
    wacc := []
    wclosed := false
    rbuf := []
    rclosed := false
    eof := false
    eos := false
    cin := []
    window := Window.empty s.window.ram
    pat := []
    tokkind := .noToken
    resa := 0
    resb := 0
    found := false }

/-- The stages of CFG (R131, R133). -/
def tryCfg (off len : Nat) (s : State) : Attempt :=
  if cfgLegal off len then .done (s.configure off len) else .fault .badConfig

/-- CFG (R131). -/
def execCfg (off len : Nat) (s : State) : Host.Outcome State Fault Refusal :=
  finish s (tryCfg off len s)

end Sys2Proof.Machine
end

