-- ==== Sys2Proof/Machine/Engines.lean ====
section
/-! DEFINITION. The engine commands CSTEP and DSTEP (spec/43_engines.md). -/

namespace Sys2Proof.Machine

/-- Step 2 of CSTEP (R190): pending P is carried on, with nothing emitted, when P is found, b is not the
last byte, P is shorter than MAXS (R193), and P with the next byte is found too. -/
def cstepCarries (p : List Byte) (next : Byte) (last : Bool) (s : State) : Bool :=
  (s.find p).isSome && !last && decide (p.length < s.ctx.maxs) && (s.find (p ++ [next])).isSome

/-- The distance of a reference (R191): `(i - f - L + 1) mod 2^32` with i = WCOUNT before the append. -/
def cstepDistance (p : List Byte) (f : Word) (s : State) : Nat :=
  (s.window.count - f - BitVec.ofNat 32 p.length + 1).toNat

/-- Step 2b of CSTEP (R190, R192): the tokens that finalize pending P, or none where a reference would be
out of range (BAD_TOKEN). Case A is one reference; cases A', B and C are the bytes of P as literals. -/
def cstepFinal (p : List Byte) (s : State) : Option (List Token) :=
  match s.find p with
  | some f =>
    if 2 ≤ p.length ∧ s.ctx.mins ≤ p.length then
      if cstepDistance p f s < s.ctx.wsize ∧ p.length ≤ s.ctx.maxs then
        some [.ref (cstepDistance p f s) p.length]
      else none
    else some (p.map .lit)
  | none => some (p.map .lit)

/-- CSTEP's commit (R190): PAT becomes `pat`, `bits` go to the writer, and b is appended to the window. -/
def State.commitStep (pat : List Byte) (bits : Bits) (b : Byte) (s : State) : State :=
  ({ s with pat := pat }.putBits bits).append b

/-- The stages of CSTEP (R190, R133). A carry emits no bits (t = 0). -/
def tryCstep (b next : Byte) (last : Bool) (s : State) : Attempt :=
  if !s.cfgd then .fault .notConfigured
  else if s.wclosed then .fault .writerClosed
  else if patFull s then .fault .patternFull
  else if cstepCarries (s.pat ++ [b]) next last s then
    if s.coutFree < s.coutNeed 0 then .hold .output
    else .done (s.commitStep (s.pat ++ [b]) [] b)
  else match cstepFinal (s.pat ++ [b]) s with
    | none => .fault .badToken
    | some ts =>
      if s.coutFree < s.coutNeed (tokensBits s.ctx ts).length then .hold .output
      else .done (s.commitStep [] (tokensBits s.ctx ts) b)

/-- CSTEP (R190). -/
def execCstep (b next : Byte) (last : Bool) (s : State) : Host.Outcome State Fault Refusal :=
  finish s (tryCstep b next last s)

/-- DSTEP's data check (R197): a reference must name a byte the window holds; a literal always passes. -/
def tokenUsable (s : State) : Token → Bool
  | .lit _ => true
  | .ref d _ => distUsable s d

/-- The stages of DSTEP (R197, R133). -/
def tryDstep (s : State) : Attempt :=
  if !s.cfgd then .fault .notConfigured
  else if s.rclosed then .fault .readerClosed
  else match s.peek with
    | .needMore => .hold .input
    | .trunc => .fault .truncated
    | .eos => .done s.answerEos
    | .token t k =>
      if !tokenUsable s t then .fault .badReference
      else if s.routFree < tokenYield t then .hold .output
      else .done (((s.consume k).replay t).answerToken t)

/-- DSTEP (R197). -/
def execDstep (s : State) : Host.Outcome State Fault Refusal := finish s (tryDstep s)

end Sys2Proof.Machine
end

