-- ==== Sys2Proof/Machine/Search.lean ====
section
/-! DEFINITION. The window and prefix-match commands WEXT, PCLR, PPUSH, WFIND (spec/42_window.md). -/

namespace Sys2Proof.Machine

/-- The stages of WEXT (R171): `append(b)`. Never held. -/
def tryWext (b : Byte) (s : State) : Attempt :=
  if !s.cfgd then .fault .notConfigured else .done (s.append b)

/-- WEXT (R171). -/
def execWext (b : Byte) (s : State) : Host.Outcome State Fault Refusal := finish s (tryWext b s)

/-- The stages of PCLR (R176). -/
def tryPclr (s : State) : Attempt :=
  if !s.cfgd then .fault .notConfigured else .done { s with pat := [] }

/-- PCLR (R176). -/
def execPclr (s : State) : Host.Outcome State Fault Refusal := finish s (tryPclr s)

/-- The stages of PPUSH (R177). -/
def tryPpush (b : Byte) (s : State) : Attempt :=
  if !s.cfgd then .fault .notConfigured
  else if patFull s then .fault .patternFull
  else .done { s with pat := s.pat ++ [b] }

/-- PPUSH (R177). -/
def execPpush (b : Byte) (s : State) : Host.Outcome State Fault Refusal := finish s (tryPpush b s)

/-- WFIND's answer (R173): FOUND and RESA, RESA 0xFFFFFFFF when not found. -/
def State.answerFind (r : Option Word) (s : State) : State :=
  match r with
  | none => { s with found := false, resa := 0xFFFFFFFF#32 }
  | some p => { s with found := true, resa := p }

/-- The stages of WFIND (R173). Never held. -/
def tryWfind (s : State) : Attempt :=
  if !s.cfgd then .fault .notConfigured else .done (s.answerFind (s.find s.pat))

/-- WFIND (R173). -/
def execWfind (s : State) : Host.Outcome State Fault Refusal := finish s (tryWfind s)

end Sys2Proof.Machine
end

