-- ==== Sys2Proof/Machine/Dispatch.lean ====
section
/-! DEFINITION. The meaning of every command: one arm per constructor of Instr (spec/30_encoding.md R108). -/

namespace Sys2Proof.Machine

def exec (i : Instr) (s : State) : Host.Outcome State Fault Refusal :=
  match i with
  | .nop => Sys2Proof.Machine.execNop s
  | .cfg off len => Sys2Proof.Machine.execCfg off len s
  | .wlit b => Sys2Proof.Machine.execWlit b s
  | .wref dist length => Sys2Proof.Machine.execWref dist length s
  | .wclose => Sys2Proof.Machine.execWclose s
  | .rtok => Sys2Proof.Machine.execRtok s
  | .rclose => Sys2Proof.Machine.execRclose s
  | .wext b => Sys2Proof.Machine.execWext b s
  | .pclr => Sys2Proof.Machine.execPclr s
  | .ppush b => Sys2Proof.Machine.execPpush b s
  | .wfind => Sys2Proof.Machine.execWfind s
  | .cstep b next last => Sys2Proof.Machine.execCstep b next last s
  | .dstep => Sys2Proof.Machine.execDstep s

end Sys2Proof.Machine
end

