-- ==== Sys2Proof/Machine/Flags.lean ====
section
/-! DEFINITION. The flags and packed fields the host reads: holds, STATUS, ERR, CTX, CTX2, TOKKIND, WSTAT
(spec/10_state.md R47 to R55, spec/20_memory.md R79). -/

namespace Sys2Proof.Machine

/-- The stages of a command (R133). -/
def attempt (i : Instr) (s : State) : Attempt :=
  match i with
  | .nop => tryNop s
  | .cfg off len => tryCfg off len s
  | .wlit b => tryWlit b s
  | .wref dist length => tryWref dist length s
  | .wclose => tryWclose s
  | .rtok => tryRtok s
  | .rclose => tryRclose s
  | .wext b => tryWext b s
  | .pclr => tryPclr s
  | .ppush b => tryPpush b s
  | .wfind => tryWfind s
  | .cstep b next last => tryCstep b next last s
  | .dstep => tryDstep s

/-- The stages of a command word: a word of no row is ILLEGAL_CMD before anything else (R109, R133). -/
def attemptWord (w : Word) (s : State) : Attempt :=
  match decode w with
  | .ok i => attempt i s
  | .error _ => .fault .illegalCmd

/-- What the latched command waits for, if it is held (R47, R79). While FAULT = 1 nothing is performed and
so nothing is held (log 9). -/
def State.holding (s : State) : Option Hold :=
  match s.latched with
  | none => none
  | some w =>
    match attemptWord w s with
    | .hold h => some h
    | .fault _ => none
    | .done _ => none

/-- HOLD_OUT (R47). -/
def State.holdOut (s : State) : Bool := decide (s.holding = some .output)

/-- HOLD_IN (R47). -/
def State.holdIn (s : State) : Bool := decide (s.holding = some .input)

/-- A register field: `width` bits of v at bit `lo`. In every reachable state v fits its field (log 14). -/
def place (lo width v : Nat) : Nat := v % 2 ^ width * 2 ^ lo

/-- STATUS (R49). -/
def State.statusWord (s : State) : Word :=
  BitVec.ofNat 32
    (place 0 1 s.busy.toNat + place 1 1 s.fault.toNat + place 2 1 s.cfgd.toNat +
      place 3 1 s.wclosed.toNat + place 4 1 s.rclosed.toNat + place 5 1 s.eof.toNat +
      place 6 1 s.eos.toNat + place 7 1 s.found.toNat + place 8 3 s.wacc.length +
      place 11 3 s.rbuf.length + place 14 1 s.holdOut.toNat + place 15 1 s.holdIn.toNat)

/-- The value of a fault code (R230). -/
def ErrCode.code : ErrCode → Nat
  | .noFault => 0
  | .illegalCmd => 1
  | .notConfigured => 2
  | .badConfig => 3
  | .badToken => 4
  | .writerClosed => 5
  | .readerClosed => 6
  | .truncated => 7
  | .unreadData => 8
  | .badReference => 9
  | .patternFull => 10
  | .cmdWhileBusy => 11
  | .cinOverflow => 12

/-- ERR (R50). -/
def State.errWord (s : State) : Word := BitVec.ofNat 32 (place 0 4 s.errcode.code)

/-- CTX (R52): all 0 while CFGD = 0. -/
def State.ctxWord (s : State) : Word :=
  if s.cfgd then
    BitVec.ofNat 32
      (place 0 8 s.ctx.offb.toNat + place 8 8 s.ctx.lenb.toNat + place 16 8 s.ctx.ess +
        place 24 4 s.ctx.bep + place 28 4 s.ctx.mins)
  else 0

/-- CTX2 (R53): all 0 while CFGD = 0. -/
def State.ctx2Word (s : State) : Word :=
  if s.cfgd then BitVec.ofNat 32 (place 0 9 s.ctx.maxs + place 16 16 s.ctx.wsize) else 0

/-- The value of TOKKIND (R45). -/
def TokKind.code : TokKind → Nat
  | .literal => 0
  | .reference => 1
  | .endOfStream => 2
  | .noToken => 3

/-- TOKKIND (R54). -/
def State.tokkindWord (s : State) : Word := BitVec.ofNat 32 (place 0 2 s.tokkind.code)

/-- WSTAT (R55). -/
def State.wstatWord (s : State) : Word :=
  BitVec.ofNat 32 (place 0 16 s.window.fill.toNat + place 16 9 s.pat.length)

end Sys2Proof.Machine
end

