-- ==== Sys2Proof/Machine/Registers.lean ====
section
/-! DEFINITION. The register window: what a host access reads, changes and faults on
(spec/10_state.md R48 to R59, spec/20_memory.md R70 to R72, R78). -/

namespace Sys2Proof.Machine

/-- The register at an offset of the window (R70); the reserved offsets have none. -/
def Reg.ofOffset : Nat → Option Reg
  | 0x00 => some .cmd
  | 0x04 => some .status
  | 0x08 => some .err
  | 0x0C => some .errcmd
  | 0x10 => some .ctx
  | 0x14 => some .ctx2
  | 0x18 => some .tokkind
  | 0x1C => some .resa
  | 0x20 => some .resb
  | 0x24 => some .wstat
  | 0x28 => some .wcount
  | 0x2C => some .coutData
  | 0x30 => some .coutCount
  | 0x34 => some .cinData
  | 0x38 => some .cinCount
  | 0x3C => some .cinEof
  | 0x40 => some .routData
  | 0x44 => some .routCount
  | 0x48 => some .ctrl
  | 0x4C => some .id
  | 0x50 => some .coutDepth
  | 0x54 => some .cinDepth
  | 0x58 => some .routDepth
  | _ => none

/-- The offset of a register (R70). -/
def Reg.offset : Reg → Nat
  | .cmd => 0x00
  | .status => 0x04
  | .err => 0x08
  | .errcmd => 0x0C
  | .ctx => 0x10
  | .ctx2 => 0x14
  | .tokkind => 0x18
  | .resa => 0x1C
  | .resb => 0x20
  | .wstat => 0x24
  | .wcount => 0x28
  | .coutData => 0x2C
  | .coutCount => 0x30
  | .cinData => 0x34
  | .cinCount => 0x38
  | .cinEof => 0x3C
  | .routData => 0x40
  | .routCount => 0x44
  | .ctrl => 0x48
  | .id => 0x4C
  | .coutDepth => 0x50
  | .cinDepth => 0x54
  | .routDepth => 0x58

/-- What a read of a FIFO's data register returns: the head with VALID set, or 0 (R57). -/
def headWord : List Byte → Word
  | [] => 0
  | b :: _ => BitVec.ofNat 32 (b.toNat + 1 * 2 ^ 8)

/-- A natural number as a 32-bit register reads it (R57, R58; log 15). -/
def countWord (n : Nat) : Word := BitVec.ofNat 32 n

/-- The value a read of a register returns (R49 to R58); a write-only register reads 0 (R72). -/
def readValue (r : Reg) (s : State) : Word :=
  match r with
  | .cmd => 0
  | .status => s.statusWord
  | .err => s.errWord
  | .errcmd => s.errcmd
  | .ctx => s.ctxWord
  | .ctx2 => s.ctx2Word
  | .tokkind => s.tokkindWord
  | .resa => s.resa
  | .resb => s.resb
  | .wstat => s.wstatWord
  | .wcount => s.window.count
  | .coutData => headWord s.cout
  | .coutCount => countWord s.cout.length
  | .cinData => 0
  | .cinCount => countWord s.cin.length
  | .cinEof => 0
  | .routData => headWord s.rout
  | .routCount => countWord s.rout.length
  | .ctrl => 0
  | .id => idValue
  | .coutDepth => countWord s.params.coutDepth
  | .cinDepth => countWord s.params.cinDepth
  | .routDepth => countWord s.params.routDepth

/-- What a read of a register does to the block: COUT_DATA and ROUT_DATA pop, every other read changes
nothing (R57, R78). -/
def readEffect (r : Reg) (s : State) : State :=
  match r with
  | .coutData => { s with cout := s.cout.tail }
  | .routData => { s with rout := s.rout.tail }
  | .cmd | .status | .err | .errcmd | .ctx | .ctx2 | .tokkind | .resa | .resb | .wstat | .wcount
  | .coutCount | .cinData | .cinCount | .cinEof | .routCount | .ctrl | .id | .coutDepth | .cinDepth
  | .routDepth => s

/-- A write of CMD (R48). -/
def writeCmd (v : Word) (s : State) : State :=
  if s.fault then s
  else if s.busy then s.takeFault .cmdWhileBusy v
  else { s with lcmd := v, busy := true }

/-- A write of CIN_DATA (R57). -/
def writeCinData (v : Word) (s : State) : State :=
  if s.fault then s
  else if s.cin.length < s.params.cinDepth && !s.eof then
    { s with cin := s.cin ++ [BitVec.ofNat 8 v.toNat] }
  else s.takeFault .cinOverflow v

/-- A write of CIN_EOF (R57). -/
def writeCinEof (v : Word) (s : State) : State :=
  if s.fault then s
  else if v.toNat % 2 = 1 then { s with eof := true }
  else s

/-- A write of CTRL (R59, R261). -/
def writeCtrl (v : Word) (s : State) : State :=
  if v.toNat % 2 = 1 then s.hardReset else s

/-- What a write of a register does; a read-only register ignores it (R72). -/
def writeReg (r : Reg) (v : Word) (s : State) : State :=
  match r with
  | .cmd => writeCmd v s
  | .cinData => writeCinData v s
  | .cinEof => writeCinEof v s
  | .ctrl => writeCtrl v s
  | .status | .err | .errcmd | .ctx | .ctx2 | .tokkind | .resa | .resb | .wstat | .wcount | .coutData
  | .coutCount | .cinCount | .routData | .routCount | .id | .coutDepth | .cinDepth | .routDepth => s

/-- A read at an offset: a reserved offset reads 0 and changes nothing (R72). The value goes to the host's
record (log 7). -/
def readOffset (addr off : Nat) (s : State) : State :=
  match Reg.ofOffset off with
  | some r =>
    { readEffect r s with reads := s.reads ++ [{ addr := addr, value := readValue r s }] }
  | none => { s with reads := s.reads ++ [{ addr := addr, value := 0 }] }

/-- A write at an offset: a reserved offset ignores it (R72). -/
def writeOffset (off : Nat) (v : Word) (s : State) : State :=
  match Reg.ofOffset off with
  | some r => writeReg r v s
  | none => s

/-- An address inside the register window (R70). -/
def inWindow (p : Params) (addr : Nat) : Bool :=
  decide (p.blockBase ≤ addr) && decide (addr < p.blockBase + 256)

/-- A naturally aligned 32-bit access (R71). -/
def accessSupported (addr width : Nat) : Bool := decide (width = 4) && decide (addr % 4 = 0)

/-- One host access, atomic (R71, R77). Outside the window it faults, and an odd access is refused
(log 8). -/
def hostAccess (a : HostAccess) (s : State) : Host.Outcome State Fault Refusal :=
  match a with
  | .read addr width =>
    if !inWindow s.params addr then .fault (.outsideWindow addr)
    else if !accessSupported addr width then .refused (.unsupportedAccess addr width)
    else .next (readOffset addr (addr - s.params.blockBase) s)
  | .write addr width v =>
    if !inWindow s.params addr then .fault (.outsideWindow addr)
    else if !accessSupported addr width then .refused (.unsupportedAccess addr width)
    else .next (writeOffset (addr - s.params.blockBase) v s)

end Sys2Proof.Machine
end

