-- ==== Sys2Proof/Machine/Perform.lean ====
section
/-! DEFINITION. Performing the latched command: the block's turn (spec/40_control.md R133,
spec/00_scope.md R14). -/

namespace Sys2Proof.Machine

/-- Perform a command word: its command's meaning, or ILLEGAL_CMD when it matches no row (R109, R133). -/
def performWord (w : Word) (s : State) : Host.Outcome State Fault Refusal :=
  match decode w with
  | .ok i => exec i s
  | .error _ => .next (s.takeFault .illegalCmd w)

/-- The block's turn: it performs the latched command, and with none latched it stays as it is (R47, R233,
R248; log 5). -/
def blockTurn (s : State) : Host.Outcome State Fault Refusal :=
  match s.latched with
  | some w => performWord w s
  | none => .next s

/-- The word a table row of `nbits` bits lays out in CMD: bits above `nbits` are 0 (log 12). -/
def tableWord (nbits w : Nat) : Word := BitVec.ofNat 32 (w % 2 ^ nbits)

/-- The host has written word `w` to CMD and the next turn is the block's (R48; log 11). -/
def State.withCommand (w : Word) (s : State) : State :=
  { s with lcmd := w, busy := true, fault := false, turns := [] }

end Sys2Proof.Machine
end

