-- ==== Sys2Proof/Machine/Step.lean ====
section
/-! DEFINITION. One step of the machine: the next turn of the schedule (spec/00_scope.md R14,
spec/20_memory.md R81). -/

namespace Sys2Proof.Machine

/-- One step. The next scheduled turn is taken; when the schedule is used up every turn is the block's, so
that an enabled command is performed (weak fairness of R14; log 3, log 4). -/
def step (s : State) : Host.Outcome State Fault Refusal :=
  match s.turns with
  | [] => blockTurn s
  | .block :: ts => blockTurn { s with turns := ts }
  | .access a :: ts => hostAccess a { s with turns := ts }
  | .reset :: ts => .next { s with turns := ts }.hardReset

/-- The state in which the very next step performs the word `w`: it is latched in CMD (log 11). -/
def State.withFetchWord (s : State) (nbits w : Nat) : State := s.withCommand (tableWord nbits w)

end Sys2Proof.Machine
end

