-- ==== Sys2Proof/Machine/HostSide.lean ====
section
/-! DEFINITION. The host-side collaborators: level table, header record, assembler lines and
pseudo-instructions, and the loops that move a stream through the block (spec/44_host.md,
spec/30_encoding.md R105, R112, R113, spec/43_engines.md R196, R199). None of it is state of the block. -/

namespace Sys2Proof.Machine

/-! ### Level table (R210) -/

/-- The context of a compression level, (offset_bits, len_bits); a level outside 1 to 4 has no entry and
the host refuses it. -/
def levelContext : Nat → Option (Nat × Nat)
  | 1 => some (10, 4)
  | 2 => some (12, 4)
  | 3 => some (14, 5)
  | 4 => some (15, 5)
  | _ => none

/-! ### Header record (R211, R212) -/

/-- The four fields of the header record. The timestamp and the name are byte strings: their format and
character set are the host's open parameters (log 13). -/
structure Header where
  offb : Nat
  lenb : Nat
  timestamp : List Byte
  name : List Byte
  deriving DecidableEq, Repr

/-- The space and newline of the header's layout (R211). -/
def spaceByte : Byte := 0x20#8
def newlineByte : Byte := 0x0A#8

/-- Decimal ASCII digits, most significant first, `fuel` digits at most. -/
def decimalFrom : Nat → Nat → List Byte → List Byte
  | 0, _, acc => acc
  | fuel + 1, n, acc =>
    if n < 10 then BitVec.ofNat 8 (0x30 + n) :: acc
    else decimalFrom fuel (n / 10) (BitVec.ofNat 8 (0x30 + n % 10) :: acc)

/-- A number in decimal ASCII digits without leading zeros (R211). -/
def decimal (n : Nat) : List Byte := decimalFrom (n + 1) n []

/-- The bytes of a header record, in order (R211). R211 allows no 0x20 or 0x0A in the timestamp and no 0x0A in
the name, and does not say what the host does when asked to write one: DESIGN CHOICE (unsafe, log 20), the bytes
are written unchanged. -/
def headerBytes (h : Header) : List Byte :=
  decimal h.offb ++ [spaceByte] ++ decimal h.lenb ++ [spaceByte] ++ h.timestamp ++ [spaceByte]
    ++ h.name ++ [spaceByte, newlineByte]

/-- The bytes before and after the first `c`; none where there is no `c`. -/
def cutAt (c : Byte) : List Byte → Option (List Byte × List Byte)
  | [] => none
  | b :: bs =>
    if b = c then some ([], bs)
    else match cutAt c bs with
      | none => none
      | some (before, after) => some (b :: before, after)

/-- One decimal digit. -/
def digitValue (b : Byte) : Option Nat :=
  if 0x30 ≤ b.toNat ∧ b.toNat ≤ 0x39 then some (b.toNat - 0x30) else none

/-- The value of a digit string read after `acc`; none where a byte is no digit. -/
def digitsFrom : List Byte → Nat → Option Nat
  | [], acc => some acc
  | b :: bs, acc =>
    match digitValue b with
    | none => none
    | some d => digitsFrom bs (acc * 10 + d)

/-- A decimal number: one digit or more, nothing else (R212; log 13). -/
def parseDecimal (bs : List Byte) : Option Nat :=
  match bs with
  | [] => none
  | b :: rest => digitsFrom (b :: rest) 0

/-- The fields of a header line without its newline (R212): offset_bits, len_bits and timestamp end at the
first three spaces, the name is the rest but its final space. -/
def parseHeaderLine (line : List Byte) : Option Header :=
  match cutAt spaceByte line with
  | none => none
  | some (o, afterO) =>
    match cutAt spaceByte afterO with
    | none => none
    | some (l, afterL) =>
      match cutAt spaceByte afterL with
      | none => none
      | some (ts, rest) =>
        if line.getLast? = some spaceByte then
          match parseDecimal o, parseDecimal l with
          | some off, some len =>
            some { offb := off, lenb := len, timestamp := ts, name := rest.dropLast }
          | _, _ => none
        else none

/-- The header of a file and the token stream after it (R105, R212); none is a decode failure. -/
def parseHeader (file : List Byte) : Option (Header × List Byte) :=
  match cutAt newlineByte file with
  | none => none
  | some (line, stream) =>
    match parseHeaderLine line with
    | none => none
    | some h => some (h, stream)

/-! ### Assembler lines and pseudo-instructions (R112, R113) -/

/-- The CSTEPs of `COMPRESS s` (R113): each byte with its successor, the last with LAST. -/
def compressCommands : List Byte → List Instr
  | [] => []
  | [b] => [.cstep b 0 true]
  | b :: n :: rest => .cstep b n false :: compressCommands (n :: rest)

/-- The lines of a host program. -/
inductive HostLine where
  /-- a command line alone: `wr CMD, word` then `poll BUSY=0` -/
  | command (i : Instr)
  /-- `LEVEL n` -/
  | level (n : Nat)
  /-- `PSET "s"` -/
  | pset (s : List Byte)
  /-- `COMPRESS "s"` -/
  | compress (s : List Byte)
  /-- `FEED b1, b2, ...` -/
  | feed (bs : List Byte)
  /-- `FEOF` -/
  | feof
  /-- `wr NAME, v` -/
  | wr (r : Reg) (v : Word)
  /-- `rd NAME` -/
  | rd (r : Reg)
  /-- `poll BUSY=0` -/
  | poll
  deriving DecidableEq, Repr

/-- The commands a line expands to (R113); none for a LEVEL outside 1 to 4. -/
def HostLine.commands : HostLine → Option (List Instr)
  | .command i => some [i]
  | .level n =>
    match levelContext n with
    | some (o, l) => some [.cfg o l]
    | none => none
  | .pset s => some (.pclr :: s.map .ppush)
  | .compress s => some (compressCommands s)
  | .feed _ => some []
  | .feof => some []
  | .wr _ _ => some []
  | .rd _ => some []
  | .poll => some []

/-- What a host program does, one entry after another: one register access, or `poll BUSY=0`. -/
inductive HostOp where
  | access (a : HostAccess)
  /-- read STATUS until BUSY is 0 -/
  | poll
  deriving DecidableEq, Repr

/-- `wr r, v` and `rd r` (R112). -/
def writeOp (base : Nat) (r : Reg) (v : Word) : HostOp := .access (.write (base + r.offset) 4 v)
def readOp (base : Nat) (r : Reg) : HostOp := .access (.read (base + r.offset) 4)

/-- A command line: `wr CMD, word` followed by `poll BUSY=0` (R112). -/
def commandOps (base : Nat) (i : Instr) : List HostOp := [writeOp base .cmd (encode i), .poll]

/-- What a line does; none for a LEVEL outside 1 to 4 (R112, R113). -/
def HostLine.ops (base : Nat) : HostLine → Option (List HostOp)
  | .feed bs => some (bs.map fun b => writeOp base .cinData (BitVec.ofNat 32 b.toNat))
  | .feof => some [writeOp base .cinEof 1]
  | .wr r v => some [writeOp base r v]
  | .rd r => some [readOp base r]
  | .poll => some [.poll]
  | .command i => some (commandOps base i)
  | .level n =>
    match (HostLine.level n).commands with
    | some is => some (is.flatMap (commandOps base))
    | none => none
  | .pset s => some ((Instr.pclr :: s.map .ppush).flatMap (commandOps base))
  | .compress s => some ((compressCommands s).flatMap (commandOps base))

/-- What a program does, its lines in order; none where a line is refused. -/
def programOps (base : Nat) : List HostLine → Option (List HostOp)
  | [] => some []
  | line :: lines =>
    match line.ops base, programOps base lines with
    | some now, some later => some (now ++ later)
    | _, _ => none

/-- A host program under way: what it has still to do, and the machine. -/
structure HostRun where
  ops : List HostOp
  machine : State
  deriving DecidableEq, Repr

/-- One step of a host program. An access is done and left behind. `poll BUSY=0` is one read of STATUS at a time
and stays the program's next entry until a read shows BUSY = 0, so a held command keeps the program there (R79,
R112, R272). The block takes its turn before each of these reads and at no other time: DESIGN CHOICE (unsafe,
log 23). -/
def HostRun.step (run : HostRun) : Host.Outcome HostRun Fault Refusal :=
  match run.ops with
  | [] => .next run
  | .access a :: rest =>
    match hostAccess a run.machine with
    | .next t => .next ⟨rest, t⟩
    | .fault f => .fault f
    | .refused f => .refused f
  | .poll :: rest =>
    match blockTurn run.machine with
    | .fault f => .fault f
    | .refused f => .refused f
    | .next t =>
      match hostAccess (.read (t.params.blockBase + Reg.status.offset) 4) t with
      | .fault f => .fault f
      | .refused f => .refused f
      | .next u =>
        .next ⟨if field (readValue .status t) 0 0 = 0 then rest else .poll :: rest, u⟩

/-- The operand text of the assembler (R112), in decimal. R112 writes a CSTEP with LAST as `CSTEP b, LAST`, whose
NEXT is 0, and has no line for a word with LAST and another NEXT: DESIGN CHOICE (unsafe, log 19), such a word
prints as `CSTEP b, LAST` too. -/
def asmText : Instr → String
  | .nop => "NOP"
  | .cfg off len => "CFG " ++ toString off ++ ", " ++ toString len
  | .wlit b => "WLIT " ++ toString b.toNat
  | .wref dist length => "WREF " ++ toString dist ++ ", " ++ toString length
  | .wclose => "WCLOSE"
  | .rtok => "RTOK"
  | .rclose => "RCLOSE"
  | .wext b => "WEXT " ++ toString b.toNat
  | .pclr => "PCLR"
  | .ppush b => "PPUSH " ++ toString b.toNat
  | .wfind => "WFIND"
  | .cstep b next last =>
    "CSTEP " ++ toString b.toNat ++ ", " ++ (if last then "LAST" else toString next.toNat)
  | .dstep => "DSTEP"

/-! ### Moving a stream through the block (R196, R199, R213) -/

/-- A width as an operand of CFG (R107: 8 bits). One that does not fit becomes 255, which is outside the block's
range as well: DESIGN CHOICE (safe, log 21). -/
def cfgOperand (n : Nat) : Nat := min n 255

/-- The CFG the host issues for a pair of widths (R196, R199, R212): `CFG off, len`, so that a pair outside the
block's range, however large, faults with BAD_CONFIG (R131). -/
def contextCommand (off len : Nat) : Instr := .cfg (cfgOperand off) (cfgOperand len)

/-- The host writes a command to CMD and the block takes its turn; none only where the turn is a stop. -/
def hostCommand (i : Instr) (s : State) : Option State :=
  match blockTurn (writeCmd (encode i) s) with
  | .next t => some t
  | .fault _ => none
  | .refused _ => none

/-- The command has completed: BUSY = 0 and FAULT = 0 (R270, R271). -/
def State.completed (s : State) : Bool := !s.busy && !s.fault

/-- The host issues commands one after another and pops every COUT byte after each (R196, log 17). Answers
the bytes popped, in order, and the state after; where a command faults or is held it answers none, and the bytes
popped before are not used: DESIGN CHOICE (safe, log 22). It hands out every byte it pops, so `compressStream` drains an
earlier session's bytes before it (log 24). -/
def runDraining : List Instr → State → Option (List Byte × State)
  | [], s => some ([], s)
  | i :: is, s =>
    match hostCommand i s with
    | none => none
    | some t =>
      if t.completed then
        match runDraining is { t with cout := [] } with
        | none => none
        | some (out, u) => some (t.cout ++ out, u)
      else none

/-- The host pops every byte an earlier session left in COUT and ROUT, before it starts a new one. R274 has the
host drain them first or count them: DESIGN CHOICE (unsafe, log 24), it drains them, and they are no part of what
the new session answers. -/
def drainOld (s : State) : State := { s with cout := [], rout := [] }

/-- The compression loop (R196): the stream the host pops from COUT, and the state after WCLOSE. Bytes of an
earlier session are drained first (log 24). -/
def compressStream (off len : Nat) (input : List Byte) (s : State) : Option (List Byte × State) :=
  runDraining (contextCommand off len :: (compressCommands input ++ [.wclose])) (drainOld s)

/-- The host pushes stream bytes while CIN has room, and writes CIN_EOF after the last (R213). Answers the
bytes still to push. -/
def feedCin : List Byte → State → State × List Byte
  | [], s => (writeCinEof 1 s, [])
  | b :: bs, s =>
    if s.cin.length < s.params.cinDepth then feedCin bs (writeCinData (BitVec.ofNat 32 b.toNat) s)
    else (s, b :: bs)

/-- The decompression loop (R199): feed, DSTEP, pop every ROUT byte, until end of stream; then RCLOSE. At
most `fuel` DSTEPs. Where a command faults or is held, RCLOSE among them, it answers none, and the bytes popped
before are not used: R240 leaves that to the host, DESIGN CHOICE (safe, log 22). It hands out every byte it pops, so
`decompressStream` drains an earlier session's bytes before it (log 24). -/
def decompressLoop : Nat → List Byte → State → Option (List Byte × State)
  | 0, _, _ => none
  | fuel + 1, stream, s =>
    match hostCommand .dstep (feedCin stream s).1 with
    | none => none
    | some t =>
      if t.completed then
        if t.tokkind = .endOfStream then
          match hostCommand .rclose t with
          | none => none
          | some u => if u.completed then some ([], u) else none
        else
          match decompressLoop fuel (feedCin stream s).2 { t with rout := [] } with
          | none => none
          | some (out, u) => some (t.rout ++ out, u)
      else none

/-- Decompressing a stream in one session (R199): the bytes the host pops from ROUT, and the state after
RCLOSE. Bytes of an earlier session are drained first (log 24). Every token has at least one bit, so 8 DSTEPs a
byte and one more are enough. -/
def decompressStream (off len : Nat) (stream : List Byte) (s : State) : Option (List Byte × State) :=
  match hostCommand (contextCommand off len) (drainOld s) with
  | none => none
  | some t => if t.completed then decompressLoop (8 * stream.length + 1) stream t else none

/-- Compressing a file (R213): the header, then the stream. Where compressing faults it answers none, and what has
reached the sink, the header included, is not used: DESIGN CHOICE (safe, log 22). -/
def compressFile (h : Header) (input : List Byte) (s : State) : Option (List Byte) :=
  match compressStream h.offb h.lenb input s with
  | none => none
  | some (stream, _) => some (headerBytes h ++ stream)

/-- Decompressing a file (R212, R213): the header's context, then the stream after it. A header that does not
parse issues no CFG. -/
def decompressFile (file : List Byte) (s : State) : Option (Header × List Byte) :=
  match parseHeader file with
  | none => none
  | some (h, stream) =>
    match decompressStream h.offb h.lenb stream s with
    | none => none
    | some (out, _) => some (h, out)

end Sys2Proof.Machine
end

