-- ==== Sys2Proof/Safety.lean ====
section
/-! DEFINITION. What a sound state and a safe schedule are: the invariant of the machine, in the terms the
claims use, and the relation of states that differ only in unobservable RAM. -/

namespace Sys2Proof.Machine

/-- What every reachable state satisfies, clause by clause with the rule it comes from. -/
structure State.Inv (s : State) : Prop where
  /-- the parameters meet the minima of R7 -/
  params : s.params.Legal
  /-- while CFGD = 0 the context is 0 (R22) -/
  contextZero : s.cfgd = false → s.ctx.offb = 0 ∧ s.ctx.lenb = 0
  /-- while CFGD = 1 the context is in the legal range (R2); OFFB <= 15 by its width -/
  contextLegal : s.cfgd = true →
    1 ≤ s.ctx.offb.toNat ∧ 1 ≤ s.ctx.lenb.toNat ∧ s.ctx.lenb.toNat ≤ 8
  /-- before the first CFG nothing has run (R60, R231) -/
  preSession : s.cfgd = false → s.wacc = [] ∧ s.rbuf = [] ∧ s.pat = [] ∧ s.cout = [] ∧
    s.rout = [] ∧ s.window.fill = 0
  /-- `|WACC| <= 7` (R25) -/
  waccShort : s.wacc.length ≤ 7
  /-- `|RBUF| <= 7` (R27) -/
  rbufShort : s.rbuf.length ≤ 7
  /-- a closed writer holds no partial byte (R143) -/
  writerClosed : s.wclosed = true → s.wacc = []
  /-- a closed reader holds no partial byte (R155) -/
  readerClosed : s.rclosed = true → s.rbuf = []
  /-- each FIFO is within its depth (R30) -/
  coutFits : s.cout.length ≤ s.params.coutDepth
  cinFits : s.cin.length ≤ s.params.cinDepth
  routFits : s.rout.length ≤ s.params.routDepth
  /-- `|PAT| <= PAT_CAP` (R44) -/
  patFits : s.pat.length ≤ patCap
  /-- the RAM list is canonical and inside the RAM (R73) -/
  ramWf : s.window.ram.wf = true
  /-- WHEAD is an index of the window's ring (R41, R170) -/
  headInRing : s.window.head.toNat < s.ctx.wsize
  /-- `|WIN| <= WSIZE` (R40) -/
  fillFits : s.window.fill.toNat ≤ s.ctx.wsize
  /-- before the window is full WBASE is 0 and WHEAD has not moved (R170) -/
  young : s.window.fill.toNat < s.ctx.wsize →
    s.window.head = 0 ∧ s.window.count.toNat = s.window.fill.toNat
  /-- WHEAD is WBASE's place in the ring (R41, R170) -/
  ring : s.window.head.toNat = s.window.base.toNat % s.ctx.wsize
  /-- ERRCODE is NONE exactly while FAULT = 0 (R46, R230) -/
  faultCode : s.fault = true ↔ s.errcode ≠ .noFault
  /-- ERRCMD is 0 while no fault has been taken (R46, R60) -/
  errcmdZero : s.fault = false → s.errcmd = 0
  /-- a faulted block has no latched command (R232, R233) -/
  faultIdle : s.fault = true → s.busy = false
  /-- EOS and TOKKIND agree (R45, R153) -/
  eosKind : s.eos = true ↔ s.tokkind = .endOfStream

/-- A host access that has a step: a 32-bit aligned access inside the window (R70, R71). -/
def HostAccess.supported (p : Params) : HostAccess → Bool
  | .read addr width => inWindow p addr && accessSupported addr width
  | .write addr width _ => inWindow p addr && accessSupported addr width

/-- A turn after which the machine goes on. -/
def Turn.safe (p : Params) : Turn → Bool
  | .block => true
  | .access a => a.supported p
  | .reset => true

/-- A turn that resets the block: the platform's reset (R260), or a write of CTRL with SRST set (R261). -/
def Turn.resets (p : Params) : Turn → Bool
  | .block => false
  | .access (.read _ _) => false
  | .access (.write addr _ v) => decide (addr = p.blockBase + Reg.ctrl.offset) && decide (v.toNat % 2 = 1)
  | .reset => true

/-- A token the writer admits in a context (R100, R101, R142). -/
def Token.admissible (c : Context) : Token → Prop
  | .lit _ => True
  | .ref d l => d < c.wsize ∧ c.mins ≤ l ∧ l ≤ c.maxs

/-- Two states that differ in nothing but window RAM outside the window (R60, R80). -/
def State.sameButRam (s t : State) : Prop :=
  s.win = t.win ∧
    { s with window := { s.window with ram := t.window.ram } } = t

/-- Two outcomes alike up to window RAM outside the window. -/
def outcomeSameButRam : Host.Outcome State Fault Refusal → Host.Outcome State Fault Refusal → Prop
  | .next s, .next t => s.sameButRam t
  | .fault a, .fault b => a = b
  | .refused a, .refused b => a = b
  | _, _ => False

/-- Every element of the block holds its reset value (R60). The window RAM's bytes are not named: R60 leaves them
unspecified. -/
structure State.AtReset (t : State) : Prop where
  cfgd : t.cfgd = false
  offb : t.ctx.offb = 0
  lenb : t.ctx.lenb = 0
  wacc : t.wacc = []
  wclosed : t.wclosed = false
  rbuf : t.rbuf = []
  rclosed : t.rclosed = false
  eof : t.eof = false
  eos : t.eos = false
  cout : t.cout = []
  cin : t.cin = []
  rout : t.rout = []
  win : t.win = []
  wfill : t.window.fill = 0
  whead : t.window.head = 0
  wcount : t.window.count = 0
  pat : t.pat = []
  tokkind : t.tokkind = .noToken
  resa : t.resa = 0
  resb : t.resb = 0
  found : t.found = false
  fault : t.fault = false
  errcode : t.errcode = .noFault
  errcmd : t.errcmd = 0
  busy : t.busy = false
  lcmd : t.lcmd = 0

/-- The RAM address the next append writes (R170). -/
def Window.slot (wsize : Nat) (w : Window) : Nat :=
  if w.fill.toNat < wsize then w.addr wsize w.fill.toNat else w.head.toNat

end Sys2Proof.Machine
end

