-- ==== Sys2Proof/Certificates/Slice0/Obligations.lean ====
section
/-! DEFINITION. The statements about PZYP-LZC, from the numbered rules of spec/. -/

open Sys2Proof Sys2Proof.Machine

/-! ### Encodings (spec/30_encoding.md) -/

/-- R107, R108: the decoder gives every well-formed command back from its word. -/
def Obligations.DecodeEncodeAgree : Prop :=
  ∀ i : Instr, i.wellFormed = true → decode (encode i) = .ok i

/-- R106 to R109: a decoded command is well formed and its word is the one that was decoded, so each word
has one meaning and no bit of it is dropped. -/
def Obligations.DecodedWordIsItsEncoding : Prop :=
  ∀ (w : Word) (i : Instr), decode w = .ok i → i.wellFormed = true ∧ encode i = w

/-- R109: a word that matches a row of the opcode map is that row's command, every other word faults with
ILLEGAL_CMD when performed, and the rows have distinct opcodes. -/
def Obligations.DecodeMatchesOpcodeMap : Prop :=
  (∀ (w : Word) (i : Instr), decode w = .ok i →
    ∃ r ∈ opcodeMap, r.hits w = true ∧ r.opcode = i.opcode) ∧
  (∀ (w : Word) (r : OpcodeRow), r ∈ opcodeMap → r.hits w = true →
    ∃ i, decode w = .ok i ∧ i.opcode = r.opcode) ∧
  (∀ (w : Word) (s : State), (∀ r ∈ opcodeMap, r.hits w = false) →
    performWord w s =
      .next { s with fault := true, errcode := .illegalCmd, errcmd := w, busy := false }) ∧
  (opcodeMap.map fun r => r.opcode).Nodup

/-- R114: the worked encodings. A check of the written words; LEVEL expands by R113. -/
def Obligations.WorkedEncodings : Prop :=
  decode 0x10000304#32 = .ok (.cfg 4 3) ∧
  (HostLine.level 1).commands = some [.cfg 10 4] ∧ decode 0x1000040A#32 = .ok (.cfg 10 4) ∧
  (HostLine.level 4).commands = some [.cfg 15 5] ∧ decode 0x1000050F#32 = .ok (.cfg 15 5) ∧
  decode 0x20000041#32 = .ok (.wlit 0x41#8) ∧
  decode 0x30018004#32 = .ok (.wref 4 3) ∧
  decode 0xB0006261#32 = .ok (.cstep 0x61#8 0x62#8 false) ∧
  decode 0xB0010062#32 = .ok (.cstep 0x62#8 0x00#8 true) ∧
  [Instr.cfg 4 3, .cfg 10 4, .cfg 15 5, .wlit 0x41#8, .wref 4 3, .cstep 0x61#8 0x62#8 false,
    .cstep 0x62#8 0x00#8 true].map encode =
  [0x10000304#32, 0x1000040A#32, 0x1000050F#32, 0x20000041#32, 0x30018004#32, 0xB0006261#32,
    0xB0010062#32]

/-- R100 to R104: in every context, tokens the writer admits are told apart from their bits alone: `peek`
gives the next token of a stream and its length, answers end of stream exactly at a padding of fewer than 8
zero bits, and two padded streams with the same bits hold the same tokens. -/
def Obligations.TokenStreamUniquelyDecodable : Prop :=
  ∀ c : Context,
    (∀ (t : Token) (rest : Bits) (eof : Bool), t.admissible c →
      peek c (tokenBits c t ++ rest) eof = .token t (tokenBits c t).length) ∧
    (∀ n : Nat, n < 8 → peek c (List.replicate n false) true = .eos) ∧
    (∀ (ts us : List Token) (m n : Nat), (∀ t ∈ ts, t.admissible c) → (∀ t ∈ us, t.admissible c) →
      m < 8 → n < 8 →
      tokensBits c ts ++ List.replicate m false = tokensBits c us ++ List.replicate n false → ts = us)

/-! ### Steps, reset and the invariant -/

/-- R14, R47, R81, R133: one step takes the next turn. A block turn, and every turn once the schedule is used
up, performs the latched command (the meaning of the decoded command, or ILLEGAL_CMD), and only uses up its turn
with none latched or while FAULT = 1 (log 5). The schedule, the block's turns after it and the clause about
withFetchWord, which latches a word, clears FAULT and empties the schedule, are the model's own choices (log 3,
log 4, log 11). -/
def Obligations.StepRunsDecodedCommand : Prop :=
  (∀ (s : State) (i : Instr), s.turns = [] → s.busy = true → s.fault = false →
    decode s.lcmd = .ok i → step s = exec i s) ∧
  (∀ (s : State) (i : Instr) (ts : List Turn), s.turns = .block :: ts → s.busy = true →
    s.fault = false → decode s.lcmd = .ok i → step s = exec i { s with turns := ts }) ∧
  (∀ (s : State) (r : Reject), s.turns = [] → s.busy = true → s.fault = false →
    decode s.lcmd = .error r → step s = .next (s.takeFault .illegalCmd s.lcmd)) ∧
  (∀ (s : State) (r : Reject) (ts : List Turn), s.turns = .block :: ts → s.busy = true →
    s.fault = false → decode s.lcmd = .error r →
    step s = .next ({ s with turns := ts }.takeFault .illegalCmd s.lcmd)) ∧
  (∀ s : State, s.turns = [] → (s.busy = false ∨ s.fault = true) → step s = .next s) ∧
  (∀ (s : State) (ts : List Turn), s.turns = .block :: ts → (s.busy = false ∨ s.fault = true) →
    step s = .next { s with turns := ts }) ∧
  (∀ (s : State) (a : HostAccess) (ts : List Turn), s.turns = .access a :: ts →
    step s = hostAccess a { s with turns := ts }) ∧
  (∀ (s : State) (nbits w : Nat), (s.withFetchWord nbits w).turns = [] ∧
    (s.withFetchWord nbits w).busy = true ∧ (s.withFetchWord nbits w).fault = false ∧
    (s.withFetchWord nbits w).lcmd = BitVec.ofNat 32 (w % 2 ^ nbits))

/-- R60, R260: after a hardware reset every state element holds its reset value, whatever it held, a latched
command and a fault included, and every register reads 0 but TOKKIND, ID and the depths. The hardware reset as a
turn of the schedule (log 16) and the reading modulo 2^32 of a depth of 2^32 or more (log 15) are the model's
choices. -/
def Obligations.ResetFromAnyState : Prop :=
  State.reset.AtReset ∧
  (∀ (s : State) (ts : List Turn), s.turns = .reset :: ts →
    ∃ t, step s = .next t ∧ t.AtReset ∧ t.params = s.params ∧ t.turns = ts ∧ t.reads = s.reads) ∧
  (∀ (t : State) (r : Reg), t.AtReset →
    readValue r t =
      if r = .tokkind then 3
      else if r = .id then 0x505A5901#32
      else if r = .coutDepth then BitVec.ofNat 32 t.params.coutDepth
      else if r = .cinDepth then BitVec.ofNat 32 t.params.cinDepth
      else if r = .routDepth then BitVec.ofNat 32 t.params.routDepth
      else 0)

/-- R59, R261: a write of CTRL with bit 0 set performs the hardware reset at the access, whatever BUSY and
FAULT are; with bit 0 clear it has no effect, and CTRL reads 0. -/
def Obligations.CtrlWriteResets : Prop :=
  (∀ (s : State) (v : Word), s.params.blockBase % 256 = 0 → v.getLsbD 0 = true →
    ∃ t, hostAccess (.write (s.params.blockBase + 0x48) 4 v) s = .next t ∧ t.AtReset ∧
      t.params = s.params ∧ t.turns = s.turns ∧ t.reads = s.reads) ∧
  (∀ (s : State) (v : Word), s.params.blockBase % 256 = 0 → v.getLsbD 0 = false →
    hostAccess (.write (s.params.blockBase + 0x48) 4 v) s = .next s) ∧
  (∀ s : State, readValue .ctrl s = 0)

/-- The reset state meets the invariant. -/
def Obligations.ResetMeetsInvariant : Prop := State.reset.Inv

/-- Every step keeps the invariant: FIFOs within their depths, accumulators below a byte, the window ring in
order, the RAM canonical, the context legal, the fault registers consistent. -/
def Obligations.StepKeepsInvariant : Prop :=
  ∀ s t : State, s.Inv → step s = .next t → t.Inv

/-- A step stops exactly where the next turn is an access that has no step: outside the register window it
faults with its own address, and inside it an odd access is refused with its own address and width (R71). Every command, every supported access and every reset
goes on. The fault outside the window is the model's choice (log 8). -/
def Obligations.OnlyUnsupportedAccessesStop : Prop :=
  (∀ s : State, (∀ u ∈ s.turns.head?, u.safe s.params = true) → ∃ t, step s = .next t) ∧
  (∀ (s : State) (addr width : Nat) (v : Word) (ts : List Turn),
    s.turns = .access (.read addr width) :: ts ∨ s.turns = .access (.write addr width v) :: ts →
    ((addr < s.params.blockBase ∨ s.params.blockBase + 256 ≤ addr) →
      step s = .fault (.outsideWindow addr)) ∧
    (s.params.blockBase ≤ addr → addr < s.params.blockBase + 256 → (width ≠ 4 ∨ addr % 4 ≠ 0) →
      step s = .refused (.unsupportedAccess addr width)))

/-- R14, R47, R82, R248: a latched command that is not held is performed by the block's turn, after which
BUSY = 0; a held command, and an idle block, stay exactly as they are. -/
def Obligations.BlockTurnCompletesUnlessHeld : Prop :=
  ∀ s : State, s.turns = [] →
    (s.busy = true → s.fault = false → s.holding = none → ∃ t, step s = .next t ∧ t.busy = false) ∧
    (s.holding ≠ none → s.busy = true ∧ s.fault = false ∧ step s = .next s) ∧
    (s.busy = false → step s = .next s)

/-! ### Faults (spec/60_exceptions.md) -/

/-- R232: a command that faults changes FAULT, ERRCODE, ERRCMD and BUSY and nothing else; so do the two
register-access faults, which record the value written. -/
def Obligations.FaultEntryIsPrecise : Prop :=
  (∀ (i : Instr) (s : State) (c : ErrCode), attempt i s = .fault c →
    exec i s = .next { s with fault := true, errcode := c, errcmd := s.lcmd, busy := false }) ∧
  (∀ (s : State) (r : Reject), decode s.lcmd = .error r →
    performWord s.lcmd s =
      .next { s with fault := true, errcode := .illegalCmd, errcmd := s.lcmd, busy := false }) ∧
  (∀ (s : State) (v : Word), s.fault = false → s.busy = true →
    writeReg .cmd v s =
      { s with fault := true, errcode := .cmdWhileBusy, errcmd := v, busy := false }) ∧
  (∀ (s : State) (v : Word), s.fault = false → (s.params.cinDepth ≤ s.cin.length ∨ s.eof = true) →
    writeReg .cinData v s =
      { s with fault := true, errcode := .cinOverflow, errcmd := v, busy := false })

/-- R231: while CFGD = 0 every command but NOP and CFG faults with NOT_CONFIGURED; a CFG that faults leaves
CFGD as it was. -/
def Obligations.NotConfiguredFault : Prop :=
  (∀ (i : Instr) (s : State), s.cfgd = false → i ≠ .nop → (∀ o l, i ≠ .cfg o l) →
    exec i s = .next (s.takeFault .notConfigured s.lcmd)) ∧
  (∀ (o l : Nat) (s t : State), exec (.cfg o l) s = .next t → cfgLegal o l = false →
    t.errcode = .badConfig ∧ t.cfgd = s.cfgd)

/-- R230, R233: which fault a command reports when several checks apply, stage by stage, whatever the FIFO
levels. -/
def Obligations.FaultPriority : Prop :=
  (∀ (w : Word) (r : Reject) (s : State), decode w = .error r →
    performWord w s = .next (s.takeFault .illegalCmd w)) ∧
  (∀ (i : Instr) (s : State), s.cfgd = true → s.wclosed = true →
    (i.opcode = 0x2 ∨ i.opcode = 0x3 ∨ i.opcode = 0x4 ∨ i.opcode = 0xB) →
    exec i s = .next (s.takeFault .writerClosed s.lcmd)) ∧
  (∀ (i : Instr) (s : State), s.cfgd = true → s.rclosed = true →
    (i.opcode = 0x5 ∨ i.opcode = 0x6 ∨ i.opcode = 0xC) →
    exec i s = .next (s.takeFault .readerClosed s.lcmd)) ∧
  (∀ (o l : Nat) (s : State), ¬ (1 ≤ o ∧ o ≤ 15 ∧ 1 ≤ l ∧ l ≤ 8) →
    exec (.cfg o l) s = .next (s.takeFault .badConfig s.lcmd)) ∧
  (∀ (d l : Nat) (s : State), s.cfgd = true → s.wclosed = false →
    ¬ (d < s.ctx.wsize ∧ s.ctx.mins ≤ l ∧ l ≤ s.ctx.maxs) →
    exec (.wref d l) s = .next (s.takeFault .badToken s.lcmd)) ∧
  (∀ (b : Byte) (s : State), s.cfgd = true → s.pat.length = 258 →
    exec (.ppush b) s = .next (s.takeFault .patternFull s.lcmd)) ∧
  (∀ (b n : Byte) (last : Bool) (s : State), s.cfgd = true → s.wclosed = false → s.pat.length = 258 →
    exec (.cstep b n last) s = .next (s.takeFault .patternFull s.lcmd)) ∧
  (∀ s : State, s.cfgd = true → s.rclosed = false → s.peek = .trunc →
    exec .rtok s = .next (s.takeFault .truncated s.lcmd) ∧
    exec .dstep s = .next (s.takeFault .truncated s.lcmd)) ∧
  (∀ s : State, s.cfgd = true → s.rclosed = false → true ∈ s.unread →
    exec .rclose s = .next (s.takeFault .unreadData s.lcmd)) ∧
  (∀ (s : State) (d l k : Nat), s.cfgd = true → s.rclosed = false → s.peek = .token (.ref d l) k →
    (d = 0 ∨ s.win.length < d) → exec .dstep s = .next (s.takeFault .badReference s.lcmd))

/-- R233, R240: from a state with FAULT = 1 a step changes nothing of the block, so no command is performed and
no write but of CTRL has an effect, except that the host's reads still take bytes from COUT and ROUT; only a
hardware reset or a write of CTRL with SRST set leaves the fault, and they reset the block. The schedule and the
record of reads are the model's own (log 3, log 7). -/
def Obligations.FaultIsSticky : Prop :=
  ∀ s t : State, s.fault = true → step s = .next t →
    (t = { s with cout := t.cout, rout := t.rout, turns := s.turns.tail, reads := t.reads } ∧
      t.cout <:+ s.cout ∧ t.rout <:+ s.rout ∧ s.reads <+: t.reads) ∨
    (∃ u ts, s.turns = u :: ts ∧ u.resets s.params = true ∧ t.AtReset)

/-! ### Registers (spec/10_state.md, spec/20_memory.md) -/

/-- R48: a write of CMD latches, is ignored while FAULT = 1, and faults with CMD_WHILE_BUSY while BUSY = 1;
CMD reads 0. -/
def Obligations.CmdWrite : Prop :=
  ∀ (s : State) (v : Word), s.params.blockBase % 256 = 0 →
    (s.fault = false → s.busy = false →
      hostAccess (.write s.params.blockBase 4 v) s = .next { s with lcmd := v, busy := true }) ∧
    (s.fault = true → hostAccess (.write s.params.blockBase 4 v) s = .next s) ∧
    (s.fault = false → s.busy = true →
      hostAccess (.write s.params.blockBase 4 v) s = .next (s.takeFault .cmdWhileBusy v)) ∧
    readValue .cmd s = 0

/-- R57: the FIFO registers, what a read returns and pops, what a write pushes or faults with, and where they
stand. Of a count of 2^32 or more it says nothing (log 15). The pops are also those of the host's reads
(`Obligations.ReservedAndReadOnlyAccesses`). -/
def Obligations.FifoRegisters : Prop :=
  (∀ (s : State) (b : Byte) (bs : List Byte), s.cout = b :: bs →
    readValue .coutData s = BitVec.ofNat 32 b.toNat ||| (1#32 <<< 8) ∧
      readEffect .coutData s = { s with cout := bs }) ∧
  (∀ s : State, s.cout = [] → readValue .coutData s = 0 ∧ readEffect .coutData s = s) ∧
  (∀ (s : State) (b : Byte) (bs : List Byte), s.rout = b :: bs →
    readValue .routData s = BitVec.ofNat 32 b.toNat ||| (1#32 <<< 8) ∧
      readEffect .routData s = { s with rout := bs }) ∧
  (∀ s : State, s.rout = [] → readValue .routData s = 0 ∧ readEffect .routData s = s) ∧
  (∀ s : State,
    (s.cout.length < 2 ^ 32 → (readValue .coutCount s).toNat = s.cout.length) ∧
    (s.cin.length < 2 ^ 32 → (readValue .cinCount s).toNat = s.cin.length) ∧
    (s.rout.length < 2 ^ 32 → (readValue .routCount s).toNat = s.rout.length)) ∧
  (∀ (s : State) (v : Word), s.fault = false → s.cin.length < s.params.cinDepth → s.eof = false →
    writeReg .cinData v s = { s with cin := s.cin ++ [v.setWidth 8] }) ∧
  (∀ (s : State) (v : Word), s.fault = false → (s.params.cinDepth ≤ s.cin.length ∨ s.eof = true) →
    writeReg .cinData v s = s.takeFault .cinOverflow v) ∧
  (∀ (s : State) (v : Word), s.fault = true → writeReg .cinData v s = s) ∧
  (∀ (s : State) (v : Word), s.fault = false → v.getLsbD 0 = true →
    writeReg .cinEof v s = { s with eof := true }) ∧
  (∀ (s : State) (v : Word), (s.fault = true ∨ v.getLsbD 0 = false) → writeReg .cinEof v s = s) ∧
  (∀ s : State, readValue .cinData s = 0 ∧ readValue .cinEof s = 0) ∧
  [Reg.coutData, .coutCount, .cinData, .cinCount, .cinEof, .routData, .routCount].map Reg.offset =
    [0x2C, 0x30, 0x34, 0x38, 0x3C, 0x40, 0x44]

/-- R49: the fields of STATUS, each the state element of the same name. -/
def Obligations.StatusFields : Prop :=
  ∀ s : State, s.wacc.length ≤ 7 → s.rbuf.length ≤ 7 →
    field (readValue .status s) 0 0 = s.busy.toNat ∧
    field (readValue .status s) 1 1 = s.fault.toNat ∧
    field (readValue .status s) 2 2 = s.cfgd.toNat ∧
    field (readValue .status s) 3 3 = s.wclosed.toNat ∧
    field (readValue .status s) 4 4 = s.rclosed.toNat ∧
    field (readValue .status s) 5 5 = s.eof.toNat ∧
    field (readValue .status s) 6 6 = s.eos.toNat ∧
    field (readValue .status s) 7 7 = s.found.toNat ∧
    field (readValue .status s) 10 8 = s.wacc.length ∧
    field (readValue .status s) 13 11 = s.rbuf.length ∧
    field (readValue .status s) 14 14 = s.holdOut.toNat ∧
    field (readValue .status s) 15 15 = s.holdIn.toNat ∧
    field (readValue .status s) 31 16 = 0 ∧
    Reg.status.offset = 0x04 ∧ (∀ v, writeReg .status v s = s)

/-- R52, R53: the context registers, all 0 while CFGD = 0. -/
def Obligations.ContextRegisters : Prop :=
  ∀ s : State, s.Inv →
    (s.cfgd = false → readValue .ctx s = 0 ∧ readValue .ctx2 s = 0) ∧
    (s.cfgd = true →
      field (readValue .ctx s) 7 0 = s.ctx.offb.toNat ∧
      field (readValue .ctx s) 15 8 = s.ctx.lenb.toNat ∧
      field (readValue .ctx s) 23 16 = s.ctx.ess ∧
      field (readValue .ctx s) 27 24 = s.ctx.bep ∧
      field (readValue .ctx s) 31 28 = s.ctx.mins ∧
      field (readValue .ctx2 s) 8 0 = s.ctx.maxs ∧
      field (readValue .ctx2 s) 15 9 = 0 ∧
      field (readValue .ctx2 s) 31 16 = s.ctx.wsize) ∧
    Reg.ctx.offset = 0x10 ∧ Reg.ctx2.offset = 0x14 ∧
    (∀ v, writeReg .ctx v s = s ∧ writeReg .ctx2 v s = s)

/-- R50, R51, R54, R55, R56, R58: the error, result, window and constant registers, with the codes of R230 and
the values of TOKKIND of R45 written out. Of a depth of 2^32 or more it says nothing (log 15). -/
def Obligations.ResultAndErrorRegisters : Prop :=
  ∀ s : State, s.Inv →
    (∀ row ∈ [(ErrCode.noFault, 0), (.illegalCmd, 1), (.notConfigured, 2), (.badConfig, 3),
        (.badToken, 4), (.writerClosed, 5), (.readerClosed, 6), (.truncated, 7), (.unreadData, 8),
        (.badReference, 9), (.patternFull, 10), (.cmdWhileBusy, 11), (.cinOverflow, 12)],
      s.errcode = row.1 → field (readValue .err s) 3 0 = row.2) ∧
    field (readValue .err s) 31 4 = 0 ∧
    readValue .errcmd s = s.errcmd ∧
    (∀ row ∈ [(TokKind.literal, 0), (.reference, 1), (.endOfStream, 2), (.noToken, 3)],
      s.tokkind = row.1 → field (readValue .tokkind s) 1 0 = row.2) ∧
    field (readValue .tokkind s) 31 2 = 0 ∧
    readValue .resa s = s.resa ∧ readValue .resb s = s.resb ∧
    field (readValue .wstat s) 15 0 = s.win.length ∧
    field (readValue .wstat s) 24 16 = s.pat.length ∧ field (readValue .wstat s) 31 25 = 0 ∧
    readValue .wcount s = s.window.count ∧
    readValue .id s = 0x505A5901#32 ∧
    (s.params.coutDepth < 2 ^ 32 → (readValue .coutDepth s).toNat = s.params.coutDepth) ∧
    (s.params.cinDepth < 2 ^ 32 → (readValue .cinDepth s).toNat = s.params.cinDepth) ∧
    (s.params.routDepth < 2 ^ 32 → (readValue .routDepth s).toNat = s.params.routDepth) ∧
    [Reg.err, .errcmd, .tokkind, .resa, .resb, .wstat, .wcount, .id, .coutDepth, .cinDepth,
      .routDepth].map Reg.offset =
      [0x08, 0x0C, 0x18, 0x1C, 0x20, 0x24, 0x28, 0x4C, 0x50, 0x54, 0x58] ∧
    (∀ r ∈ [Reg.err, .errcmd, .tokkind, .resa, .resb, .wstat, .wcount, .id, .coutDepth, .cinDepth,
      .routDepth], ∀ v, writeReg r v s = s)

/-- R72, R78: a read of a reserved offset or of a write-only register returns 0 and changes nothing but the
model's record of reads; a write of a reserved offset or a read-only register changes nothing; a read of COUT_DATA
or ROUT_DATA pops its FIFO when the FIFO is not empty, and no other read has a side effect. -/
def Obligations.ReservedAndReadOnlyAccesses : Prop :=
  (∀ (s : State) (off : Nat), s.params.blockBase % 256 = 0 → 0x5C ≤ off → off ≤ 0xFC → off % 4 = 0 →
    hostAccess (.read (s.params.blockBase + off) 4) s =
      .next { s with reads := s.reads ++ [⟨s.params.blockBase + off, 0⟩] } ∧
    (∀ v, hostAccess (.write (s.params.blockBase + off) 4 v) s = .next s)) ∧
  (∀ (s : State) (r : Reg), s.params.blockBase % 256 = 0 →
    ∃ t, hostAccess (.read (s.params.blockBase + r.offset) 4) s = .next t ∧
      t.reads = s.reads ++ [⟨s.params.blockBase + r.offset, readValue r s⟩] ∧
      { t with reads := s.reads } = readEffect r s ∧
      ((r = .cmd ∨ r = .cinData ∨ r = .cinEof ∨ r = .ctrl) → readValue r s = 0) ∧
      (r = .coutData → { t with reads := s.reads } = { s with cout := s.cout.tail }) ∧
      (r = .routData → { t with reads := s.reads } = { s with rout := s.rout.tail }) ∧
      (r ≠ .coutData → r ≠ .routData → { t with reads := s.reads } = s)) ∧
  (∀ (s : State) (r : Reg) (v : Word), s.params.blockBase % 256 = 0 →
    hostAccess (.write (s.params.blockBase + r.offset) 4 v) s = .next (writeReg r v s) ∧
      (r ≠ .cmd → r ≠ .cinData → r ≠ .cinEof → r ≠ .ctrl → writeReg r v s = s))

/-- R71: an access inside the window that is narrower or wider than 32 bits or misaligned has no step: it is
refused. -/
def Obligations.OddAccessIsRefused : Prop :=
  ∀ (s : State) (addr width : Nat) (v : Word), s.params.blockBase ≤ addr →
    addr < s.params.blockBase + 256 → (width ≠ 4 ∨ addr % 4 ≠ 0) →
    hostAccess (.read addr width) s = .refused (.unsupportedAccess addr width) ∧
    hostAccess (.write addr width v) s = .refused (.unsupportedAccess addr width)

/-! ### Control commands (spec/40_control.md) -/

/-- R130: NOP completes in every state and writes nothing but BUSY; every other word with opcode 0 is
ILLEGAL_CMD. -/
def Obligations.NopCompletes : Prop :=
  (∀ s : State, exec .nop s = .next { s with busy := false }) ∧
  decode 0x00000000#32 = .ok .nop ∧
  (∀ (w : Word) (s : State), field w 31 28 = 0 → w ≠ 0 →
    performWord w s = .next (s.takeFault .illegalCmd w))

/-- R131: CFG with legal widths completes and starts a session; an illegal width faults with BAD_CONFIG and
leaves the old session; a reserved bit is ILLEGAL_CMD. COUT, ROUT and the window RAM are kept. -/
def Obligations.CfgStartsSession : Prop :=
  (∀ (s : State) (off len : Nat), 1 ≤ off → off ≤ 15 → 1 ≤ len → len ≤ 8 →
    exec (.cfg off len) s = .next
      { params := s.params, cfgd := true
        ctx := { offb := BitVec.ofNat 4 off, lenb := BitVec.ofNat 4 len }
        wacc := [], wclosed := false, rbuf := [], rclosed := false, eof := false, eos := false
        cout := s.cout, cin := [], rout := s.rout
        window := { ram := s.window.ram, head := 0, fill := 0, count := 0 }
        pat := [], tokkind := .noToken, resa := 0, resb := 0, found := false
        fault := s.fault, errcode := s.errcode, errcmd := s.errcmd
        busy := false, lcmd := s.lcmd, turns := s.turns, reads := s.reads }) ∧
  (∀ (s : State) (off len : Nat), ¬ (1 ≤ off ∧ off ≤ 15 ∧ 1 ≤ len ∧ len ≤ 8) →
    exec (.cfg off len) s = .next (s.takeFault .badConfig s.lcmd)) ∧
  (∀ (w : Word) (s : State), field w 31 28 = 1 → field w 27 16 ≠ 0 →
    performWord w s = .next (s.takeFault .illegalCmd w))

/-- R22, R23: the derived quantities of the contexts the source names, with their token lengths, and the
bounds over the legal range. -/
def Obligations.DerivedContextQuantities : Prop :=
  (∀ c : Context, 1 ≤ c.offb.toNat → 1 ≤ c.lenb.toNat → c.lenb.toNat ≤ 8 →
    c.bep ≤ 2 ∧ 1 ≤ c.mins ∧ c.mins ≤ 3 ∧ c.maxs ≤ 258 ∧ c.ess = c.offb.toNat + c.lenb.toNat ∧
      c.wsize = 2 ^ c.offb.toNat ∧ c.bep = c.ess / 8 ∧ c.mins = c.bep + 1 ∧
      c.maxs = 2 ^ c.lenb.toNat - 1 + c.mins) ∧
  (∀ row ∈ [((⟨10, 4⟩ : Context), 14, 1024, 1, 2, 17), (⟨12, 4⟩, 16, 4096, 2, 3, 18),
      (⟨14, 5⟩, 19, 16384, 2, 3, 34), (⟨15, 5⟩, 20, 32768, 2, 3, 34), (⟨4, 3⟩, 7, 16, 0, 1, 8)],
    row.1.ess = row.2.1 ∧ row.1.wsize = row.2.2.1 ∧ row.1.bep = row.2.2.2.1 ∧
      row.1.mins = row.2.2.2.2.1 ∧ row.1.maxs = row.2.2.2.2.2 ∧
      (∀ b, (tokenBits row.1 (.lit b)).length = 9) ∧
      (∀ d l, (tokenBits row.1 (.ref d l)).length = 1 + row.2.1))

/-! ### Bit stream codec (spec/41_bitcodec.md) -/

/-- R140: `put(v, n)` adds the n bits of v to the stream, pushes every completed byte and changes nothing else.
The bit order is that of R9 and R74: bit k of `bits_n(v)` is bit n - 1 - k of v, and a byte of the stream holds
its bits most significant first. -/
def Obligations.PutAppendsBits : Prop :=
  (∀ (s : State) (v n : Nat), s.wacc.length ≤ 7 → v < 2 ^ n →
    ∃ acc pushed, s.put v n = { s with wacc := acc, cout := s.cout ++ pushed } ∧
      streamBits pushed ++ acc = s.wacc ++ bitsOf n v ∧ val (bitsOf n v) = v ∧
      acc.length = (s.wacc.length + n) % 8 ∧ pushed.length = (s.wacc.length + n) / 8) ∧
  (∀ n v k : Nat, (bitsOf n v).length = n ∧
    (k < n → (bitsOf n v)[k]? = some (v.testBit (n - 1 - k)))) ∧
  (∀ (bs : List Byte) (b : Byte) (j k : Nat), bs[j]? = some b → k < 8 →
    (streamBits bs)[8 * j + k]? = some (b.getLsbD (7 - k)))

/-- R141: WLIT appends the 9 bits of a literal token to the stream; it faults or waits as its rule says. -/
def Obligations.WlitWritesLiteral : Prop :=
  ∀ (s : State) (b : Byte), s.wacc.length ≤ 7 →
    (s.cfgd = true → s.wclosed = false →
      (s.wacc.length + 9) / 8 ≤ s.params.coutDepth - s.cout.length →
      ∃ acc pushed,
        exec (.wlit b) s = .next { s with wacc := acc, cout := s.cout ++ pushed, busy := false } ∧
        streamBits pushed ++ acc = s.wacc ++ (false :: bitsOf 8 b.toNat) ∧ acc.length ≤ 7 ∧
        pushed.length = (s.wacc.length + 9) / 8) ∧
    (s.cfgd = false → exec (.wlit b) s = .next (s.takeFault .notConfigured s.lcmd)) ∧
    (s.cfgd = true → s.wclosed = true →
      exec (.wlit b) s = .next (s.takeFault .writerClosed s.lcmd)) ∧
    (s.cfgd = true → s.wclosed = false →
      s.params.coutDepth - s.cout.length < (s.wacc.length + 9) / 8 → exec (.wlit b) s = .next s)

/-- R142: WREF appends the `1 + ESS` bits of a reference token, distance then `length - MINS`; out of range it
faults with BAD_TOKEN and nothing is written. -/
def Obligations.WrefWritesReference : Prop :=
  ∀ (s : State) (d l : Nat), s.wacc.length ≤ 7 →
    (s.cfgd = true → s.wclosed = false → d < s.ctx.wsize → s.ctx.mins ≤ l → l ≤ s.ctx.maxs →
      (s.wacc.length + 1 + s.ctx.ess) / 8 ≤ s.params.coutDepth - s.cout.length →
      ∃ acc pushed,
        exec (.wref d l) s = .next { s with wacc := acc, cout := s.cout ++ pushed, busy := false } ∧
        streamBits pushed ++ acc = s.wacc ++
          (true :: (bitsOf s.ctx.offb.toNat d ++ bitsOf s.ctx.lenb.toNat (l - s.ctx.mins))) ∧
        acc.length ≤ 7 ∧ pushed.length = (s.wacc.length + 1 + s.ctx.ess) / 8 ∧
        val (bitsOf s.ctx.offb.toNat d) = d ∧
        val (bitsOf s.ctx.lenb.toNat (l - s.ctx.mins)) + s.ctx.mins = l) ∧
    (s.cfgd = false → exec (.wref d l) s = .next (s.takeFault .notConfigured s.lcmd)) ∧
    (s.cfgd = true → s.wclosed = true →
      exec (.wref d l) s = .next (s.takeFault .writerClosed s.lcmd)) ∧
    (s.cfgd = true → s.wclosed = false → (s.ctx.wsize ≤ d ∨ l < s.ctx.mins ∨ s.ctx.maxs < l) →
      exec (.wref d l) s = .next (s.takeFault .badToken s.lcmd)) ∧
    (s.cfgd = true → s.wclosed = false → d < s.ctx.wsize → s.ctx.mins ≤ l → l ≤ s.ctx.maxs →
      s.params.coutDepth - s.cout.length < (s.wacc.length + 1 + s.ctx.ess) / 8 →
      exec (.wref d l) s = .next s)

/-- R143: WCLOSE pads a partial byte with zero bits and pushes it, pushes nothing when WACC is empty, and
closes the writer; it does not touch PAT. -/
def Obligations.WcloseCloses : Prop :=
  ∀ s : State, s.wacc.length ≤ 7 →
    (s.cfgd = true → s.wclosed = false → s.wacc = [] →
      exec .wclose s = .next { s with wclosed := true, busy := false }) ∧
    (s.cfgd = true → s.wclosed = false → s.wacc ≠ [] → s.cout.length < s.params.coutDepth →
      ∃ b : Byte,
        exec .wclose s = .next
          { s with wacc := [], cout := s.cout ++ [b], wclosed := true, busy := false } ∧
        byteBits b = s.wacc ++ List.replicate (8 - s.wacc.length) false) ∧
    (s.cfgd = false → exec .wclose s = .next (s.takeFault .notConfigured s.lcmd)) ∧
    (s.cfgd = true → s.wclosed = true →
      exec .wclose s = .next (s.takeFault .writerClosed s.lcmd)) ∧
    (s.cfgd = true → s.wclosed = false → s.wacc ≠ [] → s.params.coutDepth ≤ s.cout.length →
      exec .wclose s = .next s)

/-- R150: `peek` classifies the unread bits, and never turns from a token or end of stream into another answer when
more bytes arrive or EOF is set. An end of stream is answered with EOF = 1 only, after which no byte arrives: no
host access but a reset changes the answer. -/
def Obligations.PeekClassifies : Prop :=
  (∀ (c : Context) (u : Bits),
    (u.length < 8 → allZero u = true → peek c u true = .eos) ∧
    (u = [] → peek c u false = .needMore) ∧
    (u.head? = some false → u.length < 9 → peek c u false = .needMore ∧
      (¬ (u.length < 8 ∧ allZero u = true) → peek c u true = .trunc)) ∧
    (u.head? = some true → u.length < 1 + c.ess → peek c u false = .needMore ∧
      peek c u true = .trunc) ∧
    (∀ eof, u.head? = some false → 9 ≤ u.length →
      peek c u eof = .token (.lit (BitVec.ofNat 8 (val ((u.drop 1).take 8)))) 9) ∧
    (∀ eof, u.head? = some true → 1 + c.ess ≤ u.length →
      peek c u eof = .token
        (.ref (val ((u.drop 1).take c.offb.toNat))
          (val ((u.drop (1 + c.offb.toNat)).take c.lenb.toNat) + c.mins)) (1 + c.ess)) ∧
    (∀ (more : Bits) (eof : Bool) (t : Token) (k : Nat), peek c u false = .token t k →
      peek c (u ++ more) eof = .token t k)) ∧
  (∀ (c : Context) (u : Bits) (eof : Bool), peek c u eof = .eos → eof = true) ∧
  (∀ (s t : State) (a : HostAccess), s.peek = .eos → hostAccess a s = .next t →
    (Turn.access a).resets s.params = false → t.peek = .eos)

/-- R29: after k of the unread bits are consumed, exactly the CIN bytes that hold any of them are popped, RBUF
holds the rest of the last byte popped, and the unread bits are the others, in order. -/
def Obligations.ConsumePullsOnDemand : Prop :=
  ∀ (s : State) (k : Nat), s.rbuf.length ≤ 7 → k ≤ s.unread.length →
    ∃ p, p = (k - s.rbuf.length + 7) / 8 ∧ p ≤ s.cin.length ∧
      s.consume k = { s with rbuf := (s.consume k).rbuf, cin := s.cin.drop p } ∧
      (s.consume k).rbuf.length = s.rbuf.length + 8 * p - k ∧ (s.consume k).rbuf.length ≤ 7 ∧
      (s.consume k).rbuf <:+ s.rbuf ++ streamBits (s.cin.take p) ∧
      (s.consume k).unread = s.unread.drop k

/-- R153: RTOK answers the next token or end of stream in TOKKIND, RESA, RESB and EOS and consumes exactly the
token's bits; it faults TRUNCATED or waits as its rule says. -/
def Obligations.RtokReadsToken : Prop :=
  (∀ s : State, s.cfgd = false → exec .rtok s = .next (s.takeFault .notConfigured s.lcmd)) ∧
  (∀ s : State, s.cfgd = true → s.rclosed = true →
    exec .rtok s = .next (s.takeFault .readerClosed s.lcmd)) ∧
  ∀ s : State, s.cfgd = true → s.rclosed = false → s.rbuf.length ≤ 7 →
    (∀ (b : Byte) (k : Nat), s.peek = .token (.lit b) k →
      ∃ r c, exec .rtok s = .next
          { s with rbuf := r, cin := c, eos := false, tokkind := .literal
                   resa := BitVec.ofNat 32 b.toNat, resb := 0, busy := false } ∧
        r ++ streamBits c = s.unread.drop 9 ∧ r.length ≤ 7) ∧
    (∀ d l k : Nat, s.peek = .token (.ref d l) k →
      ∃ r c, exec .rtok s = .next
          { s with rbuf := r, cin := c, eos := false, tokkind := .reference
                   resa := BitVec.ofNat 32 d, resb := BitVec.ofNat 32 l, busy := false } ∧
        r ++ streamBits c = s.unread.drop (1 + s.ctx.ess) ∧ r.length ≤ 7) ∧
    (s.peek = .eos → exec .rtok s = .next
      { s with eos := true, tokkind := .endOfStream, resa := 0, resb := 0, busy := false }) ∧
    (s.peek = .trunc → exec .rtok s = .next (s.takeFault .truncated s.lcmd)) ∧
    (s.peek = .needMore → exec .rtok s = .next s)

/-- R155: RCLOSE closes the reader when every unread bit is 0, in RBUF and in CIN, and otherwise faults with
UNREAD_DATA. -/
def Obligations.RcloseCloses : Prop :=
  ∀ s : State,
    (s.cfgd = true → s.rclosed = false → (∀ b ∈ s.rbuf ++ streamBits s.cin, b = false) →
      exec .rclose s = .next { s with rbuf := [], cin := [], rclosed := true, busy := false }) ∧
    (s.cfgd = false → exec .rclose s = .next (s.takeFault .notConfigured s.lcmd)) ∧
    (s.cfgd = true → s.rclosed = true →
      exec .rclose s = .next (s.takeFault .readerClosed s.lcmd)) ∧
    (s.cfgd = true → s.rclosed = false → (∃ b ∈ s.rbuf ++ streamBits s.cin, b = true) →
      exec .rclose s = .next (s.takeFault .unreadData s.lcmd))

/-- R157: no writer command changes the reader, and no reader command changes the writer. -/
def Obligations.WriterAndReaderIndependent : Prop :=
  ∀ (i : Instr) (s t : State), exec i s = .next t →
    ((i = .wclose ∨ (∃ b, i = .wlit b) ∨ ∃ d l, i = .wref d l) →
      t.rbuf = s.rbuf ∧ t.cin = s.cin ∧ t.eof = s.eof ∧ t.eos = s.eos ∧ t.rclosed = s.rclosed) ∧
    ((i = .rtok ∨ i = .rclose) → t.wacc = s.wacc ∧ t.cout = s.cout ∧ t.wclosed = s.wclosed)

/-! ### Window and match engine (spec/42_window.md) -/

/-- R170, R171: WEXT appends one byte to the window, evicting the oldest when it is full; the RAM view and the
sequence view agree, and exactly one RAM byte is written. -/
def Obligations.WextAppends : Prop :=
  (∀ (s : State) (b : Byte), s.cfgd = false →
    exec (.wext b) s = .next (s.takeFault .notConfigured s.lcmd)) ∧
  ∀ (s : State) (b : Byte), s.Inv → s.cfgd = true →
    ∃ w, exec (.wext b) s = .next { s with window := w, busy := false } ∧
      w.fill.toNat = min (s.window.fill.toNat + 1) s.ctx.wsize ∧
      w.head.toNat = (if s.window.fill.toNat < s.ctx.wsize then s.window.head.toNat
        else (s.window.head.toNat + 1) % s.ctx.wsize) ∧
      w.bytes s.ctx.wsize =
        (if s.win.length < s.ctx.wsize then s.win ++ [b] else (s.win ++ [b]).drop 1) ∧
      w.count = s.window.count + 1 ∧
      w.base = (if s.win.length < s.ctx.wsize then 0 else s.window.base + 1) ∧
      (∀ a, w.ram.read a =
        if a = (if s.window.fill.toNat < s.ctx.wsize
          then (s.window.head.toNat + s.window.fill.toNat) % s.ctx.wsize
          else s.window.head.toNat) then b else s.window.ram.read a)

/-- R176, R177: PCLR empties the pattern buffer, PPUSH appends a byte to it, and PPUSH faults with
PATTERN_FULL when it holds 258. -/
def Obligations.PatternBufferCommands : Prop :=
  (∀ (s : State) (b : Byte), s.cfgd = false →
    exec .pclr s = .next (s.takeFault .notConfigured s.lcmd) ∧
    exec (.ppush b) s = .next (s.takeFault .notConfigured s.lcmd)) ∧
  ∀ (s : State) (b : Byte), s.cfgd = true →
    exec .pclr s = .next { s with pat := [], busy := false } ∧
    (s.pat.length ≠ 258 → exec (.ppush b) s = .next { s with pat := s.pat ++ [b], busy := false }) ∧
    (s.pat.length = 258 → exec (.ppush b) s = .next (s.takeFault .patternFull s.lcmd))

/-- R173: WFIND answers the result of `find` on PAT in FOUND and RESA and writes nothing else; an empty
pattern and one longer than the window are not found. -/
def Obligations.WfindAnswers : Prop :=
  (∀ s : State, s.cfgd = false → exec .wfind s = .next (s.takeFault .notConfigured s.lcmd)) ∧
  ∀ s : State, s.cfgd = true →
    (s.find s.pat = none →
      exec .wfind s = .next { s with found := false, resa := 0xFFFFFFFF#32, busy := false }) ∧
    (∀ p, s.find s.pat = some p →
      exec .wfind s = .next { s with found := true, resa := p, busy := false }) ∧
    (s.pat = [] → s.find s.pat = none) ∧
    (s.win.length < s.pat.length → s.find s.pat = none)

/-- R172: `find` is the single left-to-right scan whose cursor is zeroed at a mismatch: where the bytes before
index k of the window ended with the cursor at `cur`, the byte at k moves it on, completes the match, or
zeroes it. -/
def Obligations.FindScansOnce : Prop :=
  (∀ (n : Nat) (w : Window), w.find n [] = none) ∧
  (∀ (p rest : List Byte) (b : Byte) (cur k : Nat), cur < p.length →
    scan p [] cur k = none ∧
    (p[cur]? = some b → cur + 1 = p.length → scan p (b :: rest) cur k = some k) ∧
    (p[cur]? = some b → cur + 1 ≠ p.length →
      scan p (b :: rest) cur k = scan p rest (cur + 1) (k + 1)) ∧
    (p[cur]? ≠ some b → scan p (b :: rest) cur k = scan p rest 0 (k + 1))) ∧
  (∀ (n : Nat) (p : List Byte) (w : Window) (k : Nat), p ≠ [] → scan p (w.bytes n) 0 0 = some k →
    w.find n p = some (w.base + BitVec.ofNat 32 k + 1 - BitVec.ofNat 32 p.length)) ∧
  (∀ (n : Nat) (p : List Byte) (w : Window), p ≠ [] → scan p (w.bytes n) 0 0 = none →
    w.find n p = none)

/-- R174: a hit of `find` is an occurrence at the position it names; it can miss occurrences; it depends on
the window's bytes and its base only. -/
def Obligations.FindIsSoundNotComplete : Prop :=
  (∀ (n : Nat) (p : List Byte) (w : Window) (f : Word), w.find n p = some f →
    ∃ j, f = w.base + BitVec.ofNat 32 j ∧ j + p.length ≤ (w.bytes n).length ∧
      ((w.bytes n).drop j).take p.length = p) ∧
  (∀ (n : Nat) (w : Window), w.bytes n = [0x61#8, 0x61#8, 0x62#8] →
    w.find n [0x61#8, 0x62#8] = none) ∧
  (∀ (n : Nat) (w : Window), w.bytes n = [0x61#8, 0x61#8, 0x62#8, 0x61#8, 0x62#8] → w.base = 0 →
    w.find n [0x61#8, 0x62#8] = some 3) ∧
  (∀ (n : Nat) (w : Window), w.bytes n = [0x61#8, 0x61#8, 0x61#8, 0x62#8] →
    w.find n [0x61#8, 0x61#8, 0x62#8] = none) ∧
  (∀ (n m : Nat) (p : List Byte) (v w : Window), v.bytes n = w.bytes m → v.base = w.base →
    v.find n p = w.find m p)

/-! ### Engines (spec/43_engines.md) -/

/-- R190 step 2a: when pending with b is found, b is not the last byte, pending is shorter than MAXS and
pending with the next byte is found too, CSTEP carries pending on, emits nothing and appends b. -/
def Obligations.CstepCarries : Prop :=
  ∀ (s : State) (b n : Byte) (last : Bool), s.Inv → s.cfgd = true → s.wclosed = false →
    s.pat.length ≠ 258 → last = false → s.pat.length + 1 < s.ctx.maxs →
    s.find (s.pat ++ [b]) ≠ none → s.find (s.pat ++ [b] ++ [n]) ≠ none →
    ∃ w, exec (.cstep b n last) s =
        .next { s with pat := s.pat ++ [b], window := w, busy := false } ∧
      w.bytes s.ctx.wsize =
        (if s.win.length < s.ctx.wsize then s.win ++ [b] else (s.win ++ [b]).drop 1) ∧
      w.count = s.window.count + 1

/-- R190 step 2b, R192 case A: pending that is found, is not carried on and has length at least 2 and MINS is
emitted as one reference whose distance is that of R191; while COUT lacks room the command waits. -/
def Obligations.CstepEmitsReference : Prop :=
  ∀ (s : State) (b n : Byte) (last : Bool) (f : Word) (L d : Nat), s.Inv → s.cfgd = true →
    s.wclosed = false → L = s.pat.length + 1 → L ≤ s.ctx.maxs → s.find (s.pat ++ [b]) = some f →
    (last = true ∨ L = s.ctx.maxs ∨ s.find (s.pat ++ [b] ++ [n]) = none) →
    2 ≤ L → s.ctx.mins ≤ L → s.pat.length ≠ 258 →
    d = (s.window.count - f - BitVec.ofNat 32 L + 1).toNat →
    ((s.wacc.length + 1 + s.ctx.ess) / 8 ≤ s.params.coutDepth - s.cout.length →
      ∃ acc pushed w, exec (.cstep b n last) s =
          .next { s with wacc := acc, cout := s.cout ++ pushed, pat := [], window := w, busy := false } ∧
        streamBits pushed ++ acc = s.wacc ++ tokenBits s.ctx (.ref d L) ∧ acc.length ≤ 7 ∧
        w.bytes s.ctx.wsize =
          (if s.win.length < s.ctx.wsize then s.win ++ [b] else (s.win ++ [b]).drop 1) ∧
        w.count = s.window.count + 1) ∧
    (s.params.coutDepth - s.cout.length < (s.wacc.length + 1 + s.ctx.ess) / 8 →
      exec (.cstep b n last) s = .next s)

/-- R192 cases A', B and C: pending that is not found, or is shorter than 2 or than MINS, and is not carried
on, is emitted as literals, every byte of it in order; while COUT lacks room the command waits. -/
def Obligations.CstepEmitsLiterals : Prop :=
  ∀ (s : State) (b n : Byte) (last : Bool), s.Inv → s.cfgd = true → s.wclosed = false →
    s.pat.length ≠ 258 →
    (s.find (s.pat ++ [b]) = none ∨ s.pat.length + 1 < 2 ∨ s.pat.length + 1 < s.ctx.mins) →
    (last = true ∨ s.find (s.pat ++ [b]) = none ∨ s.ctx.maxs ≤ s.pat.length + 1 ∨
      s.find (s.pat ++ [b] ++ [n]) = none) →
    ((s.wacc.length + 9 * (s.pat.length + 1)) / 8 ≤ s.params.coutDepth - s.cout.length →
      ∃ acc pushed w, exec (.cstep b n last) s =
          .next { s with wacc := acc, cout := s.cout ++ pushed, pat := [], window := w, busy := false } ∧
        streamBits pushed ++ acc =
          s.wacc ++ (s.pat ++ [b]).flatMap (fun c => false :: bitsOf 8 c.toNat) ∧ acc.length ≤ 7 ∧
        w.bytes s.ctx.wsize =
          (if s.win.length < s.ctx.wsize then s.win ++ [b] else (s.win ++ [b]).drop 1) ∧
        w.count = s.window.count + 1) ∧
    (s.params.coutDepth - s.cout.length < (s.wacc.length + 9 * (s.pat.length + 1)) / 8 →
      exec (.cstep b n last) s = .next s)

/-- R194: the distance of a reference CSTEP emits lies in 1 to WSIZE - L + 1, and BAD_TOKEN is never raised
for pending shorter than MAXS; pending longer than MAXS that is found (host PPUSHes only) faults with
BAD_TOKEN. -/
def Obligations.CstepReferenceBounds : Prop :=
  (∀ (s : State) (p : List Byte) (f : Word) (d : Nat), s.Inv → s.find p = some f → 2 ≤ p.length →
    d = (s.window.count - f - BitVec.ofNat 32 p.length + 1).toNat →
    1 ≤ d ∧ d ≤ s.ctx.wsize - p.length + 1 ∧ s.ctx.wsize - p.length + 1 ≤ s.ctx.wsize - 1) ∧
  (∀ (s : State) (b n : Byte) (last : Bool), s.Inv → s.pat.length < s.ctx.maxs →
    attempt (.cstep b n last) s ≠ .fault .badToken) ∧
  (∀ (s : State) (b n : Byte) (last : Bool), s.Inv → s.cfgd = true → s.wclosed = false →
    s.pat.length ≠ 258 → s.ctx.maxs ≤ s.pat.length → s.find (s.pat ++ [b]) ≠ none →
    exec (.cstep b n last) s = .next (s.takeFault .badToken s.lcmd))

/-- R191, R174: the bytes a reference of CSTEP stands for are the pending bytes: each is the window byte
`d` back from its own place. -/
def Obligations.CstepReferenceReplacesPending : Prop :=
  ∀ (s : State) (p : List Byte) (f : Word) (d : Nat), s.Inv → s.find p = some f → 2 ≤ p.length →
    d = (s.window.count - f - BitVec.ofNat 32 p.length + 1).toNat →
    ∀ j, j < p.length → p[j]? = s.win[s.win.length + 1 - p.length + j - d]?

/-- R193, R196: CSTEP leaves at most MAXS - 1 pending bytes, and none after the last byte. -/
def Obligations.PendingStaysBelowMaxs : Prop :=
  ∀ (s t : State) (b n : Byte) (last : Bool), exec (.cstep b n last) s = .next t →
    (s.pat.length < s.ctx.maxs → t.pat.length < s.ctx.maxs) ∧
    (attempt (.cstep b n last) s ≠ .hold .output → t.fault = false → last = true → t.pat = [])

/-- R197: DSTEP produces one token's bytes. A literal is pushed to ROUT and appended to the window; a reference
is replayed byte by byte, each byte the one `d` back in the history, its own output included; end of stream
produces nothing; a distance of 0 or beyond the window faults at once, and a usable token waits for ROUT space. -/
def Obligations.DstepReplaysToken : Prop :=
  (∀ s : State, s.cfgd = false → exec .dstep s = .next (s.takeFault .notConfigured s.lcmd)) ∧
  (∀ s : State, s.cfgd = true → s.rclosed = true →
    exec .dstep s = .next (s.takeFault .readerClosed s.lcmd)) ∧
  ∀ s : State, s.Inv → s.cfgd = true → s.rclosed = false →
    (∀ (b : Byte) (k : Nat), s.peek = .token (.lit b) k → s.rout.length < s.params.routDepth →
      ∃ r c w, exec .dstep s = .next
          { s with rbuf := r, cin := c, rout := s.rout ++ [b], window := w, eos := false
                   tokkind := .literal, resa := BitVec.ofNat 32 b.toNat, resb := 0, busy := false } ∧
        r ++ streamBits c = s.unread.drop 9 ∧
        w.bytes s.ctx.wsize = (s.win ++ [b]).drop (s.win.length + 1 - s.ctx.wsize) ∧
        w.count = s.window.count + 1) ∧
    (∀ d l k : Nat, s.peek = .token (.ref d l) k → 1 ≤ d → d ≤ s.win.length →
      l ≤ s.params.routDepth - s.rout.length →
      ∃ r c w out, exec .dstep s = .next
          { s with rbuf := r, cin := c, rout := s.rout ++ out, window := w, eos := false
                   tokkind := .reference, resa := BitVec.ofNat 32 d, resb := BitVec.ofNat 32 l
                   busy := false } ∧
        r ++ streamBits c = s.unread.drop (1 + s.ctx.ess) ∧
        out.length = l ∧ (∀ j, j < l → out[j]? = (s.win ++ out)[s.win.length + j - d]?) ∧
        w.bytes s.ctx.wsize = (s.win ++ out).drop (s.win.length + l - s.ctx.wsize) ∧
        w.count = s.window.count + BitVec.ofNat 32 l) ∧
    (s.peek = .eos → exec .dstep s = .next
      { s with eos := true, tokkind := .endOfStream, resa := 0, resb := 0, busy := false }) ∧
    (s.peek = .needMore → exec .dstep s = .next s) ∧
    (s.peek = .trunc → exec .dstep s = .next (s.takeFault .truncated s.lcmd)) ∧
    (∀ d l k : Nat, s.peek = .token (.ref d l) k → (d = 0 ∨ s.win.length < d) →
      exec .dstep s = .next (s.takeFault .badReference s.lcmd)) ∧
    (∀ (t : Token) (k : Nat), s.peek = .token t k → (∀ d l, t = .ref d l → 1 ≤ d ∧ d ≤ s.win.length) →
      s.params.routDepth - s.rout.length < tokenYield t → exec .dstep s = .next s)

/-- R201: a copy with distance shorter than its length replays its own output: the bytes produced repeat the
last `d` bytes of the window. -/
def Obligations.OverlappingCopyRepeats : Prop :=
  ∀ (s : State) (d l j : Nat), s.Inv → 1 ≤ d → d ≤ s.win.length → j < l →
    (s.window.copy s.ctx.wsize d l).2[j]? = s.win[s.win.length - d + j % d]?

/-- R200: compressing any bytes in one session and decompressing the stream in another with the same context
gives the bytes back, with no fault, whatever an earlier session left in COUT and ROUT. The host's loops are those
of R196, R199, R213 and R274 (log 17, log 24). -/
def Obligations.RoundTrip : Prop :=
  ∀ (s : State) (off len : Nat) (input : List Byte), s.Inv → s.busy = false → s.fault = false →
    1 ≤ off → off ≤ 15 → 1 ≤ len → len ≤ 8 →
    ∃ stream t u, compressStream off len input s = some (stream, t) ∧
      decompressStream off len stream t = some (input, u)

/-! ### Holds (spec/20_memory.md R79) -/

/-- R79: only the commands R79 names are ever held, and every hold can be lifted: with the output FIFOs
emptied, and with 24 unread bits or EOF, no command waits. -/
def Obligations.EveryHoldIsLiftable : Prop :=
  (∀ (i : Instr) (s : State), attempt i s = .hold .input → i = .rtok ∨ i = .dstep) ∧
  (∀ (i : Instr) (s : State), attempt i s = .hold .output →
    i.opcode = 0x2 ∨ i.opcode = 0x3 ∨ i.opcode = 0x4 ∨ i.opcode = 0xB ∨ i = .dstep) ∧
  (∀ (i : Instr) (s : State), s.Inv → s.cout = [] → s.rout = [] →
    attempt i s ≠ .hold .output) ∧
  (∀ (i : Instr) (s : State), s.Inv → (24 ≤ s.unread.length ∨ s.eof = true) →
    attempt i s ≠ .hold .input)

/-- R47, R79: HOLD_IN and HOLD_OUT tell what the latched command waits for: HOLD_IN exactly when it is an
RTOK or DSTEP whose next token cannot yet be told; never both. -/
def Obligations.HoldFlags : Prop :=
  ∀ s : State,
    (s.holdIn = true ↔ s.busy = true ∧ s.fault = false ∧ s.cfgd = true ∧ s.rclosed = false ∧
      s.peek = .needMore ∧ (decode s.lcmd = .ok .rtok ∨ decode s.lcmd = .ok .dstep)) ∧
    (s.holdOut = true ↔ s.busy = true ∧ s.fault = false ∧
      ∃ i, decode s.lcmd = .ok i ∧ attempt i s = .hold .output) ∧
    ¬ (s.holdIn = true ∧ s.holdOut = true)

/-! ### What changes what, and frames -/

/-- R24, R42: only CFG and a reset write the context; only WEXT, CSTEP, DSTEP, CFG and a reset change the
window; a CFG with legal widths and a reset empty it, CFG without a write to the window RAM, and a CFG with an
illegal width leaves both as they are; no other host access touches either. -/
def Obligations.ContextAndWindowWriters : Prop :=
  (∀ (i : Instr) (s t : State), exec i s = .next t → (∀ o l, i ≠ .cfg o l) →
    t.cfgd = s.cfgd ∧ t.ctx = s.ctx ∧
      ((∀ b, i ≠ .wext b) → (∀ b n l, i ≠ .cstep b n l) → i ≠ .dstep → t.window = s.window)) ∧
  (∀ (o l : Nat) (s t : State), exec (.cfg o l) s = .next t →
    (1 ≤ o ∧ o ≤ 15 ∧ 1 ≤ l ∧ l ≤ 8 → t.win = [] ∧ t.window.ram = s.window.ram) ∧
    (¬ (1 ≤ o ∧ o ≤ 15 ∧ 1 ≤ l ∧ l ≤ 8) →
      t.cfgd = s.cfgd ∧ t.ctx = s.ctx ∧ t.window = s.window)) ∧
  (∀ s : State, s.hardReset.cfgd = false ∧ s.hardReset.win = []) ∧
  (∀ (s t : State) (a : HostAccess) (ts : List Turn), s.turns = .access a :: ts → step s = .next t →
    (Turn.access a).resets s.params = false →
    t.cfgd = s.cfgd ∧ t.ctx = s.ctx ∧ t.window = s.window)

/-- R232, the frame of WLIT, WREF and WCLOSE: a next state is the fault entry, or differs from the state before
in nothing but WACC, COUT (which only grows), WCLOSED (WCLOSE only) and BUSY. Every byte of window RAM reads
as before. -/
def Obligations.WriterCommandsFrame : Prop :=
  ∀ (i : Instr) (s t : State), exec i s = .next t →
    (i = .wclose ∨ (∃ b, i = .wlit b) ∨ ∃ d l, i = .wref d l) →
    ((∃ c, t = s.takeFault c s.lcmd) ∨
      (t = { s with wacc := t.wacc, cout := t.cout, wclosed := t.wclosed, busy := t.busy } ∧
        (i ≠ .wclose → t.wclosed = s.wclosed) ∧ s.cout <+: t.cout)) ∧
    (∀ a, t.window.ram.read a = s.window.ram.read a)

/-- R232, the frame of RTOK and RCLOSE: a next state is the fault entry, or differs from the state before in
nothing but RBUF, CIN (from which bytes are only taken), BUSY and, for RTOK, EOS, TOKKIND, RESA and RESB, for
RCLOSE, RCLOSED. Every byte of window RAM reads as before. -/
def Obligations.ReaderCommandsFrame : Prop :=
  (∀ s t : State, exec .rtok s = .next t →
    ((∃ c, t = s.takeFault c s.lcmd) ∨
      (t = { s with rbuf := t.rbuf, cin := t.cin, eos := t.eos, tokkind := t.tokkind
                    resa := t.resa, resb := t.resb, busy := t.busy } ∧ t.cin <:+ s.cin)) ∧
    (∀ a, t.window.ram.read a = s.window.ram.read a)) ∧
  (∀ s t : State, exec .rclose s = .next t →
    ((∃ c, t = s.takeFault c s.lcmd) ∨
      t = { s with rbuf := t.rbuf, cin := t.cin, rclosed := t.rclosed, busy := t.busy }) ∧
    (∀ a, t.window.ram.read a = s.window.ram.read a))

/-- R232, the frame of NOP, CFG, WEXT, PCLR, PPUSH and WFIND: a next state is the fault entry, or differs from
the state before in nothing but what is named here. CFG writes every element of the session and leaves COUT,
ROUT, LCMD and the fault registers. Only WEXT changes window RAM. -/
def Obligations.ControlAndWindowCommandsFrame : Prop :=
  (∀ s t : State, exec .nop s = .next t → t = { s with busy := t.busy }) ∧
  (∀ (o l : Nat) (s t : State), exec (.cfg o l) s = .next t →
    (t = s.takeFault .badConfig s.lcmd ∨
      (t.params = s.params ∧ t.cout = s.cout ∧ t.rout = s.rout ∧ t.lcmd = s.lcmd ∧
        t.fault = s.fault ∧ t.errcode = s.errcode ∧ t.errcmd = s.errcmd ∧ t.turns = s.turns ∧
        t.reads = s.reads)) ∧
    (∀ a, t.window.ram.read a = s.window.ram.read a)) ∧
  (∀ (b : Byte) (s t : State), exec (.wext b) s = .next t →
    (∃ c, t = s.takeFault c s.lcmd) ∨ t = { s with window := t.window, busy := t.busy }) ∧
  (∀ (i : Instr) (s t : State), exec i s = .next t → (i = .pclr ∨ ∃ b, i = .ppush b) →
    (∃ c, t = s.takeFault c s.lcmd) ∨ t = { s with pat := t.pat, busy := t.busy }) ∧
  (∀ s t : State, exec .wfind s = .next t →
    (∃ c, t = s.takeFault c s.lcmd) ∨
      t = { s with found := t.found, resa := t.resa, busy := t.busy })

/-- R232, the frame of CSTEP and DSTEP: a next state is the fault entry, or differs from the state before in
nothing but PAT, WACC, COUT, the window and BUSY (CSTEP), or RBUF, CIN, ROUT, the window, EOS, TOKKIND, RESA,
RESB and BUSY (DSTEP). Which bytes of window RAM change is `RamStores`. -/
def Obligations.EngineCommandsFrame : Prop :=
  (∀ (b n : Byte) (l : Bool) (s t : State), exec (.cstep b n l) s = .next t →
    (∃ c, t = s.takeFault c s.lcmd) ∨
      (t = { s with pat := t.pat, wacc := t.wacc, cout := t.cout, window := t.window
                    busy := t.busy } ∧ s.cout <+: t.cout)) ∧
  (∀ s t : State, exec .dstep s = .next t →
    (∃ c, t = s.takeFault c s.lcmd) ∨
      (t = { s with rbuf := t.rbuf, cin := t.cin, rout := t.rout, window := t.window, eos := t.eos
                    tokkind := t.tokkind, resa := t.resa, resb := t.resb, busy := t.busy } ∧
        s.rout <+: t.rout ∧ t.cin <:+ s.cin))

/-- R80, R170: which bytes of window RAM an instruction stores to. WEXT and CSTEP store at most one byte, at
the slot after the newest byte (the oldest byte's, when the window is full); DSTEP stores at the slots after
the newest byte, one for each byte its token yields. Every other byte reads as before. -/
def Obligations.RamStores : Prop :=
  (∀ (i : Instr) (s t : State), s.Inv → exec i s = .next t →
    ((∃ b, i = .wext b) ∨ ∃ b n l, i = .cstep b n l) →
    ∀ a, a ≠ (s.window.head.toNat + s.window.fill.toNat) % s.ctx.wsize →
      t.window.ram.read a = s.window.ram.read a) ∧
  (∀ (s t : State) (tok : Token) (k : Nat), s.Inv → exec .dstep s = .next t →
    s.peek = .token tok k →
    ∀ a, (∀ j, j < tokenYield tok →
        a ≠ (s.window.head.toNat + s.window.fill.toNat + j) % s.ctx.wsize) →
      t.window.ram.read a = s.window.ram.read a) ∧
  (∀ s t : State, exec .dstep s = .next t → (∀ tok k, s.peek ≠ .token tok k) →
    t.window.ram = s.window.ram)

/-- R60, R80: window RAM outside the window is not observable. Two states that meet the invariant and differ
in nothing else take steps alike, with the same values read by the host; the model's value for an unwritten
byte (log 1) therefore shows nowhere. -/
def Obligations.UnusedRamIsUnobservable : Prop :=
  ∀ s t : State, s.Inv → t.Inv → s.sameButRam t → outcomeSameButRam (step s) (step t)

/-! ### Host-side collaborators (spec/44_host.md) -/

/-- R211, R212: a header record that is written and read gives back its four fields and the stream after it. -/
def Obligations.HeaderRoundTrip : Prop :=
  ∀ (h : Header) (stream : List Byte), spaceByte ∉ h.timestamp → newlineByte ∉ h.timestamp →
    newlineByte ∉ h.name → parseHeader (headerBytes h ++ stream) = some (h, stream)

/-- R212: when the host reports a decode failure, and which CFG it issues otherwise. A file with no newline, a
first line with fewer than three spaces or no final space, or a width that is empty or has a byte that is no
digit, does not parse. The CFG issued starts the session with the widths given when they are in the block's range,
and every other pair, however large, faults with BAD_CONFIG and decodes nothing. A width too large for its field
is issued as 255, which is the model's choice (log 21). -/
def Obligations.HeaderRead : Prop :=
  (∀ file : List Byte, newlineByte ∉ file → parseHeader file = none) ∧
  (∀ line stream : List Byte, newlineByte ∉ line →
    (line.count spaceByte < 3 ∨ line.getLast? ≠ some spaceByte) →
    parseHeader (line ++ newlineByte :: stream) = none) ∧
  (∀ o l rest stream w : List Byte, spaceByte ∉ o → spaceByte ∉ l → w = o ∨ w = l →
    newlineByte ∉ o ++ l ++ rest → (w = [] ∨ ∃ b ∈ w, b.toNat < 0x30 ∨ 0x39 < b.toNat) →
    parseHeader (o ++ spaceByte :: (l ++ spaceByte :: (rest ++ newlineByte :: stream))) = none) ∧
  (∀ (off len : Nat) (s : State), s.busy = false → s.fault = false →
    ∃ t, hostCommand (contextCommand off len) s = some t ∧
      (1 ≤ off ∧ off ≤ 15 ∧ 1 ≤ len ∧ len ≤ 8 →
        t.fault = false ∧ t.cfgd = true ∧ t.ctx.offb.toNat = off ∧ t.ctx.lenb.toNat = len) ∧
      (¬ (1 ≤ off ∧ off ≤ 15 ∧ 1 ≤ len ∧ len ≤ 8) →
        t.fault = true ∧ t.errcode = .badConfig ∧ t.cfgd = s.cfgd ∧ t.ctx = s.ctx ∧
          ∀ stream, decompressStream off len stream s = none))
end

