-- ==== Sys2Proof/Laws/Bits.lean ====
section
/-! SUPPORT. Small lemmas about bit sequences: lengths, and that `val` and `bitsOf` are inverse (R9). -/

namespace Sys2Proof.Machine

@[simp] theorem length_bitsOf (n v : Nat) : (bitsOf n v).length = n := by
  induction n with
  | zero => rfl
  | succ n ih => simp [bitsOf, ih]

@[simp] theorem length_byteBits (b : Byte) : (byteBits b).length = 8 := length_bitsOf 8 _

@[simp] theorem val_nil : val [] = 0 := rfl

theorem val_cons (b : Bool) (bs : Bits) : val (b :: bs) = b.toNat * 2 ^ bs.length + val bs := rfl

theorem val_lt (s : Bits) : val s < 2 ^ s.length := by
  induction s with
  | nil => simp
  | cons b s ih =>
    rw [val_cons, List.length_cons, pow_succ]
    cases b <;> simp <;> omega

theorem val_bitsOf (n v : Nat) : val (bitsOf n v) = v % 2 ^ n := by
  induction n with
  | zero => simp [bitsOf, Nat.mod_one]
  | succ n ih =>
    have hmod : v % 2 ^ (n + 1) = 2 ^ n * (v / 2 ^ n % 2) + v % 2 ^ n := by
      rw [pow_succ, Nat.mod_mul, Nat.add_comm]
    rw [bitsOf, val_cons, length_bitsOf, ih, hmod, Nat.mul_comm (2 ^ n)]
    rcases Nat.mod_two_eq_zero_or_one (v / 2 ^ n) with h | h <;> simp [h]

theorem bitsOf_add_mul (n k v : Nat) : bitsOf n (k * 2 ^ n + v) = bitsOf n v := by
  induction n generalizing k with
  | zero => rfl
  | succ n ih =>
    have hk : k * 2 ^ (n + 1) + v = (2 * k) * 2 ^ n + v := by rw [pow_succ]; ring
    rw [bitsOf, bitsOf, hk, ih (2 * k)]
    congr 2
    rw [Nat.mul_comm (2 * k), Nat.mul_add_div (Nat.two_pow_pos n)]
    simp [Nat.add_mod]

theorem bitsOf_val (s : Bits) : bitsOf s.length (val s) = s := by
  induction s with
  | nil => rfl
  | cons b s ih =>
    rw [List.length_cons, bitsOf, val_cons, bitsOf_add_mul, ih, Nat.mul_comm,
      Nat.mul_add_div (Nat.two_pow_pos _), Nat.div_eq_of_lt (val_lt s)]
    cases b <;> simp

@[simp] theorem byteOf_byteBits (b : Byte) : byteOf (byteBits b) = b := by
  apply BitVec.eq_of_toNat_eq
  rw [byteOf, byteBits, val_bitsOf, BitVec.toNat_ofNat]
  omega

theorem byteBits_byteOf (s : Bits) (h : s.length = 8) : byteBits (byteOf s) = s := by
  have hv : val s < 2 ^ 8 := h ▸ val_lt s
  rw [byteBits, byteOf, BitVec.toNat_ofNat, Nat.mod_eq_of_lt hv, ← h, bitsOf_val]

@[simp] theorem streamBits_nil : streamBits [] = [] := rfl

@[simp] theorem streamBits_cons (b : Byte) (bs : List Byte) :
    streamBits (b :: bs) = byteBits b ++ streamBits bs := by
  simp [streamBits]

@[simp] theorem streamBits_append (a b : List Byte) :
    streamBits (a ++ b) = streamBits a ++ streamBits b := by
  simp [streamBits]

@[simp] theorem length_streamBits (bs : List Byte) : (streamBits bs).length = 8 * bs.length := by
  induction bs with
  | nil => rfl
  | cons b bs ih => simp [ih]; omega

/-- A byte sequence is determined by its bits. -/
theorem streamBits_injective {a b : List Byte} (h : streamBits a = streamBits b) : a = b := by
  induction a generalizing b with
  | nil =>
    have := congrArg List.length h
    simp only [streamBits_nil, List.length_nil, length_streamBits] at this
    exact (List.length_eq_zero_iff.mp (by omega)).symm
  | cons x a ih =>
    cases b with
    | nil => have := congrArg List.length h; simp at this
    | cons y b =>
      rw [streamBits_cons, streamBits_cons] at h
      obtain ⟨h1, h2⟩ := List.append_inj h (by simp)
      rw [ih h2, ← byteOf_byteBits x, h1, byteOf_byteBits]

@[simp] theorem allZero_nil : allZero [] = true := rfl

@[simp] theorem allZero_cons (b : Bool) (s : Bits) : allZero (b :: s) = (!b && allZero s) := rfl

@[simp] theorem allZero_append (a b : Bits) : allZero (a ++ b) = (allZero a && allZero b) := by
  simp [allZero]

theorem allZero_replicate (n : Nat) : allZero (List.replicate n false) = true := by
  simp [allZero]

end Sys2Proof.Machine
end

