-- ==== Sys2Proof/Laws/State.lean ====
section
/-! SUPPORT. One lemma per field per update of `State`: what each named update leaves and what it writes. -/

namespace Sys2Proof.Machine

/-! ### `putBits` -/

@[simp] theorem State.putBits_params (bs : Bits) (s : State) : (s.putBits bs).params = s.params := rfl
@[simp] theorem State.putBits_cfgd (bs : Bits) (s : State) : (s.putBits bs).cfgd = s.cfgd := rfl
@[simp] theorem State.putBits_ctx (bs : Bits) (s : State) : (s.putBits bs).ctx = s.ctx := rfl
@[simp] theorem State.putBits_wacc (bs : Bits) (s : State) : (s.putBits bs).wacc = (pushBits s.wacc bs).1 := rfl
@[simp] theorem State.putBits_wclosed (bs : Bits) (s : State) : (s.putBits bs).wclosed = s.wclosed := rfl
@[simp] theorem State.putBits_rbuf (bs : Bits) (s : State) : (s.putBits bs).rbuf = s.rbuf := rfl
@[simp] theorem State.putBits_rclosed (bs : Bits) (s : State) : (s.putBits bs).rclosed = s.rclosed := rfl
@[simp] theorem State.putBits_eof (bs : Bits) (s : State) : (s.putBits bs).eof = s.eof := rfl
@[simp] theorem State.putBits_eos (bs : Bits) (s : State) : (s.putBits bs).eos = s.eos := rfl
@[simp] theorem State.putBits_cout (bs : Bits) (s : State) : (s.putBits bs).cout = s.cout ++ (pushBits s.wacc bs).2 := rfl
@[simp] theorem State.putBits_cin (bs : Bits) (s : State) : (s.putBits bs).cin = s.cin := rfl
@[simp] theorem State.putBits_rout (bs : Bits) (s : State) : (s.putBits bs).rout = s.rout := rfl
@[simp] theorem State.putBits_window (bs : Bits) (s : State) : (s.putBits bs).window = s.window := rfl
@[simp] theorem State.putBits_pat (bs : Bits) (s : State) : (s.putBits bs).pat = s.pat := rfl
@[simp] theorem State.putBits_tokkind (bs : Bits) (s : State) : (s.putBits bs).tokkind = s.tokkind := rfl
@[simp] theorem State.putBits_resa (bs : Bits) (s : State) : (s.putBits bs).resa = s.resa := rfl
@[simp] theorem State.putBits_resb (bs : Bits) (s : State) : (s.putBits bs).resb = s.resb := rfl
@[simp] theorem State.putBits_found (bs : Bits) (s : State) : (s.putBits bs).found = s.found := rfl
@[simp] theorem State.putBits_fault (bs : Bits) (s : State) : (s.putBits bs).fault = s.fault := rfl
@[simp] theorem State.putBits_errcode (bs : Bits) (s : State) : (s.putBits bs).errcode = s.errcode := rfl
@[simp] theorem State.putBits_errcmd (bs : Bits) (s : State) : (s.putBits bs).errcmd = s.errcmd := rfl
@[simp] theorem State.putBits_busy (bs : Bits) (s : State) : (s.putBits bs).busy = s.busy := rfl
@[simp] theorem State.putBits_lcmd (bs : Bits) (s : State) : (s.putBits bs).lcmd = s.lcmd := rfl
@[simp] theorem State.putBits_turns (bs : Bits) (s : State) : (s.putBits bs).turns = s.turns := rfl
@[simp] theorem State.putBits_reads (bs : Bits) (s : State) : (s.putBits bs).reads = s.reads := rfl

/-! ### `consume` -/

@[simp] theorem State.consume_params (k : Nat) (s : State) : (s.consume k).params = s.params := rfl
@[simp] theorem State.consume_cfgd (k : Nat) (s : State) : (s.consume k).cfgd = s.cfgd := rfl
@[simp] theorem State.consume_ctx (k : Nat) (s : State) : (s.consume k).ctx = s.ctx := rfl
@[simp] theorem State.consume_wacc (k : Nat) (s : State) : (s.consume k).wacc = s.wacc := rfl
@[simp] theorem State.consume_wclosed (k : Nat) (s : State) : (s.consume k).wclosed = s.wclosed := rfl
@[simp] theorem State.consume_rbuf (k : Nat) (s : State) : (s.consume k).rbuf = (s.rbuf ++ streamBits (s.cin.take (s.pullCount k))).drop k := rfl
@[simp] theorem State.consume_rclosed (k : Nat) (s : State) : (s.consume k).rclosed = s.rclosed := rfl
@[simp] theorem State.consume_eof (k : Nat) (s : State) : (s.consume k).eof = s.eof := rfl
@[simp] theorem State.consume_eos (k : Nat) (s : State) : (s.consume k).eos = s.eos := rfl
@[simp] theorem State.consume_cout (k : Nat) (s : State) : (s.consume k).cout = s.cout := rfl
@[simp] theorem State.consume_cin (k : Nat) (s : State) : (s.consume k).cin = s.cin.drop (s.pullCount k) := rfl
@[simp] theorem State.consume_rout (k : Nat) (s : State) : (s.consume k).rout = s.rout := rfl
@[simp] theorem State.consume_window (k : Nat) (s : State) : (s.consume k).window = s.window := rfl
@[simp] theorem State.consume_pat (k : Nat) (s : State) : (s.consume k).pat = s.pat := rfl
@[simp] theorem State.consume_tokkind (k : Nat) (s : State) : (s.consume k).tokkind = s.tokkind := rfl
@[simp] theorem State.consume_resa (k : Nat) (s : State) : (s.consume k).resa = s.resa := rfl
@[simp] theorem State.consume_resb (k : Nat) (s : State) : (s.consume k).resb = s.resb := rfl
@[simp] theorem State.consume_found (k : Nat) (s : State) : (s.consume k).found = s.found := rfl
@[simp] theorem State.consume_fault (k : Nat) (s : State) : (s.consume k).fault = s.fault := rfl
@[simp] theorem State.consume_errcode (k : Nat) (s : State) : (s.consume k).errcode = s.errcode := rfl
@[simp] theorem State.consume_errcmd (k : Nat) (s : State) : (s.consume k).errcmd = s.errcmd := rfl
@[simp] theorem State.consume_busy (k : Nat) (s : State) : (s.consume k).busy = s.busy := rfl
@[simp] theorem State.consume_lcmd (k : Nat) (s : State) : (s.consume k).lcmd = s.lcmd := rfl
@[simp] theorem State.consume_turns (k : Nat) (s : State) : (s.consume k).turns = s.turns := rfl
@[simp] theorem State.consume_reads (k : Nat) (s : State) : (s.consume k).reads = s.reads := rfl

/-! ### `setResult` -/

@[simp] theorem State.setResult_params (e : Bool) (k : TokKind) (a b : Word) (s : State) : (s.setResult e k a b).params = s.params := rfl
@[simp] theorem State.setResult_cfgd (e : Bool) (k : TokKind) (a b : Word) (s : State) : (s.setResult e k a b).cfgd = s.cfgd := rfl
@[simp] theorem State.setResult_ctx (e : Bool) (k : TokKind) (a b : Word) (s : State) : (s.setResult e k a b).ctx = s.ctx := rfl
@[simp] theorem State.setResult_wacc (e : Bool) (k : TokKind) (a b : Word) (s : State) : (s.setResult e k a b).wacc = s.wacc := rfl
@[simp] theorem State.setResult_wclosed (e : Bool) (k : TokKind) (a b : Word) (s : State) : (s.setResult e k a b).wclosed = s.wclosed := rfl
@[simp] theorem State.setResult_rbuf (e : Bool) (k : TokKind) (a b : Word) (s : State) : (s.setResult e k a b).rbuf = s.rbuf := rfl
@[simp] theorem State.setResult_rclosed (e : Bool) (k : TokKind) (a b : Word) (s : State) : (s.setResult e k a b).rclosed = s.rclosed := rfl
@[simp] theorem State.setResult_eof (e : Bool) (k : TokKind) (a b : Word) (s : State) : (s.setResult e k a b).eof = s.eof := rfl
@[simp] theorem State.setResult_eos (e : Bool) (k : TokKind) (a b : Word) (s : State) : (s.setResult e k a b).eos = e := rfl
@[simp] theorem State.setResult_cout (e : Bool) (k : TokKind) (a b : Word) (s : State) : (s.setResult e k a b).cout = s.cout := rfl
@[simp] theorem State.setResult_cin (e : Bool) (k : TokKind) (a b : Word) (s : State) : (s.setResult e k a b).cin = s.cin := rfl
@[simp] theorem State.setResult_rout (e : Bool) (k : TokKind) (a b : Word) (s : State) : (s.setResult e k a b).rout = s.rout := rfl
@[simp] theorem State.setResult_window (e : Bool) (k : TokKind) (a b : Word) (s : State) : (s.setResult e k a b).window = s.window := rfl
@[simp] theorem State.setResult_pat (e : Bool) (k : TokKind) (a b : Word) (s : State) : (s.setResult e k a b).pat = s.pat := rfl
@[simp] theorem State.setResult_tokkind (e : Bool) (k : TokKind) (a b : Word) (s : State) : (s.setResult e k a b).tokkind = k := rfl
@[simp] theorem State.setResult_resa (e : Bool) (k : TokKind) (a b : Word) (s : State) : (s.setResult e k a b).resa = a := rfl
@[simp] theorem State.setResult_resb (e : Bool) (k : TokKind) (a b : Word) (s : State) : (s.setResult e k a b).resb = b := rfl
@[simp] theorem State.setResult_found (e : Bool) (k : TokKind) (a b : Word) (s : State) : (s.setResult e k a b).found = s.found := rfl
@[simp] theorem State.setResult_fault (e : Bool) (k : TokKind) (a b : Word) (s : State) : (s.setResult e k a b).fault = s.fault := rfl
@[simp] theorem State.setResult_errcode (e : Bool) (k : TokKind) (a b : Word) (s : State) : (s.setResult e k a b).errcode = s.errcode := rfl
@[simp] theorem State.setResult_errcmd (e : Bool) (k : TokKind) (a b : Word) (s : State) : (s.setResult e k a b).errcmd = s.errcmd := rfl
@[simp] theorem State.setResult_busy (e : Bool) (k : TokKind) (a b : Word) (s : State) : (s.setResult e k a b).busy = s.busy := rfl
@[simp] theorem State.setResult_lcmd (e : Bool) (k : TokKind) (a b : Word) (s : State) : (s.setResult e k a b).lcmd = s.lcmd := rfl
@[simp] theorem State.setResult_turns (e : Bool) (k : TokKind) (a b : Word) (s : State) : (s.setResult e k a b).turns = s.turns := rfl
@[simp] theorem State.setResult_reads (e : Bool) (k : TokKind) (a b : Word) (s : State) : (s.setResult e k a b).reads = s.reads := rfl

/-! ### `answerEos` -/

@[simp] theorem State.answerEos_params (s : State) : (s.answerEos).params = s.params := rfl
@[simp] theorem State.answerEos_cfgd (s : State) : (s.answerEos).cfgd = s.cfgd := rfl
@[simp] theorem State.answerEos_ctx (s : State) : (s.answerEos).ctx = s.ctx := rfl
@[simp] theorem State.answerEos_wacc (s : State) : (s.answerEos).wacc = s.wacc := rfl
@[simp] theorem State.answerEos_wclosed (s : State) : (s.answerEos).wclosed = s.wclosed := rfl
@[simp] theorem State.answerEos_rbuf (s : State) : (s.answerEos).rbuf = s.rbuf := rfl
@[simp] theorem State.answerEos_rclosed (s : State) : (s.answerEos).rclosed = s.rclosed := rfl
@[simp] theorem State.answerEos_eof (s : State) : (s.answerEos).eof = s.eof := rfl
@[simp] theorem State.answerEos_eos (s : State) : (s.answerEos).eos = true := rfl
@[simp] theorem State.answerEos_cout (s : State) : (s.answerEos).cout = s.cout := rfl
@[simp] theorem State.answerEos_cin (s : State) : (s.answerEos).cin = s.cin := rfl
@[simp] theorem State.answerEos_rout (s : State) : (s.answerEos).rout = s.rout := rfl
@[simp] theorem State.answerEos_window (s : State) : (s.answerEos).window = s.window := rfl
@[simp] theorem State.answerEos_pat (s : State) : (s.answerEos).pat = s.pat := rfl
@[simp] theorem State.answerEos_tokkind (s : State) : (s.answerEos).tokkind = .endOfStream := rfl
@[simp] theorem State.answerEos_resa (s : State) : (s.answerEos).resa = 0 := rfl
@[simp] theorem State.answerEos_resb (s : State) : (s.answerEos).resb = 0 := rfl
@[simp] theorem State.answerEos_found (s : State) : (s.answerEos).found = s.found := rfl
@[simp] theorem State.answerEos_fault (s : State) : (s.answerEos).fault = s.fault := rfl
@[simp] theorem State.answerEos_errcode (s : State) : (s.answerEos).errcode = s.errcode := rfl
@[simp] theorem State.answerEos_errcmd (s : State) : (s.answerEos).errcmd = s.errcmd := rfl
@[simp] theorem State.answerEos_busy (s : State) : (s.answerEos).busy = s.busy := rfl
@[simp] theorem State.answerEos_lcmd (s : State) : (s.answerEos).lcmd = s.lcmd := rfl
@[simp] theorem State.answerEos_turns (s : State) : (s.answerEos).turns = s.turns := rfl
@[simp] theorem State.answerEos_reads (s : State) : (s.answerEos).reads = s.reads := rfl

/-! ### `answerToken` -/

@[simp] theorem State.answerToken_params (t : Token) (s : State) : (s.answerToken t).params = s.params := by cases t <;> rfl
@[simp] theorem State.answerToken_cfgd (t : Token) (s : State) : (s.answerToken t).cfgd = s.cfgd := by cases t <;> rfl
@[simp] theorem State.answerToken_ctx (t : Token) (s : State) : (s.answerToken t).ctx = s.ctx := by cases t <;> rfl
@[simp] theorem State.answerToken_wacc (t : Token) (s : State) : (s.answerToken t).wacc = s.wacc := by cases t <;> rfl
@[simp] theorem State.answerToken_wclosed (t : Token) (s : State) : (s.answerToken t).wclosed = s.wclosed := by cases t <;> rfl
@[simp] theorem State.answerToken_rbuf (t : Token) (s : State) : (s.answerToken t).rbuf = s.rbuf := by cases t <;> rfl
@[simp] theorem State.answerToken_rclosed (t : Token) (s : State) : (s.answerToken t).rclosed = s.rclosed := by cases t <;> rfl
@[simp] theorem State.answerToken_eof (t : Token) (s : State) : (s.answerToken t).eof = s.eof := by cases t <;> rfl
@[simp] theorem State.answerToken_eos (t : Token) (s : State) : (s.answerToken t).eos = false := by cases t <;> rfl
@[simp] theorem State.answerToken_cout (t : Token) (s : State) : (s.answerToken t).cout = s.cout := by cases t <;> rfl
@[simp] theorem State.answerToken_cin (t : Token) (s : State) : (s.answerToken t).cin = s.cin := by cases t <;> rfl
@[simp] theorem State.answerToken_rout (t : Token) (s : State) : (s.answerToken t).rout = s.rout := by cases t <;> rfl
@[simp] theorem State.answerToken_window (t : Token) (s : State) : (s.answerToken t).window = s.window := by cases t <;> rfl
@[simp] theorem State.answerToken_pat (t : Token) (s : State) : (s.answerToken t).pat = s.pat := by cases t <;> rfl
@[simp] theorem State.answerToken_found (t : Token) (s : State) : (s.answerToken t).found = s.found := by cases t <;> rfl
@[simp] theorem State.answerToken_fault (t : Token) (s : State) : (s.answerToken t).fault = s.fault := by cases t <;> rfl
@[simp] theorem State.answerToken_errcode (t : Token) (s : State) : (s.answerToken t).errcode = s.errcode := by cases t <;> rfl
@[simp] theorem State.answerToken_errcmd (t : Token) (s : State) : (s.answerToken t).errcmd = s.errcmd := by cases t <;> rfl
@[simp] theorem State.answerToken_busy (t : Token) (s : State) : (s.answerToken t).busy = s.busy := by cases t <;> rfl
@[simp] theorem State.answerToken_lcmd (t : Token) (s : State) : (s.answerToken t).lcmd = s.lcmd := by cases t <;> rfl
@[simp] theorem State.answerToken_turns (t : Token) (s : State) : (s.answerToken t).turns = s.turns := by cases t <;> rfl
@[simp] theorem State.answerToken_reads (t : Token) (s : State) : (s.answerToken t).reads = s.reads := by cases t <;> rfl

/-! ### `append` -/

@[simp] theorem State.append_params (b : Byte) (s : State) : (s.append b).params = s.params := rfl
@[simp] theorem State.append_cfgd (b : Byte) (s : State) : (s.append b).cfgd = s.cfgd := rfl
@[simp] theorem State.append_ctx (b : Byte) (s : State) : (s.append b).ctx = s.ctx := rfl
@[simp] theorem State.append_wacc (b : Byte) (s : State) : (s.append b).wacc = s.wacc := rfl
@[simp] theorem State.append_wclosed (b : Byte) (s : State) : (s.append b).wclosed = s.wclosed := rfl
@[simp] theorem State.append_rbuf (b : Byte) (s : State) : (s.append b).rbuf = s.rbuf := rfl
@[simp] theorem State.append_rclosed (b : Byte) (s : State) : (s.append b).rclosed = s.rclosed := rfl
@[simp] theorem State.append_eof (b : Byte) (s : State) : (s.append b).eof = s.eof := rfl
@[simp] theorem State.append_eos (b : Byte) (s : State) : (s.append b).eos = s.eos := rfl
@[simp] theorem State.append_cout (b : Byte) (s : State) : (s.append b).cout = s.cout := rfl
@[simp] theorem State.append_cin (b : Byte) (s : State) : (s.append b).cin = s.cin := rfl
@[simp] theorem State.append_rout (b : Byte) (s : State) : (s.append b).rout = s.rout := rfl
@[simp] theorem State.append_window (b : Byte) (s : State) : (s.append b).window = s.window.append s.ctx.wsize b := rfl
@[simp] theorem State.append_pat (b : Byte) (s : State) : (s.append b).pat = s.pat := rfl
@[simp] theorem State.append_tokkind (b : Byte) (s : State) : (s.append b).tokkind = s.tokkind := rfl
@[simp] theorem State.append_resa (b : Byte) (s : State) : (s.append b).resa = s.resa := rfl
@[simp] theorem State.append_resb (b : Byte) (s : State) : (s.append b).resb = s.resb := rfl
@[simp] theorem State.append_found (b : Byte) (s : State) : (s.append b).found = s.found := rfl
@[simp] theorem State.append_fault (b : Byte) (s : State) : (s.append b).fault = s.fault := rfl
@[simp] theorem State.append_errcode (b : Byte) (s : State) : (s.append b).errcode = s.errcode := rfl
@[simp] theorem State.append_errcmd (b : Byte) (s : State) : (s.append b).errcmd = s.errcmd := rfl
@[simp] theorem State.append_busy (b : Byte) (s : State) : (s.append b).busy = s.busy := rfl
@[simp] theorem State.append_lcmd (b : Byte) (s : State) : (s.append b).lcmd = s.lcmd := rfl
@[simp] theorem State.append_turns (b : Byte) (s : State) : (s.append b).turns = s.turns := rfl
@[simp] theorem State.append_reads (b : Byte) (s : State) : (s.append b).reads = s.reads := rfl

/-! ### `replay` -/

@[simp] theorem State.replay_params (t : Token) (s : State) : (s.replay t).params = s.params := by cases t <;> rfl
@[simp] theorem State.replay_cfgd (t : Token) (s : State) : (s.replay t).cfgd = s.cfgd := by cases t <;> rfl
@[simp] theorem State.replay_ctx (t : Token) (s : State) : (s.replay t).ctx = s.ctx := by cases t <;> rfl
@[simp] theorem State.replay_wacc (t : Token) (s : State) : (s.replay t).wacc = s.wacc := by cases t <;> rfl
@[simp] theorem State.replay_wclosed (t : Token) (s : State) : (s.replay t).wclosed = s.wclosed := by cases t <;> rfl
@[simp] theorem State.replay_rbuf (t : Token) (s : State) : (s.replay t).rbuf = s.rbuf := by cases t <;> rfl
@[simp] theorem State.replay_rclosed (t : Token) (s : State) : (s.replay t).rclosed = s.rclosed := by cases t <;> rfl
@[simp] theorem State.replay_eof (t : Token) (s : State) : (s.replay t).eof = s.eof := by cases t <;> rfl
@[simp] theorem State.replay_eos (t : Token) (s : State) : (s.replay t).eos = s.eos := by cases t <;> rfl
@[simp] theorem State.replay_cout (t : Token) (s : State) : (s.replay t).cout = s.cout := by cases t <;> rfl
@[simp] theorem State.replay_cin (t : Token) (s : State) : (s.replay t).cin = s.cin := by cases t <;> rfl
@[simp] theorem State.replay_pat (t : Token) (s : State) : (s.replay t).pat = s.pat := by cases t <;> rfl
@[simp] theorem State.replay_tokkind (t : Token) (s : State) : (s.replay t).tokkind = s.tokkind := by cases t <;> rfl
@[simp] theorem State.replay_resa (t : Token) (s : State) : (s.replay t).resa = s.resa := by cases t <;> rfl
@[simp] theorem State.replay_resb (t : Token) (s : State) : (s.replay t).resb = s.resb := by cases t <;> rfl
@[simp] theorem State.replay_found (t : Token) (s : State) : (s.replay t).found = s.found := by cases t <;> rfl
@[simp] theorem State.replay_fault (t : Token) (s : State) : (s.replay t).fault = s.fault := by cases t <;> rfl
@[simp] theorem State.replay_errcode (t : Token) (s : State) : (s.replay t).errcode = s.errcode := by cases t <;> rfl
@[simp] theorem State.replay_errcmd (t : Token) (s : State) : (s.replay t).errcmd = s.errcmd := by cases t <;> rfl
@[simp] theorem State.replay_busy (t : Token) (s : State) : (s.replay t).busy = s.busy := by cases t <;> rfl
@[simp] theorem State.replay_lcmd (t : Token) (s : State) : (s.replay t).lcmd = s.lcmd := by cases t <;> rfl
@[simp] theorem State.replay_turns (t : Token) (s : State) : (s.replay t).turns = s.turns := by cases t <;> rfl
@[simp] theorem State.replay_reads (t : Token) (s : State) : (s.replay t).reads = s.reads := by cases t <;> rfl

/-! ### `takeFault` -/

@[simp] theorem State.takeFault_params (c : ErrCode) (v : Word) (s : State) : (s.takeFault c v).params = s.params := rfl
@[simp] theorem State.takeFault_cfgd (c : ErrCode) (v : Word) (s : State) : (s.takeFault c v).cfgd = s.cfgd := rfl
@[simp] theorem State.takeFault_ctx (c : ErrCode) (v : Word) (s : State) : (s.takeFault c v).ctx = s.ctx := rfl
@[simp] theorem State.takeFault_wacc (c : ErrCode) (v : Word) (s : State) : (s.takeFault c v).wacc = s.wacc := rfl
@[simp] theorem State.takeFault_wclosed (c : ErrCode) (v : Word) (s : State) : (s.takeFault c v).wclosed = s.wclosed := rfl
@[simp] theorem State.takeFault_rbuf (c : ErrCode) (v : Word) (s : State) : (s.takeFault c v).rbuf = s.rbuf := rfl
@[simp] theorem State.takeFault_rclosed (c : ErrCode) (v : Word) (s : State) : (s.takeFault c v).rclosed = s.rclosed := rfl
@[simp] theorem State.takeFault_eof (c : ErrCode) (v : Word) (s : State) : (s.takeFault c v).eof = s.eof := rfl
@[simp] theorem State.takeFault_eos (c : ErrCode) (v : Word) (s : State) : (s.takeFault c v).eos = s.eos := rfl
@[simp] theorem State.takeFault_cout (c : ErrCode) (v : Word) (s : State) : (s.takeFault c v).cout = s.cout := rfl
@[simp] theorem State.takeFault_cin (c : ErrCode) (v : Word) (s : State) : (s.takeFault c v).cin = s.cin := rfl
@[simp] theorem State.takeFault_rout (c : ErrCode) (v : Word) (s : State) : (s.takeFault c v).rout = s.rout := rfl
@[simp] theorem State.takeFault_window (c : ErrCode) (v : Word) (s : State) : (s.takeFault c v).window = s.window := rfl
@[simp] theorem State.takeFault_pat (c : ErrCode) (v : Word) (s : State) : (s.takeFault c v).pat = s.pat := rfl
@[simp] theorem State.takeFault_tokkind (c : ErrCode) (v : Word) (s : State) : (s.takeFault c v).tokkind = s.tokkind := rfl
@[simp] theorem State.takeFault_resa (c : ErrCode) (v : Word) (s : State) : (s.takeFault c v).resa = s.resa := rfl
@[simp] theorem State.takeFault_resb (c : ErrCode) (v : Word) (s : State) : (s.takeFault c v).resb = s.resb := rfl
@[simp] theorem State.takeFault_found (c : ErrCode) (v : Word) (s : State) : (s.takeFault c v).found = s.found := rfl
@[simp] theorem State.takeFault_fault (c : ErrCode) (v : Word) (s : State) : (s.takeFault c v).fault = true := rfl
@[simp] theorem State.takeFault_errcode (c : ErrCode) (v : Word) (s : State) : (s.takeFault c v).errcode = c := rfl
@[simp] theorem State.takeFault_errcmd (c : ErrCode) (v : Word) (s : State) : (s.takeFault c v).errcmd = v := rfl
@[simp] theorem State.takeFault_busy (c : ErrCode) (v : Word) (s : State) : (s.takeFault c v).busy = false := rfl
@[simp] theorem State.takeFault_lcmd (c : ErrCode) (v : Word) (s : State) : (s.takeFault c v).lcmd = s.lcmd := rfl
@[simp] theorem State.takeFault_turns (c : ErrCode) (v : Word) (s : State) : (s.takeFault c v).turns = s.turns := rfl
@[simp] theorem State.takeFault_reads (c : ErrCode) (v : Word) (s : State) : (s.takeFault c v).reads = s.reads := rfl

/-! ### `complete` -/

@[simp] theorem State.complete_params (s : State) : (s.complete).params = s.params := rfl
@[simp] theorem State.complete_cfgd (s : State) : (s.complete).cfgd = s.cfgd := rfl
@[simp] theorem State.complete_ctx (s : State) : (s.complete).ctx = s.ctx := rfl
@[simp] theorem State.complete_wacc (s : State) : (s.complete).wacc = s.wacc := rfl
@[simp] theorem State.complete_wclosed (s : State) : (s.complete).wclosed = s.wclosed := rfl
@[simp] theorem State.complete_rbuf (s : State) : (s.complete).rbuf = s.rbuf := rfl
@[simp] theorem State.complete_rclosed (s : State) : (s.complete).rclosed = s.rclosed := rfl
@[simp] theorem State.complete_eof (s : State) : (s.complete).eof = s.eof := rfl
@[simp] theorem State.complete_eos (s : State) : (s.complete).eos = s.eos := rfl
@[simp] theorem State.complete_cout (s : State) : (s.complete).cout = s.cout := rfl
@[simp] theorem State.complete_cin (s : State) : (s.complete).cin = s.cin := rfl
@[simp] theorem State.complete_rout (s : State) : (s.complete).rout = s.rout := rfl
@[simp] theorem State.complete_window (s : State) : (s.complete).window = s.window := rfl
@[simp] theorem State.complete_pat (s : State) : (s.complete).pat = s.pat := rfl
@[simp] theorem State.complete_tokkind (s : State) : (s.complete).tokkind = s.tokkind := rfl
@[simp] theorem State.complete_resa (s : State) : (s.complete).resa = s.resa := rfl
@[simp] theorem State.complete_resb (s : State) : (s.complete).resb = s.resb := rfl
@[simp] theorem State.complete_found (s : State) : (s.complete).found = s.found := rfl
@[simp] theorem State.complete_fault (s : State) : (s.complete).fault = s.fault := rfl
@[simp] theorem State.complete_errcode (s : State) : (s.complete).errcode = s.errcode := rfl
@[simp] theorem State.complete_errcmd (s : State) : (s.complete).errcmd = s.errcmd := rfl
@[simp] theorem State.complete_busy (s : State) : (s.complete).busy = false := rfl
@[simp] theorem State.complete_lcmd (s : State) : (s.complete).lcmd = s.lcmd := rfl
@[simp] theorem State.complete_turns (s : State) : (s.complete).turns = s.turns := rfl
@[simp] theorem State.complete_reads (s : State) : (s.complete).reads = s.reads := rfl

/-! ### `hardReset` -/

@[simp] theorem State.hardReset_params (s : State) : (s.hardReset).params = s.params := rfl
@[simp] theorem State.hardReset_cfgd (s : State) : (s.hardReset).cfgd = false := rfl
@[simp] theorem State.hardReset_ctx (s : State) : (s.hardReset).ctx = ⟨0, 0⟩ := rfl
@[simp] theorem State.hardReset_wacc (s : State) : (s.hardReset).wacc = [] := rfl
@[simp] theorem State.hardReset_wclosed (s : State) : (s.hardReset).wclosed = false := rfl
@[simp] theorem State.hardReset_rbuf (s : State) : (s.hardReset).rbuf = [] := rfl
@[simp] theorem State.hardReset_rclosed (s : State) : (s.hardReset).rclosed = false := rfl
@[simp] theorem State.hardReset_eof (s : State) : (s.hardReset).eof = false := rfl
@[simp] theorem State.hardReset_eos (s : State) : (s.hardReset).eos = false := rfl
@[simp] theorem State.hardReset_cout (s : State) : (s.hardReset).cout = [] := rfl
@[simp] theorem State.hardReset_cin (s : State) : (s.hardReset).cin = [] := rfl
@[simp] theorem State.hardReset_rout (s : State) : (s.hardReset).rout = [] := rfl
@[simp] theorem State.hardReset_window (s : State) : (s.hardReset).window = Window.empty [] := rfl
@[simp] theorem State.hardReset_pat (s : State) : (s.hardReset).pat = [] := rfl
@[simp] theorem State.hardReset_tokkind (s : State) : (s.hardReset).tokkind = .noToken := rfl
@[simp] theorem State.hardReset_resa (s : State) : (s.hardReset).resa = 0 := rfl
@[simp] theorem State.hardReset_resb (s : State) : (s.hardReset).resb = 0 := rfl
@[simp] theorem State.hardReset_found (s : State) : (s.hardReset).found = false := rfl
@[simp] theorem State.hardReset_fault (s : State) : (s.hardReset).fault = false := rfl
@[simp] theorem State.hardReset_errcode (s : State) : (s.hardReset).errcode = .noFault := rfl
@[simp] theorem State.hardReset_errcmd (s : State) : (s.hardReset).errcmd = 0 := rfl
@[simp] theorem State.hardReset_busy (s : State) : (s.hardReset).busy = false := rfl
@[simp] theorem State.hardReset_lcmd (s : State) : (s.hardReset).lcmd = 0 := rfl
@[simp] theorem State.hardReset_turns (s : State) : (s.hardReset).turns = s.turns := rfl
@[simp] theorem State.hardReset_reads (s : State) : (s.hardReset).reads = s.reads := rfl

/-! ### `configure` -/

@[simp] theorem State.configure_params (off len : Nat) (s : State) : (s.configure off len).params = s.params := rfl
@[simp] theorem State.configure_cfgd (off len : Nat) (s : State) : (s.configure off len).cfgd = true := rfl
@[simp] theorem State.configure_ctx (off len : Nat) (s : State) : (s.configure off len).ctx = ⟨BitVec.ofNat 4 off, BitVec.ofNat 4 len⟩ := rfl
@[simp] theorem State.configure_wacc (off len : Nat) (s : State) : (s.configure off len).wacc = [] := rfl
@[simp] theorem State.configure_wclosed (off len : Nat) (s : State) : (s.configure off len).wclosed = false := rfl
@[simp] theorem State.configure_rbuf (off len : Nat) (s : State) : (s.configure off len).rbuf = [] := rfl
@[simp] theorem State.configure_rclosed (off len : Nat) (s : State) : (s.configure off len).rclosed = false := rfl
@[simp] theorem State.configure_eof (off len : Nat) (s : State) : (s.configure off len).eof = false := rfl
@[simp] theorem State.configure_eos (off len : Nat) (s : State) : (s.configure off len).eos = false := rfl
@[simp] theorem State.configure_cout (off len : Nat) (s : State) : (s.configure off len).cout = s.cout := rfl
@[simp] theorem State.configure_cin (off len : Nat) (s : State) : (s.configure off len).cin = [] := rfl
@[simp] theorem State.configure_rout (off len : Nat) (s : State) : (s.configure off len).rout = s.rout := rfl
@[simp] theorem State.configure_window (off len : Nat) (s : State) : (s.configure off len).window = Window.empty s.window.ram := rfl
@[simp] theorem State.configure_pat (off len : Nat) (s : State) : (s.configure off len).pat = [] := rfl
@[simp] theorem State.configure_tokkind (off len : Nat) (s : State) : (s.configure off len).tokkind = .noToken := rfl
@[simp] theorem State.configure_resa (off len : Nat) (s : State) : (s.configure off len).resa = 0 := rfl
@[simp] theorem State.configure_resb (off len : Nat) (s : State) : (s.configure off len).resb = 0 := rfl
@[simp] theorem State.configure_found (off len : Nat) (s : State) : (s.configure off len).found = false := rfl
@[simp] theorem State.configure_fault (off len : Nat) (s : State) : (s.configure off len).fault = s.fault := rfl
@[simp] theorem State.configure_errcode (off len : Nat) (s : State) : (s.configure off len).errcode = s.errcode := rfl
@[simp] theorem State.configure_errcmd (off len : Nat) (s : State) : (s.configure off len).errcmd = s.errcmd := rfl
@[simp] theorem State.configure_busy (off len : Nat) (s : State) : (s.configure off len).busy = s.busy := rfl
@[simp] theorem State.configure_lcmd (off len : Nat) (s : State) : (s.configure off len).lcmd = s.lcmd := rfl
@[simp] theorem State.configure_turns (off len : Nat) (s : State) : (s.configure off len).turns = s.turns := rfl
@[simp] theorem State.configure_reads (off len : Nat) (s : State) : (s.configure off len).reads = s.reads := rfl

/-! ### `answerFind` -/

@[simp] theorem State.answerFind_params (r : Option Word) (s : State) : (s.answerFind r).params = s.params := by cases r <;> rfl
@[simp] theorem State.answerFind_cfgd (r : Option Word) (s : State) : (s.answerFind r).cfgd = s.cfgd := by cases r <;> rfl
@[simp] theorem State.answerFind_ctx (r : Option Word) (s : State) : (s.answerFind r).ctx = s.ctx := by cases r <;> rfl
@[simp] theorem State.answerFind_wacc (r : Option Word) (s : State) : (s.answerFind r).wacc = s.wacc := by cases r <;> rfl
@[simp] theorem State.answerFind_wclosed (r : Option Word) (s : State) : (s.answerFind r).wclosed = s.wclosed := by cases r <;> rfl
@[simp] theorem State.answerFind_rbuf (r : Option Word) (s : State) : (s.answerFind r).rbuf = s.rbuf := by cases r <;> rfl
@[simp] theorem State.answerFind_rclosed (r : Option Word) (s : State) : (s.answerFind r).rclosed = s.rclosed := by cases r <;> rfl
@[simp] theorem State.answerFind_eof (r : Option Word) (s : State) : (s.answerFind r).eof = s.eof := by cases r <;> rfl
@[simp] theorem State.answerFind_eos (r : Option Word) (s : State) : (s.answerFind r).eos = s.eos := by cases r <;> rfl
@[simp] theorem State.answerFind_cout (r : Option Word) (s : State) : (s.answerFind r).cout = s.cout := by cases r <;> rfl
@[simp] theorem State.answerFind_cin (r : Option Word) (s : State) : (s.answerFind r).cin = s.cin := by cases r <;> rfl
@[simp] theorem State.answerFind_rout (r : Option Word) (s : State) : (s.answerFind r).rout = s.rout := by cases r <;> rfl
@[simp] theorem State.answerFind_window (r : Option Word) (s : State) : (s.answerFind r).window = s.window := by cases r <;> rfl
@[simp] theorem State.answerFind_pat (r : Option Word) (s : State) : (s.answerFind r).pat = s.pat := by cases r <;> rfl
@[simp] theorem State.answerFind_tokkind (r : Option Word) (s : State) : (s.answerFind r).tokkind = s.tokkind := by cases r <;> rfl
@[simp] theorem State.answerFind_resb (r : Option Word) (s : State) : (s.answerFind r).resb = s.resb := by cases r <;> rfl
@[simp] theorem State.answerFind_fault (r : Option Word) (s : State) : (s.answerFind r).fault = s.fault := by cases r <;> rfl
@[simp] theorem State.answerFind_errcode (r : Option Word) (s : State) : (s.answerFind r).errcode = s.errcode := by cases r <;> rfl
@[simp] theorem State.answerFind_errcmd (r : Option Word) (s : State) : (s.answerFind r).errcmd = s.errcmd := by cases r <;> rfl
@[simp] theorem State.answerFind_busy (r : Option Word) (s : State) : (s.answerFind r).busy = s.busy := by cases r <;> rfl
@[simp] theorem State.answerFind_lcmd (r : Option Word) (s : State) : (s.answerFind r).lcmd = s.lcmd := by cases r <;> rfl
@[simp] theorem State.answerFind_turns (r : Option Word) (s : State) : (s.answerFind r).turns = s.turns := by cases r <;> rfl
@[simp] theorem State.answerFind_reads (r : Option Word) (s : State) : (s.answerFind r).reads = s.reads := by cases r <;> rfl

/-! ### `commitStep` -/

@[simp] theorem State.commitStep_params (p : List Byte) (bs : Bits) (b : Byte) (s : State) : (s.commitStep p bs b).params = s.params := rfl
@[simp] theorem State.commitStep_cfgd (p : List Byte) (bs : Bits) (b : Byte) (s : State) : (s.commitStep p bs b).cfgd = s.cfgd := rfl
@[simp] theorem State.commitStep_ctx (p : List Byte) (bs : Bits) (b : Byte) (s : State) : (s.commitStep p bs b).ctx = s.ctx := rfl
@[simp] theorem State.commitStep_wacc (p : List Byte) (bs : Bits) (b : Byte) (s : State) : (s.commitStep p bs b).wacc = (pushBits s.wacc bs).1 := rfl
@[simp] theorem State.commitStep_wclosed (p : List Byte) (bs : Bits) (b : Byte) (s : State) : (s.commitStep p bs b).wclosed = s.wclosed := rfl
@[simp] theorem State.commitStep_rbuf (p : List Byte) (bs : Bits) (b : Byte) (s : State) : (s.commitStep p bs b).rbuf = s.rbuf := rfl
@[simp] theorem State.commitStep_rclosed (p : List Byte) (bs : Bits) (b : Byte) (s : State) : (s.commitStep p bs b).rclosed = s.rclosed := rfl
@[simp] theorem State.commitStep_eof (p : List Byte) (bs : Bits) (b : Byte) (s : State) : (s.commitStep p bs b).eof = s.eof := rfl
@[simp] theorem State.commitStep_eos (p : List Byte) (bs : Bits) (b : Byte) (s : State) : (s.commitStep p bs b).eos = s.eos := rfl
@[simp] theorem State.commitStep_cout (p : List Byte) (bs : Bits) (b : Byte) (s : State) : (s.commitStep p bs b).cout = s.cout ++ (pushBits s.wacc bs).2 := rfl
@[simp] theorem State.commitStep_cin (p : List Byte) (bs : Bits) (b : Byte) (s : State) : (s.commitStep p bs b).cin = s.cin := rfl
@[simp] theorem State.commitStep_rout (p : List Byte) (bs : Bits) (b : Byte) (s : State) : (s.commitStep p bs b).rout = s.rout := rfl
@[simp] theorem State.commitStep_window (p : List Byte) (bs : Bits) (b : Byte) (s : State) : (s.commitStep p bs b).window = s.window.append s.ctx.wsize b := rfl
@[simp] theorem State.commitStep_pat (p : List Byte) (bs : Bits) (b : Byte) (s : State) : (s.commitStep p bs b).pat = p := rfl
@[simp] theorem State.commitStep_tokkind (p : List Byte) (bs : Bits) (b : Byte) (s : State) : (s.commitStep p bs b).tokkind = s.tokkind := rfl
@[simp] theorem State.commitStep_resa (p : List Byte) (bs : Bits) (b : Byte) (s : State) : (s.commitStep p bs b).resa = s.resa := rfl
@[simp] theorem State.commitStep_resb (p : List Byte) (bs : Bits) (b : Byte) (s : State) : (s.commitStep p bs b).resb = s.resb := rfl
@[simp] theorem State.commitStep_found (p : List Byte) (bs : Bits) (b : Byte) (s : State) : (s.commitStep p bs b).found = s.found := rfl
@[simp] theorem State.commitStep_fault (p : List Byte) (bs : Bits) (b : Byte) (s : State) : (s.commitStep p bs b).fault = s.fault := rfl
@[simp] theorem State.commitStep_errcode (p : List Byte) (bs : Bits) (b : Byte) (s : State) : (s.commitStep p bs b).errcode = s.errcode := rfl
@[simp] theorem State.commitStep_errcmd (p : List Byte) (bs : Bits) (b : Byte) (s : State) : (s.commitStep p bs b).errcmd = s.errcmd := rfl
@[simp] theorem State.commitStep_busy (p : List Byte) (bs : Bits) (b : Byte) (s : State) : (s.commitStep p bs b).busy = s.busy := rfl
@[simp] theorem State.commitStep_lcmd (p : List Byte) (bs : Bits) (b : Byte) (s : State) : (s.commitStep p bs b).lcmd = s.lcmd := rfl
@[simp] theorem State.commitStep_turns (p : List Byte) (bs : Bits) (b : Byte) (s : State) : (s.commitStep p bs b).turns = s.turns := rfl
@[simp] theorem State.commitStep_reads (p : List Byte) (bs : Bits) (b : Byte) (s : State) : (s.commitStep p bs b).reads = s.reads := rfl

@[simp] theorem State.answerToken_lit (b : Byte) (s : State) :
    s.answerToken (.lit b) = s.setResult false .literal (BitVec.ofNat 32 b.toNat) 0 := rfl
@[simp] theorem State.answerToken_ref (d l : Nat) (s : State) :
    s.answerToken (.ref d l) =
      s.setResult false .reference (BitVec.ofNat 32 d) (BitVec.ofNat 32 l) := rfl
@[simp] theorem State.replay_lit_rout (b : Byte) (s : State) :
    (s.replay (.lit b)).rout = s.rout ++ [b] := rfl
@[simp] theorem State.replay_lit_window (b : Byte) (s : State) :
    (s.replay (.lit b)).window = s.window.append s.ctx.wsize b := rfl
@[simp] theorem State.replay_ref_rout (d l : Nat) (s : State) :
    (s.replay (.ref d l)).rout = s.rout ++ (s.window.copy s.ctx.wsize d l).2 := rfl
@[simp] theorem State.replay_ref_window (d l : Nat) (s : State) :
    (s.replay (.ref d l)).window = (s.window.copy s.ctx.wsize d l).1 := rfl
@[simp] theorem State.answerFind_none (s : State) :
    s.answerFind none = { s with found := false, resa := 0xFFFFFFFF#32 } := rfl
@[simp] theorem State.answerFind_some (p : Word) (s : State) :
    s.answerFind (some p) = { s with found := true, resa := p } := rfl

end Sys2Proof.Machine
end

