-- ==== Sys2Proof/Laws/Reader.lean ====
section
/-! SUPPORT. The laws of the bit reader (R28, R29, R150): what `peek` can answer and what `consume` leaves. -/

namespace Sys2Proof.Machine

/-- Everything `peek` can answer (R150). -/
theorem peek_cases (c : Context) (u : Bits) (eof : Bool) :
    (peek c u eof = .eos ∧ eof = true ∧ u.length < 8 ∧ allZero u = true) ∨
    (peek c u eof = .needMore ∧ eof = false ∧ u.length < (if u.head? = some true then 1 + c.ess else 9)) ∨
    (peek c u eof = .trunc ∧ eof = true ∧ u.length < (if u.head? = some true then 1 + c.ess else 9)) ∨
    (∃ b rest, u = false :: rest ∧ 8 ≤ rest.length ∧ b = byteOf (rest.take 8) ∧
      peek c u eof = .token (.lit b) 9) ∨
    (∃ rest, u = true :: rest ∧ c.ess ≤ rest.length ∧
      peek c u eof = .token (.ref (val (rest.take c.offb.toNat))
        (val ((rest.drop c.offb.toNat).take c.lenb.toNat) + c.mins)) (1 + c.ess)) := by
  unfold peek
  split
  · rename_i h
    simp at h
    exact .inl ⟨rfl, h.1.1, h.1.2, h.2⟩
  · rename_i h
    match u with
    | [] =>
      right; left
      refine ⟨rfl, ?_, by simp⟩
      simpa using h
    | false :: rest =>
      by_cases hl : (false :: rest).length < 9
      · cases eof
        · right; left; exact ⟨by simp only [if_pos hl]; rfl, rfl, by simpa using hl⟩
        · right; right; left; exact ⟨by simp only [if_pos hl]; rfl, rfl, by simpa using hl⟩
      · right; right; right; left
        simp only [if_neg hl]
        exact ⟨_, rest, rfl, by simp at hl; omega, rfl, rfl⟩
    | true :: rest =>
      by_cases hl : (true :: rest).length < 1 + c.ess
      · cases eof
        · right; left; exact ⟨by simp only [if_pos hl]; rfl, rfl, by simpa using hl⟩
        · right; right; left; exact ⟨by simp only [if_pos hl]; rfl, rfl, by simpa using hl⟩
      · right; right; right; right
        simp only [if_neg hl]
        exact ⟨rest, rfl, by simp at hl; omega, rfl⟩

/-- A token's bits are among the unread bits. -/
theorem peek_token_le {c : Context} {u : Bits} {eof : Bool} {t : Token} {k : Nat}
    (h : peek c u eof = .token t k) : 1 ≤ k ∧ k ≤ u.length := by
  obtain ⟨h', -⟩ | ⟨h', -⟩ | ⟨h', -⟩ | ⟨b, rest, rfl, hr, -, h'⟩ | ⟨rest, rfl, hr, h'⟩ :=
    peek_cases c u eof <;> rw [h'] at h <;> cases h
  · simp; omega
  · simp; omega

/-- A literal token is recognised from its flag and 8 more bits (R150). -/
theorem peek_false (c : Context) (rest : Bits) (eof : Bool) (h : 8 ≤ rest.length) :
    peek c (false :: rest) eof = .token (.lit (byteOf (rest.take 8))) 9 := by
  unfold peek
  rw [if_neg (by simp; omega)]
  simp only
  rw [if_neg (by simp; omega)]

/-- A reference token is recognised from its flag and ESS more bits (R150). -/
theorem peek_true (c : Context) (rest : Bits) (eof : Bool) (h : c.ess ≤ rest.length) :
    peek c (true :: rest) eof = .token
      (.ref (val (rest.take c.offb.toNat))
        (val ((rest.drop c.offb.toNat).take c.lenb.toNat) + c.mins)) (1 + c.ess) := by
  unfold peek
  rw [if_neg (by simp)]
  simp only
  rw [if_neg (by simp; omega)]

/-- The length of a token `peek` answers is fixed by its kind (R150). -/
theorem peek_token_length {c : Context} {u : Bits} {eof : Bool} {t : Token} {k : Nat}
    (h : peek c u eof = .token t k) :
    k = match t with | .lit _ => 9 | .ref _ _ => 1 + c.ess := by
  obtain ⟨h', -⟩ | ⟨h', -⟩ | ⟨h', -⟩ | ⟨b, rest, rfl, hr, -, h'⟩ | ⟨rest, rfl, hr, h'⟩ :=
    peek_cases c u eof <;> rw [h'] at h <;> cases h <;> rfl

@[simp] theorem State.length_unread (s : State) :
    s.unread.length = s.rbuf.length + 8 * s.cin.length := by
  simp [State.unread]

theorem streamBits_take_append_drop (n : Nat) (bs : List Byte) :
    streamBits (bs.take n) ++ streamBits (bs.drop n) = streamBits bs := by
  rw [← streamBits_append, List.take_append_drop]

/-- `consume(k)` removes exactly the first k unread bits (R29). -/
theorem State.unread_consume (s : State) (k : Nat) (hk : k ≤ s.unread.length) :
    (s.consume k).unread = s.unread.drop k := by
  rw [State.length_unread] at hk
  have hp : s.pullCount k ≤ s.cin.length := by unfold State.pullCount; omega
  have hlen : k ≤ (s.rbuf ++ streamBits (s.cin.take (s.pullCount k))).length := by
    simp [hp]; unfold State.pullCount; omega
  rw [State.unread, State.unread, State.consume_rbuf, State.consume_cin,
    ← List.drop_append_of_le_length hlen, List.append_assoc, streamBits_take_append_drop]

/-- RBUF after `consume(k)`: `r + 8p - k` bits, less than a byte (R29). -/
theorem State.length_rbuf_consume (s : State) (k : Nat) (hr : s.rbuf.length ≤ 7)
    (hk : k ≤ s.unread.length) :
    (s.consume k).rbuf.length = s.rbuf.length + 8 * s.pullCount k - k ∧
      (s.consume k).rbuf.length ≤ 7 := by
  rw [State.length_unread] at hk
  have hp : s.pullCount k ≤ s.cin.length := by unfold State.pullCount; omega
  have : (s.consume k).rbuf.length = s.rbuf.length + 8 * s.pullCount k - k := by simp [hp]
  refine ⟨this, this ▸ ?_⟩
  unfold State.pullCount
  omega

end Sys2Proof.Machine
end

