-- ==== Sys2Proof/Laws/Memory.lean ====
section
/-! SUPPORT. The laws of the window RAM: a write is read back, leaves every other byte, and keeps the
canonical form. -/

namespace Sys2Proof.Machine

theorem Memory.rising_cons {c : Host.Cell} {m : Memory} :
    Memory.rising (c :: m) = true ↔ (∀ d ∈ m.head?, c.1 < d.1) ∧ Memory.rising m = true := by
  cases m with
  | nil => simp [Memory.rising]
  | cons d m => simp [Memory.rising]

/-- In a rising list the head is below every later address. -/
theorem Memory.rising_lt {c : Host.Cell} {m : Memory} (h : Memory.rising (c :: m) = true) :
    ∀ d ∈ m, c.1 < d.1 := by
  induction m generalizing c with
  | nil => simp
  | cons e m ih =>
    rw [Memory.rising_cons] at h
    intro d hd
    rcases List.mem_cons.mp hd with rfl | hd
    · exact h.1 d rfl
    · exact lt_trans (h.1 e rfl) (ih h.2 d hd)

/-- An address below every listed one reads as blank. -/
theorem Memory.read_of_lt {m : Memory} {a : Nat} (h : ∀ d ∈ m, a < d.1) : m.read a = blankByte := by
  induction m with
  | nil => rfl
  | cons c m ih =>
    have hc := h c List.mem_cons_self
    rw [Memory.read, if_neg (by omega), ih fun d hd => h d (List.mem_cons_of_mem _ hd)]

@[simp] theorem Memory.read_nil (a : Nat) : Memory.read [] a = blankByte := rfl

/-- Read after write (R12): the written byte there, the old byte elsewhere. -/
theorem Memory.read_write {m : Memory} (h : m.rising = true) (a b : Nat) (v : Byte) :
    (m.write a v).read b = if b = a then v else m.read b := by
  induction m with
  | nil =>
    by_cases hv : v = blankByte <;> by_cases hb : b = a <;>
      simp [Memory.write, Memory.read, hv, hb, eq_comm]
    all_goals intro h'; exact absurd h'.symm hb
  | cons c m ih =>
    have hlt := Memory.rising_lt h
    have ih := ih (Memory.rising_cons.mp h).2
    rw [Memory.write]
    rcases lt_trichotomy a c.1 with hac | hac | hac
    · rw [if_pos hac]
      by_cases hv : v = blankByte
      · rw [if_pos hv]
        by_cases hb : b = a
        · rw [if_pos hb, hv]
          refine Memory.read_of_lt fun d hd => ?_
          rcases List.mem_cons.mp hd with rfl | hd
          · omega
          · have := hlt d hd; omega
        · rw [if_neg hb]
      · rw [if_neg hv, Memory.read]
        by_cases hb : b = a
        · simp [hb]
        · rw [if_neg (by simpa using fun h' => hb h'.symm), if_neg hb]
    · rw [if_neg (by omega), if_pos hac.symm]
      by_cases hb : b = a
      · rw [if_pos hb]
        by_cases hv : v = blankByte
        · rw [if_pos hv, hv]
          exact Memory.read_of_lt fun d hd => by have := hlt d hd; omega
        · rw [if_neg hv, Memory.read, if_pos hb.symm]
      · rw [if_neg hb]
        have hcb : ¬ c.1 = b := by omega
        by_cases hv : v = blankByte
        · rw [if_pos hv, Memory.read, if_neg hcb]
        · rw [if_neg hv, Memory.read, if_neg (by simpa using fun h' => hb h'.symm), Memory.read,
            if_neg hcb]
    · rw [if_neg (by omega), if_neg (by omega), Memory.read, Memory.read]
      by_cases hcb : c.1 = b
      · rw [if_pos hcb, if_pos hcb, if_neg (by omega)]
      · rw [if_neg hcb, if_neg hcb, ih]

theorem Memory.mem_write {m : Memory} {a : Nat} {v : Byte} {d : Host.Cell} (h : d ∈ m.write a v) :
    d ∈ m ∨ (d = (a, v) ∧ v ≠ blankByte) := by
  induction m with
  | nil =>
    rw [Memory.write] at h
    split at h <;> simp_all
  | cons c m ih =>
    rw [Memory.write] at h
    split at h
    · split at h <;> simp_all
      tauto
    · split at h
      · split at h <;> simp_all
        tauto
      · rcases List.mem_cons.mp h with rfl | h
        · exact .inl List.mem_cons_self
        · rcases ih h with h | h
          · exact .inl (List.mem_cons_of_mem _ h)
          · exact .inr h

theorem Memory.rising_of_lt {c : Host.Cell} {m : Memory} (hm : m.rising = true)
    (h : ∀ d ∈ m, c.1 < d.1) : Memory.rising (c :: m) = true :=
  Memory.rising_cons.mpr ⟨fun d hd => h d (List.mem_of_mem_head? hd), hm⟩

theorem Memory.write_rising {m : Memory} (h : m.rising = true) (a : Nat) (v : Byte) :
    (m.write a v).rising = true := by
  induction m with
  | nil => rw [Memory.write]; split <;> rfl
  | cons c m ih =>
    have hlt := Memory.rising_lt h
    have hm := (Memory.rising_cons.mp h).2
    rw [Memory.write]
    split
    · split
      · exact h
      · refine Memory.rising_of_lt h fun d hd => ?_
        rcases List.mem_cons.mp hd with rfl | hd
        · assumption
        · exact lt_trans ‹_› (hlt d hd)
    · split
      · rename_i hca
        split
        · exact hm
        · exact Memory.rising_of_lt hm fun d hd => hca ▸ hlt d hd
      · refine Memory.rising_of_lt (ih hm) fun d hd => ?_
        rcases Memory.mem_write hd with hd | ⟨rfl, -⟩
        · exact hlt d hd
        · simp only; omega

theorem Memory.wf_rising {m : Memory} (h : m.wf = true) : m.rising = true := by
  simp [Memory.wf] at h; exact h.1

/-- A write inside the RAM keeps the canonical form (R73). -/
theorem Memory.write_wf {m : Memory} (h : m.wf = true) {a : Nat} (ha : a < ramBytes) (v : Byte) :
    (m.write a v).wf = true := by
  have hr := Memory.write_rising (Memory.wf_rising h) a v
  simp only [Memory.wf, Bool.and_eq_true, List.all_eq_true, decide_eq_true_eq, Bool.not_eq_true',
    decide_eq_false_iff_not] at h ⊢
  refine ⟨hr, fun d hd => ?_⟩
  rcases Memory.mem_write hd with hd | ⟨rfl, hv⟩
  · exact h.2 d hd
  · exact ⟨ha, hv⟩

end Sys2Proof.Machine
end

