-- ==== Sys2Proof/Laws/Window.lean ====
section
/-! SUPPORT. The laws of the sliding window (R40, R41, R170, R172, R197): the RAM view and the sequence view
agree. -/

namespace Sys2Proof.Machine

/-- The geometry of a window that the operations keep (R40, R41). -/
structure Window.Ok (n : Nat) (w : Window) : Prop where
  pos : 0 < n
  cap : n ≤ ramBytes
  head : w.head.toNat < n
  fill : w.fill.toNat ≤ n
  ram : w.ram.wf = true

theorem Context.wsize_pos (c : Context) : 0 < c.wsize := Nat.two_pow_pos _

theorem Context.wsize_le (c : Context) : c.wsize ≤ ramBytes := by
  have h : c.offb.toNat ≤ 15 := by have := c.offb.isLt; omega
  exact (Nat.pow_le_pow_right (by omega) h).trans (by decide)

/-- A window that meets the invariant has good geometry. -/
theorem State.Inv.windowOk {s : State} (h : s.Inv) : s.window.Ok s.ctx.wsize :=
  ⟨s.ctx.wsize_pos, s.ctx.wsize_le, h.headInRing, h.fillFits, h.ramWf⟩

@[simp] theorem Window.length_bytes (n : Nat) (w : Window) : (w.bytes n).length = w.fill.toNat := by
  simp [Window.bytes]

theorem Window.getElem_bytes (n : Nat) (w : Window) (k : Nat) (hk : k < (w.bytes n).length) :
    (w.bytes n)[k] = w.byte n k := by
  simp [Window.bytes]

theorem Window.getElem?_bytes (n : Nat) (w : Window) (k : Nat) :
    (w.bytes n)[k]? = if k < w.fill.toNat then some (w.byte n k) else none := by
  by_cases hk : k < w.fill.toNat <;> simp [Window.bytes, hk]

@[simp] theorem Window.bytes_empty (n : Nat) (m : Memory) : (Window.empty m).bytes n = [] := rfl

theorem Window.append_of_room {n : Nat} {w : Window} (h : w.fill.toNat < n) (b : Byte) :
    w.append n b =
      { ram := w.ram.write (w.addr n w.fill.toNat) b
        head := w.head
        fill := BitVec.ofNat 16 (w.fill.toNat + 1)
        count := w.count + 1 } := by
  rw [Window.append, if_pos h]

theorem Window.append_of_full {n : Nat} {w : Window} (h : ¬ w.fill.toNat < n) (b : Byte) :
    w.append n b =
      { ram := w.ram.write w.head.toNat b
        head := BitVec.ofNat 15 ((w.head.toNat + 1) % n)
        fill := w.fill
        count := w.count + 1 } := by
  rw [Window.append, if_neg h]

@[simp] theorem Window.append_count (n : Nat) (b : Byte) (w : Window) :
    (w.append n b).count = w.count + 1 := by
  rw [Window.append]; split <;> rfl

/-- The RAM byte an append writes (R170). -/
theorem Window.append_ram (n : Nat) (b : Byte) (w : Window) :
    (w.append n b).ram = w.ram.write (w.slot n) b := by
  rw [Window.append, Window.slot]; split <;> rfl

theorem Window.addr_lt {n : Nat} {w : Window} (h : w.Ok n) (k : Nat) : w.addr n k < n :=
  Nat.mod_lt _ h.pos

theorem Window.slot_lt {n : Nat} {w : Window} (h : w.Ok n) : w.slot n < n := by
  rw [Window.slot]; split
  · exact Window.addr_lt h _
  · exact h.head

theorem Window.fill_append_room {n : Nat} {w : Window} (h : w.Ok n) (hr : w.fill.toNat < n) (b : Byte) :
    (w.append n b).fill.toNat = w.fill.toNat + 1 := by
  have := h.cap
  rw [ramBytes] at this
  rw [Window.append_of_room hr, BitVec.toNat_ofNat, Nat.mod_eq_of_lt (by omega)]

theorem Window.fill_append {n : Nat} {w : Window} (h : w.Ok n) (b : Byte) :
    (w.append n b).fill.toNat = min (w.fill.toNat + 1) n := by
  have := h.fill
  by_cases hr : w.fill.toNat < n
  · rw [Window.fill_append_room h hr]; omega
  · rw [Window.append_of_full hr]; simp only; omega

theorem Window.head_append_full {n : Nat} {w : Window} (h : w.Ok n) (hr : ¬ w.fill.toNat < n) (b : Byte) :
    (w.append n b).head.toNat = (w.head.toNat + 1) % n := by
  have h1 := h.cap
  have h2 := Nat.mod_lt (w.head.toNat + 1) h.pos
  rw [ramBytes] at h1
  rw [Window.append_of_full hr, BitVec.toNat_ofNat, Nat.mod_eq_of_lt (by omega)]

/-- Appending keeps the geometry. -/
theorem Window.Ok.append {n : Nat} {w : Window} (h : w.Ok n) (b : Byte) : (w.append n b).Ok n := by
  refine ⟨h.pos, h.cap, ?_, ?_, ?_⟩
  · by_cases hr : w.fill.toNat < n
    · rw [Window.append_of_room hr]; exact h.head
    · rw [Window.head_append_full h hr]; exact Nat.mod_lt _ h.pos
  · rw [Window.fill_append h]; omega
  · rw [Window.append_ram]
    exact Memory.write_wf h.ram (lt_of_lt_of_le (Window.slot_lt h) h.cap) _

theorem add_mod_left_cancel {n h a b : Nat} (ha : a < n) (hb : b < n)
    (he : (h + a) % n = (h + b) % n) : a = b := by
  have h1 : a % n = b % n := Nat.ModEq.add_left_cancel' h he
  rwa [Nat.mod_eq_of_lt ha, Nat.mod_eq_of_lt hb] at h1

/-- The bytes of the window after an append (R170): the new byte at the end, the rest moved down by one
when the window was full. -/
theorem Window.byte_append {n : Nat} {w : Window} (h : w.Ok n) (b : Byte) (k : Nat)
    (hk : k < (w.append n b).fill.toNat) :
    (w.append n b).byte n k =
      if k + 1 = (w.append n b).fill.toNat then b
      else w.byte n (if w.fill.toNat < n then k else k + 1) := by
  have hfa := Window.fill_append h b
  have hfill := h.fill
  rw [Window.byte, Window.append_ram, Memory.read_write (Memory.wf_rising h.ram)]
  by_cases hr : w.fill.toNat < n
  · have haddr : (w.append n b).addr n k = w.addr n k := by
      rw [Window.append_of_room hr]; rfl
    rw [haddr, Window.slot, if_pos hr, if_pos hr]
    by_cases hlast : k + 1 = (w.append n b).fill.toNat
    · rw [if_pos hlast, if_pos (by congr 1; omega)]
    · rw [if_neg hlast, if_neg, Window.byte]
      intro he
      have := add_mod_left_cancel (by omega) hr he
      omega
  · have haddr : (w.append n b).addr n k = w.addr n (k + 1) := by
      rw [Window.addr, Window.head_append_full h hr, Window.addr, Nat.mod_add_mod]
      congr 1; omega
    rw [haddr, Window.slot, if_neg hr, if_neg hr]
    by_cases hlast : k + 1 = (w.append n b).fill.toNat
    · rw [if_pos hlast, if_pos]
      have hkn : k + 1 = n := by omega
      rw [Window.addr, hkn, Nat.add_mod_right, Nat.mod_eq_of_lt h.head]
    · rw [if_neg hlast, if_neg, Window.byte]
      intro he
      have hz : (w.head.toNat + (k + 1)) % n = (w.head.toNat + 0) % n := by
        exact he.trans (Nat.mod_eq_of_lt h.head).symm
      have := add_mod_left_cancel (by omega) h.pos hz
      omega

/-- The RAM view of `append` is the sequence view (R41, R170). -/
theorem Window.bytes_append {n : Nat} {w : Window} (h : w.Ok n) (b : Byte) :
    (w.append n b).bytes n =
      if w.fill.toNat < n then w.bytes n ++ [b] else (w.bytes n ++ [b]).tail := by
  have hfa := Window.fill_append h b
  have hfill := h.fill
  have hpos := h.pos
  apply List.ext_getElem?
  intro k
  rw [Window.getElem?_bytes]
  by_cases hk : k < (w.append n b).fill.toNat
  · rw [if_pos hk, Window.byte_append h b k hk]
    by_cases hr : w.fill.toNat < n
    · rw [if_pos hr, if_pos hr, List.getElem?_append, Window.length_bytes, Window.getElem?_bytes]
      by_cases hlast : k + 1 = (w.append n b).fill.toNat
      · rw [if_pos hlast, if_neg (by omega)]
        have : k - w.fill.toNat = 0 := by omega
        simp [this]
      · rw [if_neg hlast, if_pos (by omega), if_pos (by omega)]
    · rw [if_neg hr, if_neg hr, List.getElem?_tail, List.getElem?_append, Window.length_bytes,
        Window.getElem?_bytes]
      by_cases hlast : k + 1 = (w.append n b).fill.toNat
      · rw [if_pos hlast, if_neg (by omega)]
        have : k + 1 - w.fill.toNat = 0 := by omega
        simp [this]
      · rw [if_neg hlast, if_pos (by omega), if_pos (by omega)]
  · rw [if_neg hk]
    symm
    by_cases hr : w.fill.toNat < n
    · rw [if_pos hr, List.getElem?_eq_none]; simp; omega
    · rw [if_neg hr, List.getElem?_eq_none]; simp; omega

/-- WBASE after an append: 0 until the window is full, then one more each time (R170). -/
theorem Window.base_append {n : Nat} {w : Window} (h : w.Ok n) (b : Byte) :
    (w.append n b).base = if w.fill.toNat < n then w.base else w.base + 1 := by
  rw [Window.base, Window.append_count]
  by_cases hr : w.fill.toNat < n
  · rw [if_pos hr, Window.fill_append_room h hr, Window.base, BitVec.ofNat_add]
    generalize BitVec.ofNat 32 w.fill.toNat = f
    generalize w.count = c
    bv_omega
  · rw [if_neg hr, Window.append_of_full hr, Window.base]
    generalize BitVec.ofNat 32 w.fill.toNat = f
    generalize w.count = c
    bv_omega

@[simp] theorem Window.copy_zero (n d : Nat) (w : Window) : w.copy n d 0 = (w, []) := rfl

theorem Window.copy_succ (n d l : Nat) (w : Window) :
    w.copy n d (l + 1) =
      (((w.append n (w.byte n (w.fill.toNat - d))).copy n d l).1,
        w.byte n (w.fill.toNat - d) ::
          ((w.append n (w.byte n (w.fill.toNat - d))).copy n d l).2) := rfl

@[simp] theorem Window.length_copy (n d l : Nat) (w : Window) : (w.copy n d l).2.length = l := by
  induction l generalizing w with
  | zero => rfl
  | succ l ih => rw [Window.copy_succ]; simp [ih]

/-- Copying keeps the geometry. -/
theorem Window.Ok.copy {n : Nat} {w : Window} (h : w.Ok n) (d l : Nat) : (w.copy n d l).1.Ok n := by
  induction l generalizing w with
  | zero => exact h
  | succ l ih => exact ih (h.append _)

/-- WCOUNT counts every byte copied (R40). -/
theorem Window.count_copy (n d l : Nat) (w : Window) :
    (w.copy n d l).1.count = w.count + BitVec.ofNat 32 l := by
  induction l generalizing w with
  | zero => simp
  | succ l ih =>
    rw [Window.copy_succ, ih, Window.append_count, BitVec.ofNat_add]
    generalize BitVec.ofNat 32 l = f
    generalize w.count = c
    bv_omega

/-- Copying is appending the copied bytes one after another. -/
theorem Window.copy_eq_foldl (n d l : Nat) (w : Window) :
    (w.copy n d l).1 = (w.copy n d l).2.foldl (fun w b => w.append n b) w := by
  induction l generalizing w with
  | zero => rfl
  | succ l ih => rw [Window.copy_succ, ih]; rfl

/-- An append as a sequence, full or not: the new byte at the end, and what no longer fits dropped at the
front (R170). -/
theorem Window.bytes_append_drop {n : Nat} {w : Window} (h : w.Ok n) (b : Byte) :
    (w.append n b).bytes n = (w.bytes n ++ [b]).drop (w.fill.toNat + 1 - n) := by
  rw [Window.bytes_append h]
  have := h.fill
  by_cases hr : w.fill.toNat < n
  · rw [if_pos hr, show w.fill.toNat + 1 - n = 0 by omega]; rfl
  · rw [if_neg hr, show w.fill.toNat + 1 - n = 1 by omega, List.drop_one]

/-- The window after a copy holds the copied bytes at its end (R197). -/
theorem Window.bytes_copy {n : Nat} {w : Window} (h : w.Ok n) (d l : Nat) :
    (w.copy n d l).1.bytes n = (w.bytes n ++ (w.copy n d l).2).drop (w.fill.toNat + l - n) := by
  induction l generalizing w with
  | zero => have := h.fill; simp [show w.fill.toNat - n = 0 by omega]
  | succ l ih =>
    rw [Window.copy_succ, ih (h.append _), Window.bytes_append_drop h]
    have hf := Window.fill_append h (w.byte n (w.fill.toNat - d))
    have hff := h.fill
    simp only [hf]
    generalize (Window.copy n d l (Window.append n (w.byte n (w.fill.toNat - d)) w)).2 = out
    rw [← List.drop_append_of_le_length (l₂ := out) (by simp), List.drop_drop, List.append_assoc,
      List.singleton_append]
    congr 1; omega

/-- Each byte copied is the byte `d` back in the history, its own output included (R197). -/
theorem Window.getElem?_copy {n : Nat} {w : Window} (h : w.Ok n) (d l j : Nat) (hd : 1 ≤ d)
    (hdf : d ≤ w.fill.toNat) (hj : j < l) :
    (w.copy n d l).2[j]? = (w.bytes n ++ (w.copy n d l).2)[w.fill.toNat + j - d]? := by
  induction l generalizing w j with
  | zero => omega
  | succ l ih =>
    have hf := Window.fill_append h (w.byte n (w.fill.toNat - d))
    have hff := h.fill
    rw [Window.copy_succ]
    cases j with
    | zero =>
      simp only [List.getElem?_cons_zero]
      rw [List.getElem?_append_left (by simp; omega), Nat.add_zero, Window.getElem?_bytes,
        if_pos (by omega)]
    | succ j =>
      simp only [List.getElem?_cons_succ]
      rw [ih (h.append _) j (by omega) (by omega), Window.bytes_append_drop h]
      generalize (Window.copy n d l (Window.append n (w.byte n (w.fill.toNat - d)) w)).2 = out
      rw [← List.drop_append_of_le_length (l₂ := out) (by simp), List.getElem?_drop,
        List.append_assoc, List.singleton_append]
      congr 1; omega

/-- The slot the next append writes is the one after the newest byte, in the ring (R170). -/
theorem Window.slot_eq {n : Nat} {w : Window} (h : w.Ok n) :
    w.slot n = (w.head.toNat + w.fill.toNat) % n := by
  rw [Window.slot]
  split
  · rfl
  · have := h.fill
    rw [show w.fill.toNat = n by omega, Nat.add_mod_right, Nat.mod_eq_of_lt h.head]

/-- An append moves the next slot on by one (R170). -/
theorem Window.slot_append {n : Nat} {w : Window} (h : w.Ok n) (b : Byte) :
    ((w.append n b).head.toNat + (w.append n b).fill.toNat) % n =
      (w.head.toNat + w.fill.toNat + 1) % n := by
  have hf := Window.fill_append h b
  have := h.fill
  by_cases hr : w.fill.toNat < n
  · rw [hf, Window.append_of_room hr]; simp only; congr 1; omega
  · rw [hf, Window.head_append_full h hr, Nat.mod_add_mod, show w.fill.toNat = n by omega,
      show min (n + 1) n = n by omega]
    congr 1; omega

end Sys2Proof.Machine
end

