-- ==== Sys2Proof/Laws/Search.lean ====
section
/-! SUPPORT. The laws of `find` (R172, R174, R191): what a hit of the naive scan says. -/

namespace Sys2Proof.Machine

theorem take_succ_getElem? {α : Type} {l : List α} {n : Nat} {x : α} (h : l[n]? = some x) :
    l.take (n + 1) = l.take n ++ [x] := by
  obtain ⟨hn, hx⟩ := List.getElem?_eq_some_iff.mp h
  rw [List.take_add_one, h]; rfl

/-- The cursor counts consecutive equal bytes ending at the byte before index k; a hit at j says that the
|p| bytes ending at j are p. -/
theorem scan_sound {p w : List Byte} {k cur j : Nat} (hcur : cur < p.length) (hle : cur ≤ k)
    (hm : (w.drop (k - cur)).take cur = p.take cur) (h : scan p (w.drop k) cur k = some j) :
    j < w.length ∧ p.length ≤ j + 1 ∧ (w.drop (j + 1 - p.length)).take p.length = p := by
  obtain ⟨n, hn⟩ : ∃ n, n = (w.drop k).length := ⟨_, rfl⟩
  induction n generalizing k cur with
  | zero =>
    rw [List.length_eq_zero_iff.mp hn.symm] at h
    simp [scan] at h
  | succ n ih =>
    have hk : k < w.length := by rw [List.length_drop] at hn; omega
    rw [List.drop_eq_getElem_cons hk, scan] at h
    have hn' : n = (w.drop (k + 1)).length := by rw [List.length_drop] at hn ⊢; omega
    split at h
    · rename_i hp
      have hget : (w.drop (k - cur))[cur]? = some w[k] := by
        rw [List.getElem?_drop, Nat.sub_add_cancel hle, List.getElem?_eq_getElem hk]
      have hm' : (w.drop (k - cur)).take (cur + 1) = p.take (cur + 1) := by
        rw [take_succ_getElem? hget, take_succ_getElem? hp, hm]
      split at h
      · rename_i hfull
        have hkj : k = j := by simpa using h
        subst hkj
        refine ⟨hk, by omega, ?_⟩
        have : k + 1 - p.length = k - cur := by omega
        rw [this, ← hfull, hm', hfull, List.take_length]
      · refine ih (by omega) (by omega) ?_ h hn'
        rw [Nat.add_sub_add_right, hm']
    · exact ih (by omega) (by omega) (by simp) h hn'

/-- What a hit of `find` says (R174): the pattern is the bytes of the window that end at index k, and the
answer is the absolute position of its first byte. -/
theorem Window.find_some {n : Nat} {p : List Byte} {w : Window} {f : Word} (h : w.find n p = some f) :
    ∃ k, k < w.fill.toNat ∧ 0 < p.length ∧ p.length ≤ k + 1 ∧
      f = w.base + BitVec.ofNat 32 (k + 1) - BitVec.ofNat 32 p.length ∧
      ((w.bytes n).drop (k + 1 - p.length)).take p.length = p := by
  unfold Window.find at h
  split at h
  · cases h
  · rename_i hp
    split at h
    · cases h
    · rename_i k hk
      cases h
      obtain ⟨h1, h2, h3⟩ :=
        scan_sound (p := p) (w := w.bytes n) (k := 0) (cur := 0) (by omega) (le_refl 0) (by simp) (by simpa using hk)
      exact ⟨k, by simpa using h1, by omega, h2, rfl, h3⟩

/-- The distance of a reference (R191) counts back from the end of the window to the last byte of the
match. -/
theorem cstepDistance_eq {p : List Byte} {s : State} {f : Word} {k : Nat} (hk : k < s.window.fill.toNat)
    (hf : f = s.window.base + BitVec.ofNat 32 (k + 1) - BitVec.ofNat 32 p.length) :
    cstepDistance p f s = s.window.fill.toNat - k := by
  have hfill := s.window.fill.isLt
  have : s.window.count - f - BitVec.ofNat 32 p.length + 1 =
      BitVec.ofNat 32 (s.window.fill.toNat - k) := by
    have hs : BitVec.ofNat 32 s.window.fill.toNat =
        BitVec.ofNat 32 (s.window.fill.toNat - k) + BitVec.ofNat 32 k := by
      rw [← BitVec.ofNat_add]; congr 1; omega
    rw [hf, Window.base, hs, BitVec.ofNat_add]
    generalize BitVec.ofNat 32 (s.window.fill.toNat - k) = x
    generalize BitVec.ofNat 32 k = y
    generalize BitVec.ofNat 32 p.length = z
    generalize s.window.count = c
    bv_omega
  rw [cstepDistance, this, BitVec.toNat_ofNat, Nat.mod_eq_of_lt (by omega)]

end Sys2Proof.Machine
end

