-- ==== Sys2Proof/Laws/Writer.lean ====
section
/-! SUPPORT. The laws of the bit writer (R25, R140): which bits it has taken, how many bytes it has pushed. -/

namespace Sys2Proof.Machine

@[simp] theorem pushBits_nil (acc : Bits) : pushBits acc [] = (acc, []) := rfl

/-- The bits of the bytes pushed and of the accumulator are the bits that went in, in order, and less than
a byte stays behind (R140). -/
theorem pushBits_stream (acc bs : Bits) (h : acc.length ≤ 7) :
    streamBits (pushBits acc bs).2 ++ (pushBits acc bs).1 = acc ++ bs ∧
      (pushBits acc bs).1.length ≤ 7 := by
  induction bs generalizing acc with
  | nil => simpa using h
  | cons b bs ih =>
    rw [pushBits]
    split
    · rename_i h8
      obtain ⟨h1, h2⟩ := ih [] (by simp)
      refine ⟨?_, h2⟩
      rw [streamBits_cons, byteBits_byteOf _ h8, List.append_assoc, h1]
      simp
    · rename_i h8
      obtain ⟨h1, h2⟩ := ih (acc ++ [b]) (by simp at h8 ⊢; omega)
      exact ⟨by rw [h1]; simp, h2⟩

/-- The number of bytes pushed and of bits kept (R140). -/
theorem pushBits_lengths (acc bs : Bits) (h : acc.length ≤ 7) :
    (pushBits acc bs).2.length = (acc.length + bs.length) / 8 ∧
      (pushBits acc bs).1.length = (acc.length + bs.length) % 8 := by
  obtain ⟨h1, h2⟩ := pushBits_stream acc bs h
  have := congrArg List.length h1
  simp only [List.length_append, length_streamBits] at this
  omega

/-- Appending in two goes is appending at once. -/
theorem pushBits_append (acc a b : Bits) :
    pushBits acc (a ++ b) =
      ((pushBits (pushBits acc a).1 b).1, (pushBits acc a).2 ++ (pushBits (pushBits acc a).1 b).2) := by
  induction a generalizing acc with
  | nil => simp
  | cons x a ih =>
    rw [List.cons_append, pushBits, pushBits]
    split
    · rw [ih]; rfl
    · rw [ih]

@[simp] theorem State.putBits_nil (s : State) : s.putBits [] = s := by
  simp [State.putBits]

theorem State.putBits_putBits (a b : Bits) (s : State) :
    (s.putBits a).putBits b = s.putBits (a ++ b) := by
  simp [State.putBits, pushBits_append, List.append_assoc]

theorem State.put_eq (v n : Nat) (s : State) : s.put v n = s.putBits (bitsOf n v) := rfl

/-- WLIT's `put(0, 1); put(b, 8)` writes the literal token of R100. -/
theorem State.put_lit (b : Byte) (s : State) :
    (s.put 0 1).put b.toNat 8 = s.putBits (tokenBits s.ctx (.lit b)) := by
  rw [State.put_eq, State.put_eq, State.putBits_putBits]
  rfl

/-- WREF's three puts write the reference token of R101. -/
theorem State.put_ref (d l : Nat) (s : State) :
    ((s.put 1 1).put d s.ctx.offb.toNat).put (l - s.ctx.mins) s.ctx.lenb.toNat =
      s.putBits (tokenBits s.ctx (.ref d l)) := by
  rw [State.put_eq, State.put_eq, State.put_eq, State.putBits_putBits, State.putBits_putBits]
  rfl

@[simp] theorem length_tokenBits_lit (c : Context) (b : Byte) : (tokenBits c (.lit b)).length = 9 := by
  simp [tokenBits]

@[simp] theorem length_tokenBits_ref (c : Context) (d l : Nat) :
    (tokenBits c (.ref d l)).length = 1 + c.ess := by
  simp [tokenBits, Context.ess]; omega

@[simp] theorem tokensBits_nil (c : Context) : tokensBits c [] = [] := rfl

@[simp] theorem tokensBits_cons (c : Context) (t : Token) (ts : List Token) :
    tokensBits c (t :: ts) = tokenBits c t ++ tokensBits c ts := by
  simp [tokensBits]

@[simp] theorem tokensBits_append (c : Context) (a b : List Token) :
    tokensBits c (a ++ b) = tokensBits c a ++ tokensBits c b := by
  simp [tokensBits]

/-- A run of literals costs 9 bits a byte (R144). -/
@[simp] theorem length_tokensBits_lits (c : Context) (p : List Byte) :
    (tokensBits c (p.map .lit)).length = 9 * p.length := by
  induction p with
  | nil => rfl
  | cons b p ih => simp [ih]; omega

end Sys2Proof.Machine
end

