-- ==== Sys2Proof/Laws/Attempt.lean ====
section
/-! SUPPORT. What performing a command can do, said once: `exec` is the stages of its command, then `finish`;
and for each command, what its stages committed when they answer `done`. -/

namespace Sys2Proof.Machine

@[simp] theorem finish_fault (s : State) (c : ErrCode) :
    finish s (.fault c) = .next (s.takeFault c s.lcmd) := rfl
@[simp] theorem finish_hold (s : State) (h : Hold) : finish s (.hold h) = .next s := rfl
@[simp] theorem finish_done (s t : State) : finish s (.done t) = .next t.complete := rfl

/-- Every arm of `exec` performs the stages of its command. -/
theorem exec_eq_finish (i : Instr) (s : State) : exec i s = finish s (attempt i s) := by
  cases i <;> rfl

/-- Everything a command can do (R133): fault, wait, or commit and complete. -/
theorem exec_cases (i : Instr) (s : State) :
    (∃ c, attempt i s = .fault c ∧ exec i s = .next (s.takeFault c s.lcmd)) ∨
    (∃ h, attempt i s = .hold h ∧ exec i s = .next s) ∨
    (∃ t, attempt i s = .done t ∧ exec i s = .next t.complete) := by
  rw [exec_eq_finish]
  cases h : attempt i s with
  | fault c => exact .inl ⟨c, rfl, rfl⟩
  | hold w => exact .inr (.inl ⟨w, rfl, rfl⟩)
  | done t => exact .inr (.inr ⟨t, rfl, rfl⟩)

theorem tryCfg_done {off len : Nat} {s t : State} (h : tryCfg off len s = .done t) :
    cfgLegal off len = true ∧ t = s.configure off len := by
  unfold tryCfg at h
  split at h
  · cases h; exact ⟨‹_›, rfl⟩
  · cases h

theorem tryWlit_done {b : Byte} {s t : State} (h : tryWlit b s = .done t) :
    s.cfgd = true ∧ s.wclosed = false ∧ s.coutNeed 9 ≤ s.coutFree ∧
      t = s.putBits (tokenBits s.ctx (.lit b)) := by
  unfold tryWlit at h
  split at h; · cases h
  split at h; · cases h
  split at h; · cases h
  cases h
  exact ⟨by simpa using ‹¬(!s.cfgd) = true›, by simpa using ‹¬s.wclosed = true›, by omega,
    State.put_lit b s⟩

theorem tryWref_done {d l : Nat} {s t : State} (h : tryWref d l s = .done t) :
    s.cfgd = true ∧ s.wclosed = false ∧ refLegal s.ctx d l = true ∧
      s.coutNeed (1 + s.ctx.ess) ≤ s.coutFree ∧ t = s.putBits (tokenBits s.ctx (.ref d l)) := by
  unfold tryWref at h
  split at h; · cases h
  split at h; · cases h
  split at h; · cases h
  split at h; · cases h
  cases h
  exact ⟨by simpa using ‹¬(!s.cfgd) = true›, by simpa using ‹¬s.wclosed = true›,
    by simpa using ‹¬(!refLegal s.ctx d l) = true›, by omega, State.put_ref d l s⟩

theorem tryWclose_done {s t : State} (h : tryWclose s = .done t) :
    s.cfgd = true ∧ s.wclosed = false ∧ s.closeNeed ≤ s.coutFree ∧
      t = { s.putBits (bitsOf s.padBits 0) with wclosed := true } := by
  unfold tryWclose at h
  split at h; · cases h
  split at h; · cases h
  split at h; · cases h
  cases h
  exact ⟨by simpa using ‹¬(!s.cfgd) = true›, by simpa using ‹¬s.wclosed = true›, by omega, rfl⟩

theorem tryRtok_done {s t : State} (h : tryRtok s = .done t) :
    s.cfgd = true ∧ s.rclosed = false ∧
      ((s.peek = .eos ∧ t = s.answerEos) ∨
        ∃ tok k, s.peek = .token tok k ∧ t = (s.consume k).answerToken tok) := by
  unfold tryRtok at h
  split at h; · cases h
  split at h; · cases h
  refine ⟨by simpa using ‹¬(!s.cfgd) = true›, by simpa using ‹¬s.rclosed = true›, ?_⟩
  split at h <;> cases h
  · exact .inl ⟨‹_›, rfl⟩
  · exact .inr ⟨_, _, ‹_›, rfl⟩

theorem tryRclose_done {s t : State} (h : tryRclose s = .done t) :
    s.cfgd = true ∧ s.rclosed = false ∧ allZero s.unread = true ∧
      t = { s with rbuf := [], cin := [], rclosed := true } := by
  unfold tryRclose at h
  split at h; · cases h
  split at h; · cases h
  split at h; · cases h
  cases h
  exact ⟨by simpa using ‹¬(!s.cfgd) = true›, by simpa using ‹¬s.rclosed = true›,
    by simpa using ‹¬(!allZero s.unread) = true›, rfl⟩

theorem tryWext_done {b : Byte} {s t : State} (h : tryWext b s = .done t) :
    s.cfgd = true ∧ t = s.append b := by
  unfold tryWext at h
  split at h <;> cases h
  exact ⟨by simpa using ‹¬(!s.cfgd) = true›, rfl⟩

theorem tryPclr_done {s t : State} (h : tryPclr s = .done t) :
    s.cfgd = true ∧ t = { s with pat := [] } := by
  unfold tryPclr at h
  split at h <;> cases h
  exact ⟨by simpa using ‹¬(!s.cfgd) = true›, rfl⟩

theorem tryPpush_done {b : Byte} {s t : State} (h : tryPpush b s = .done t) :
    s.cfgd = true ∧ s.pat.length ≠ patCap ∧ t = { s with pat := s.pat ++ [b] } := by
  unfold tryPpush at h
  split at h; · cases h
  split at h; · cases h
  cases h
  exact ⟨by simpa using ‹¬(!s.cfgd) = true›, by simpa [patFull] using ‹¬patFull s = true›, rfl⟩

theorem tryWfind_done {s t : State} (h : tryWfind s = .done t) :
    s.cfgd = true ∧ t = s.answerFind (s.find s.pat) := by
  unfold tryWfind at h
  split at h <;> cases h
  exact ⟨by simpa using ‹¬(!s.cfgd) = true›, rfl⟩

/-- What a CSTEP commits (R190): it carries pending on and emits nothing, or finalizes it into tokens. -/
theorem tryCstep_done {b next : Byte} {last : Bool} {s t : State}
    (h : tryCstep b next last s = .done t) :
    s.cfgd = true ∧ s.wclosed = false ∧ s.pat.length ≠ patCap ∧
      ((cstepCarries (s.pat ++ [b]) next last s = true ∧ t = s.commitStep (s.pat ++ [b]) [] b) ∨
        ∃ ts, cstepCarries (s.pat ++ [b]) next last s = false ∧
          cstepFinal (s.pat ++ [b]) s = some ts ∧
          s.coutNeed (tokensBits s.ctx ts).length ≤ s.coutFree ∧
          t = s.commitStep [] (tokensBits s.ctx ts) b) := by
  unfold tryCstep at h
  split at h; · cases h
  split at h; · cases h
  split at h; · cases h
  refine ⟨by simpa using ‹¬(!s.cfgd) = true›, by simpa using ‹¬s.wclosed = true›,
    by simpa [patFull] using ‹¬patFull s = true›, ?_⟩
  split at h
  · split at h <;> cases h
    exact .inl ⟨‹_›, rfl⟩
  · split at h
    · cases h
    · split at h <;> cases h
      exact .inr ⟨_, by simpa using ‹¬cstepCarries _ _ _ _ = true›, ‹_›, by omega, rfl⟩

theorem tryDstep_done {s t : State} (h : tryDstep s = .done t) :
    s.cfgd = true ∧ s.rclosed = false ∧
      ((s.peek = .eos ∧ t = s.answerEos) ∨
        ∃ tok k, s.peek = .token tok k ∧ tokenUsable s tok = true ∧ tokenYield tok ≤ s.routFree ∧
          t = ((s.consume k).replay tok).answerToken tok) := by
  unfold tryDstep at h
  split at h; · cases h
  split at h; · cases h
  refine ⟨by simpa using ‹¬(!s.cfgd) = true›, by simpa using ‹¬s.rclosed = true›, ?_⟩
  split at h
  · cases h
  · cases h
  · cases h; exact .inl ⟨‹_›, rfl⟩
  · split at h
    · cases h
    · split at h <;> cases h
      exact .inr ⟨_, _, ‹_›, by simpa using ‹¬(!tokenUsable _ _) = true›, by omega, rfl⟩

/-- The finalize cases of R192. -/
theorem cstepFinal_some {p : List Byte} {s : State} {ts : List Token} (h : cstepFinal p s = some ts) :
    ts = p.map .lit ∨
      ∃ f, s.find p = some f ∧ 2 ≤ p.length ∧ s.ctx.mins ≤ p.length ∧
        cstepDistance p f s < s.ctx.wsize ∧ p.length ≤ s.ctx.maxs ∧
        ts = [.ref (cstepDistance p f s) p.length] := by
  unfold cstepFinal at h
  split at h
  · rename_i f hf
    split at h
    · rename_i hm
      split at h <;> cases h
      rename_i hd
      exact .inr ⟨f, hf, hm.1, hm.2, hd.1, hd.2, rfl⟩
    · cases h; exact .inl rfl
  · cases h; exact .inl rfl

/-- The block's turn: it performs the latched command, or stays as it is. -/
theorem blockTurn_latched {s : State} (hb : s.busy = true) (hf : s.fault = false) :
    blockTurn s = performWord s.lcmd s := by
  simp [blockTurn, State.latched, hb, hf]

theorem blockTurn_idle {s : State} (h : s.busy = false ∨ s.fault = true) : blockTurn s = .next s := by
  rcases h with h | h <;> simp [blockTurn, State.latched, h]

/-- Everything the block's turn can do: it always answers a next state. -/
theorem blockTurn_cases (s : State) :
    (s.latched = none ∧ blockTurn s = .next s) ∨
    (s.busy = true ∧ s.fault = false ∧
      ((∃ r, decode s.lcmd = .error r ∧ blockTurn s = .next (s.takeFault .illegalCmd s.lcmd)) ∨
        ∃ i, decode s.lcmd = .ok i ∧ blockTurn s = exec i s)) := by
  cases hb : s.busy <;> cases hf : s.fault
  · exact .inl ⟨by simp [State.latched, hb], blockTurn_idle (.inl hb)⟩
  · exact .inl ⟨by simp [State.latched, hb], blockTurn_idle (.inl hb)⟩
  · refine .inr ⟨rfl, rfl, ?_⟩
    rw [blockTurn_latched hb hf, performWord]
    cases hd : decode s.lcmd with
    | error r => exact .inl ⟨r, rfl, rfl⟩
    | ok i => exact .inr ⟨i, rfl, rfl⟩
  · exact .inl ⟨by simp [State.latched, hf], blockTurn_idle (.inr hf)⟩

end Sys2Proof.Machine
end

