-- ==== Sys2Proof/Laws/Decode.lean ====
section
/-! SUPPORT. Small lemmas of the decoder: what a field of a word is, and one row of the decode chain. -/

namespace Sys2Proof

theorem field_eq (w : Word) (hi lo : Nat) : field w hi lo = w.toNat / 2 ^ lo % 2 ^ (hi + 1 - lo) := rfl

/-- A field of a word that is given as a number. -/
theorem field_ofNat {n : Nat} (h : n < 2 ^ 32) (hi lo : Nat) :
    field (BitVec.ofNat 32 n) hi lo = n / 2 ^ lo % 2 ^ (hi + 1 - lo) := by
  rw [field_eq, BitVec.toNat_ofNat, Nat.mod_eq_of_lt h]

/-- One row of the decode chain: the row's command, or the rows after it. -/
theorem decode_row {p : Prop} [Decidable p] {a i : Instr} {e : Except Reject Instr}
    (h : (if p then .ok a else e) = .ok i) : (p ∧ i = a) ∨ (¬p ∧ e = .ok i) := by
  by_cases hp : p
  · rw [if_pos hp] at h; exact .inl ⟨hp, (Except.ok.inj h).symm⟩
  · rw [if_neg hp] at h; exact .inr ⟨hp, h⟩

/-- A word that `encodeNat` gives for a well-formed command fits 32 bits (R106). -/
theorem encodeNat_lt {i : Instr} (h : i.wellFormed = true) : encodeNat i < 2 ^ 32 := by
  cases i <;> simp [Instr.wellFormed] at h <;> simp [encodeNat] <;> try omega
  case cstep b n l =>
    have := b.isLt
    have := n.isLt
    cases l <;> simp <;> omega

end Sys2Proof
end

