-- ==== Sys2Proof/Laws/Registers.lean ====
section
/-! SUPPORT. The laws of host accesses (R70 to R72): which register an access reaches and what it does. -/

namespace Sys2Proof.Machine

theorem Reg.offset_bounds (r : Reg) : r.offset < 256 ∧ r.offset % 4 = 0 := by
  cases r <;> decide

@[simp] theorem Reg.ofOffset_offset (r : Reg) : Reg.ofOffset r.offset = some r := by
  cases r <;> rfl

/-- An offset that reaches a register is that register's. -/
theorem Reg.eq_offset_of_ofOffset {n : Nat} {r : Reg} (h : Reg.ofOffset n = some r) :
    n = r.offset := by
  unfold Reg.ofOffset at h
  split at h <;> cases h <;> rfl

/-- A 32-bit write at a register's address. -/
theorem hostAccess_write (s : State) (r : Reg) (v : Word) (h : s.params.blockBase % 256 = 0) :
    hostAccess (.write (s.params.blockBase + r.offset) 4 v) s = .next (writeReg r v s) := by
  have h1 := r.offset_bounds
  simp only [hostAccess]
  rw [if_neg (by simp [inWindow]; omega), if_neg (by simp [accessSupported]; omega),
    Nat.add_sub_cancel_left, writeOffset, Reg.ofOffset_offset]

/-- A 32-bit read at a register's address. -/
theorem hostAccess_read (s : State) (r : Reg) (h : s.params.blockBase % 256 = 0) :
    hostAccess (.read (s.params.blockBase + r.offset) 4) s =
      .next { readEffect r s with
        reads := s.reads ++ [⟨s.params.blockBase + r.offset, readValue r s⟩] } := by
  have h1 := r.offset_bounds
  simp only [hostAccess]
  rw [if_neg (by simp [inWindow]; omega), if_neg (by simp [accessSupported]; omega),
    Nat.add_sub_cancel_left, readOffset, Reg.ofOffset_offset]

/-- Everything an access that goes on can be: a read or a write inside the window. -/
theorem hostAccess_cases {a : HostAccess} {s t : State} (h : hostAccess a s = .next t) :
    (∃ addr w, a = .read addr w ∧ t = readOffset addr (addr - s.params.blockBase) s ∧
      s.params.blockBase ≤ addr ∧ addr < s.params.blockBase + 256) ∨
    (∃ addr w v, a = .write addr w v ∧ t = writeOffset (addr - s.params.blockBase) v s ∧
      s.params.blockBase ≤ addr ∧ addr < s.params.blockBase + 256) := by
  cases a with
  | read addr w =>
    simp only [hostAccess] at h
    split at h; · cases h
    split at h; · cases h
    rename_i h1 _
    cases h
    simp [inWindow] at h1
    exact .inl ⟨_, _, rfl, rfl, h1⟩
  | write addr w v =>
    simp only [hostAccess] at h
    split at h; · cases h
    split at h; · cases h
    rename_i h1 _
    cases h
    simp [inWindow] at h1
    exact .inr ⟨_, _, _, rfl, rfl, h1⟩

/-- All a host access that goes on can change: a write of CTRL with SRST set resets the block, and every other
access leaves all but the FIFOs, EOF, the fault registers, BUSY, LCMD and the record of reads. -/
theorem hostAccess_frame {a : HostAccess} {s t : State} (h : hostAccess a s = .next t) :
    ((Turn.access a).resets s.params = true ∧ t = s.hardReset) ∨
    ((Turn.access a).resets s.params = false ∧
      t = { s with cout := t.cout, cin := t.cin, rout := t.rout, eof := t.eof, fault := t.fault
                   errcode := t.errcode, errcmd := t.errcmd, busy := t.busy, lcmd := t.lcmd
                   reads := t.reads }) := by
  obtain ⟨addr, w, rfl, rfl, -⟩ | ⟨addr, w, v, rfl, rfl, h1, -⟩ := hostAccess_cases h
  · refine .inr ⟨rfl, ?_⟩
    simp only [readOffset]
    split
    · rename_i r _; cases r <;> rfl
    · rfl
  · simp only [writeOffset]
    split
    · rename_i r hr
      have ho := Reg.eq_offset_of_ofOffset hr
      by_cases hc : r = .ctrl
      · subst hc
        have ha : addr = s.params.blockBase + Reg.ctrl.offset := by omega
        simp only [writeReg, writeCtrl]
        split
        · rename_i hv; exact .inl ⟨by simp [Turn.resets, ha, hv], rfl⟩
        · rename_i hv; exact .inr ⟨by simp [Turn.resets, hv], rfl⟩
      · have hn : addr ≠ s.params.blockBase + Reg.ctrl.offset := fun ha => by
          rw [ha, Nat.add_sub_cancel_left, Reg.ofOffset_offset] at hr
          exact hc (Option.some.inj hr).symm
        refine .inr ⟨by simp [Turn.resets, hn], ?_⟩
        cases r with
        | ctrl => exact absurd rfl hc
        | _ =>
          simp only [writeReg, writeCmd, writeCinData, writeCinEof]
          repeat' split
          all_goals rfl
    · rename_i hr
      have hn : addr ≠ s.params.blockBase + Reg.ctrl.offset := fun ha => by
        rw [ha, Nat.add_sub_cancel_left, Reg.ofOffset_offset] at hr
        cases hr
      exact .inr ⟨by simp [Turn.resets, hn], rfl⟩

theorem getLsbD_zero_iff (v : Word) : v.getLsbD 0 = true ↔ v.toNat % 2 = 1 := by
  rw [BitVec.getLsbD, Nat.testBit_zero]; simp

end Sys2Proof.Machine
end

