-- ==== Sys2Proof/Laws/HostSide.lean ====
section
/-! SUPPORT. Laws of the host's commands and programs: one command on an idle block, one round of a poll, and the
CFG issued for a pair of widths. -/

namespace Sys2Proof.Machine

/-- A command issued to an idle, fault-free block is its meaning, with its word latched. -/
theorem hostCommand_of_exec {i : Instr} {s t : State} (hb : s.busy = false) (hf : s.fault = false)
    (hd : decode (encode i) = .ok i)
    (he : exec i { s with lcmd := encode i, busy := true } = .next t) : hostCommand i s = some t := by
  have hw : writeCmd (encode i) s = { s with lcmd := encode i, busy := true } := by
    simp [writeCmd, hb, hf]
  have hbt : blockTurn (writeCmd (encode i) s) = .next t := by
    rw [hw, blockTurn_latched (s := { s with lcmd := encode i, busy := true }) rfl hf, performWord, hd]
    exact he
  rw [hostCommand, hbt]

/-- Bit 0 of STATUS is BUSY (R49). -/
theorem field_status_busy (s : State) : field (readValue .status s) 0 0 = s.busy.toNat := by
  have hb : s.busy.toNat < 2 := by cases s.busy <;> decide
  simp only [readValue, State.statusWord, place, field, BitVec.toNat_ofNat]
  omega

/-- One round of `poll BUSY=0` (R112): the block's turn and one read of STATUS, after which the program goes on
exactly when BUSY = 0. -/
theorem HostRun.step_poll {rest : List HostOp} {s t : State} (h : blockTurn s = .next t)
    (hbase : t.params.blockBase % 256 = 0) :
    HostRun.step ⟨.poll :: rest, s⟩ = .next
      ⟨if t.busy then .poll :: rest else rest,
        { t with reads := t.reads ++ [⟨t.params.blockBase + Reg.status.offset, readValue .status t⟩] }⟩ := by
  simp only [HostRun.step, h, hostAccess_read t .status hbase, field_status_busy]
  cases hb : t.busy <;> simp [hb, readEffect]

@[simp] theorem drainOld_cout (s : State) : (drainOld s).cout = [] := rfl
@[simp] theorem drainOld_rout (s : State) : (drainOld s).rout = [] := rfl
@[simp] theorem drainOld_busy (s : State) : (drainOld s).busy = s.busy := rfl
@[simp] theorem drainOld_fault (s : State) : (drainOld s).fault = s.fault := rfl
@[simp] theorem drainOld_params (s : State) : (drainOld s).params = s.params := rfl

/-- Draining leaves a state with nothing in the output FIFOs as it is. -/
theorem drainOld_of_empty {s : State} (hc : s.cout = []) (hr : s.rout = []) : drainOld s = s := by
  cases s; cases hc; cases hr; rfl

/-- Draining keeps the invariant (R30: only the FIFOs get shorter). -/
theorem drainOld_inv {s : State} (h : s.Inv) : (drainOld s).Inv :=
  { h with
    preSession := fun hc =>
      have ⟨hw, hb, hp, _, _, hf⟩ := h.preSession hc
      ⟨hw, hb, hp, rfl, rfl, hf⟩
    coutFits := Nat.zero_le _
    routFits := Nat.zero_le _ }

theorem cfgOperand_lt (n : Nat) : cfgOperand n < 256 := by unfold cfgOperand; omega

theorem cfgOperand_of_lt {n : Nat} (h : n < 256) : cfgOperand n = n := by unfold cfgOperand; omega

theorem contextCommand_wellFormed (off len : Nat) : (contextCommand off len).wellFormed = true := by
  simp [contextCommand, Instr.wellFormed, cfgOperand_lt]

/-- Widths that fit their fields are issued as they are. -/
theorem contextCommand_of_lt {off len : Nat} (ho : off < 256) (hl : len < 256) :
    contextCommand off len = .cfg off len := by
  simp [contextCommand, cfgOperand_of_lt ho, cfgOperand_of_lt hl]

/-- The widths issued are legal exactly when the widths given are. -/
theorem cfgLegal_cfgOperand (off len : Nat) :
    cfgLegal (cfgOperand off) (cfgOperand len) = cfgLegal off len := by
  have ho : (1 ≤ cfgOperand off ↔ 1 ≤ off) ∧ (cfgOperand off ≤ 15 ↔ off ≤ 15) := by
    unfold cfgOperand; omega
  have hl : (1 ≤ cfgOperand len ↔ 1 ≤ len) ∧ (cfgOperand len ≤ 8 ↔ len ≤ 8) := by
    unfold cfgOperand; omega
  simp [cfgLegal, ho, hl]

end Sys2Proof.Machine
end

