-- ==== Sys2Proof/Laws/Invariant.lean ====
section
/-! SUPPORT. Each named update keeps the invariant of Safety.lean, one lemma per update. -/

namespace Sys2Proof.Machine

/-- Fault entry keeps the invariant (R232). -/
theorem State.Inv.takeFault {s : State} (h : s.Inv) {c : ErrCode} (hc : c ≠ .noFault) (v : Word) :
    (s.takeFault c v).Inv := by
  cases h
  constructor <;> first | assumption | simp_all

/-- Completing keeps the invariant (R47). -/
theorem State.Inv.complete {s : State} (h : s.Inv) : s.complete.Inv := by
  cases h
  constructor <;> first | assumption | simp_all

/-- Latching a command keeps the invariant (R48). -/
theorem State.Inv.latch {s : State} (h : s.Inv) (hf : s.fault = false) (v : Word) :
    ({ s with lcmd := v, busy := true } : State).Inv := by
  cases h
  constructor <;> first | assumption | simp_all

/-- The schedule is no part of the invariant. -/
theorem State.Inv.setTurns {s : State} (h : s.Inv) (ts : List Turn) :
    ({ s with turns := ts } : State).Inv := by
  cases h
  constructor <;> assumption

/-- The record of reads is no part of the invariant. -/
theorem State.Inv.setReads {s : State} (h : s.Inv) (rs : List ReadBack) :
    ({ s with reads := rs } : State).Inv := by
  cases h
  constructor <;> assumption

/-- Setting EOF keeps the invariant (R57). -/
theorem State.Inv.setEof {s : State} (h : s.Inv) : ({ s with eof := true } : State).Inv := by
  cases h
  constructor <;> assumption

/-- Reset keeps the invariant (R60). -/
theorem State.Inv.hardReset {s : State} (h : s.Inv) : s.hardReset.Inv := by
  have hp := h.params
  constructor <;> first
    | exact hp
    | decide
    | simp [Window.empty, Context.wsize, Window.base, Memory.wf, Memory.rising]

/-- A legal CFG keeps the invariant (R131). -/
theorem State.Inv.configure {s : State} (h : s.Inv) (off len : Nat)
    (hl : cfgLegal off len = true) : (s.configure off len).Inv := by
  simp [cfgLegal] at hl
  have ho : off % 16 = off := Nat.mod_eq_of_lt (by omega)
  have hn : len % 16 = len := Nat.mod_eq_of_lt (by omega)
  have hw : 0 < 2 ^ off := Nat.two_pow_pos _
  have := h.params
  have := h.coutFits
  have := h.routFits
  have := h.ramWf
  constructor <;> first
    | assumption
    | exact h.faultCode
    | exact h.errcmdZero
    | exact h.faultIdle
    | (simp_all [Window.empty, Context.wsize, Window.base]; done)
    | (simp_all; omega)

/-- Appending bits that COUT has room for keeps the invariant (R140). -/
theorem State.Inv.putBits {s : State} (h : s.Inv) (bs : Bits) (hc : s.cfgd = true)
    (hw : s.wclosed = false) (hf : s.coutNeed bs.length ≤ s.coutFree) : (s.putBits bs).Inv := by
  obtain ⟨hl, -⟩ := pushBits_lengths s.wacc bs h.waccShort
  have h7 := (pushBits_stream s.wacc bs h.waccShort).2
  have hfit := h.coutFits
  have hcout : (s.putBits bs).cout.length ≤ s.params.coutDepth := by
    simp [State.coutNeed, State.coutFree] at *; omega
  cases h
  constructor <;> first | assumption | simp_all

/-- Closing the writer keeps the invariant (R143). -/
theorem State.Inv.closeWriter {s : State} (h : s.Inv) (hc : s.cfgd = true)
    (hf : s.closeNeed ≤ s.coutFree) :
    ({ s.putBits (bitsOf s.padBits 0) with wclosed := true } : State).Inv := by
  have hl := pushBits_lengths s.wacc (bitsOf s.padBits 0) h.waccShort
  have h7 := h.waccShort
  have hfit := h.coutFits
  have hnone : (pushBits s.wacc (bitsOf s.padBits 0)).1.length = 0 := by
    rw [hl.2, length_bitsOf, State.padBits]; split <;> omega
  have hroom : (pushBits s.wacc (bitsOf s.padBits 0)).2.length ≤ s.coutFree := by
    rw [hl.1, length_bitsOf, State.padBits]
    rw [State.closeNeed] at hf
    split <;> split at hf <;> omega
  rw [State.coutFree] at hroom
  have hcout : (s.putBits (bitsOf s.padBits 0)).cout.length ≤ s.params.coutDepth := by
    simp; omega
  have hnil := List.length_eq_zero_iff.mp hnone
  clear hl
  cases h
  constructor <;> first | assumption | simp_all

/-- Appending to the window keeps the invariant (R170). -/
theorem State.Inv.append {s : State} (h : s.Inv) (b : Byte) (hc : s.cfgd = true) :
    (s.append b).Inv := by
  have ho := h.windowOk
  have ho' := ho.append b
  have hring : (s.window.append s.ctx.wsize b).head.toNat =
      (s.window.append s.ctx.wsize b).base.toNat % s.ctx.wsize := by
    rw [Window.base_append ho b]
    by_cases hr : s.window.fill.toNat < s.ctx.wsize
    · rw [if_pos hr, Window.append_of_room hr]; exact h.ring
    · rw [if_neg hr, Window.head_append_full ho hr, h.ring, BitVec.toNat_add]
      have hd : s.ctx.wsize ∣ 2 ^ 32 :=
        Nat.pow_dvd_pow 2 (by have := s.ctx.offb.isLt; omega)
      rw [Nat.mod_mod_of_dvd _ hd]
      simp [Nat.add_mod]
  have hyoung : (s.window.append s.ctx.wsize b).fill.toNat < s.ctx.wsize →
      (s.window.append s.ctx.wsize b).head = 0 ∧
        (s.window.append s.ctx.wsize b).count.toNat =
          (s.window.append s.ctx.wsize b).fill.toNat := by
    intro hlt
    have hfa := Window.fill_append ho b
    have hr : s.window.fill.toNat < s.ctx.wsize := by omega
    have hy := h.young hr
    have hcap := ho.cap
    simp [ramBytes] at hcap
    rw [Window.fill_append_room ho hr, Window.append_count, BitVec.toNat_add, hy.2]
    refine ⟨by rw [Window.append_of_room hr]; exact hy.1, ?_⟩
    simp; omega
  cases h
  constructor <;> first
    | assumption
    | exact ho'.ram
    | exact ho'.head
    | exact ho'.fill
    | simp_all

/-- Consuming unread bits keeps the invariant (R29). -/
theorem State.Inv.consume {s : State} (h : s.Inv) (k : Nat) (hc : s.cfgd = true)
    (hr : s.rclosed = false) (hk : k ≤ s.unread.length) : (s.consume k).Inv := by
  have h7 := (State.length_rbuf_consume s k h.rbufShort hk).2
  have hfit := h.cinFits
  simp only [State.consume_rbuf] at h7
  cases h
  constructor <;> first | assumption | (simp_all; done) | (simp_all; omega)

/-- The end-of-stream answer keeps the invariant (R153). -/
theorem State.Inv.answerEos {s : State} (h : s.Inv) : s.answerEos.Inv := by
  cases h
  constructor <;> first | assumption | simp_all

/-- A token's answer keeps the invariant (R153). -/
theorem State.Inv.answerToken {s : State} (h : s.Inv) (t : Token) : (s.answerToken t).Inv := by
  cases h
  cases t <;> constructor <;> first | assumption | simp_all

/-- WFIND's answer keeps the invariant (R173). -/
theorem State.Inv.answerFind {s : State} (h : s.Inv) (r : Option Word) : (s.answerFind r).Inv := by
  cases h
  cases r <;> constructor <;> assumption

/-- A pattern that fits PAT keeps the invariant (R44). -/
theorem State.Inv.setPat {s : State} (h : s.Inv) (p : List Byte) (hc : s.cfgd = true)
    (hl : p.length ≤ patCap) : ({ s with pat := p } : State).Inv := by
  cases h
  constructor <;> first | assumption | simp_all

/-- Bytes that fit ROUT keep the invariant (R30). -/
theorem State.Inv.setRout {s : State} (h : s.Inv) (r : List Byte) (hc : s.cfgd = true)
    (hl : r.length ≤ s.params.routDepth) : ({ s with rout := r } : State).Inv := by
  cases h
  constructor <;> first | assumption | simp_all

/-- A copy keeps the invariant (R197). -/
theorem State.Inv.copy {s : State} (h : s.Inv) (hc : s.cfgd = true) (d l : Nat) :
    ({ s with window := (s.window.copy s.ctx.wsize d l).1 } : State).Inv := by
  induction l generalizing s with
  | zero => simpa using h
  | succ l ih => exact ih (h.append _ hc) hc

/-- Replaying a token that ROUT has room for keeps the invariant (R197). -/
theorem State.Inv.replay {s : State} (h : s.Inv) (hc : s.cfgd = true) (t : Token)
    (hy : tokenYield t ≤ s.routFree) : (s.replay t).Inv := by
  have hfit := h.routFits
  cases t with
  | lit b =>
    exact (h.append b hc).setRout (s.rout ++ [b]) hc
      (by simp [tokenYield, State.routFree] at *; omega)
  | ref d l =>
    exact (h.copy hc d l).setRout (s.rout ++ (s.window.copy s.ctx.wsize d l).2) hc
      (by simp [tokenYield, State.routFree] at *; omega)

/-- Closing the reader keeps the invariant (R155). -/
theorem State.Inv.closeReader {s : State} (h : s.Inv) (hc : s.cfgd = true) :
    ({ s with rbuf := [], cin := [], rclosed := true } : State).Inv := by
  cases h
  constructor <;> first | assumption | simp_all

/-- A fault of a command has a code (R230). -/
theorem attempt_fault_ne {i : Instr} {s : State} {c : ErrCode} (hd : attempt i s = .fault c) :
    c ≠ .noFault := by
  rintro rfl
  cases i <;>
    simp [attempt, tryNop, tryCfg, tryWlit, tryWref, tryWclose, tryRtok, tryRclose, tryWext,
      tryPclr, tryPpush, tryWfind, tryCstep, tryDstep] at hd <;>
    (repeat' split at hd) <;> cases hd

end Sys2Proof.Machine
end

