-- ==== Sys2Proof/Laws/PerInstr.lean ====
section
/-! SUPPORT. The family OpcodeBits: for every command, bits [31:28] of its word are its opcode (R106, R108). -/

namespace Sys2Proof.Laws.OpcodeBits

/-- The opcode field of the word of a well-formed command is the command's opcode. -/
def Statement (i : Instr) : Prop := i.wellFormed = true → field (encode i) 31 28 = i.opcode

/-- The opcode field, from the number of the word. -/
theorem of_number {i : Instr} (h : i.wellFormed = true → encodeNat i / 2 ^ 28 = i.opcode) :
    Statement i := by
  intro hw
  have hlt := encodeNat_lt hw
  have ho := h hw
  rw [encode, field_ofNat hlt]
  have : encodeNat i / 2 ^ 28 < 16 := by omega
  rw [show 31 + 1 - 28 = 4 from rfl, Nat.mod_eq_of_lt (by omega), ho]

theorem nop : Statement .nop := of_number fun _ => rfl
theorem cfg (off len : Nat) : Statement (.cfg off len) := of_number fun h => by
  simp [Instr.wellFormed] at h
  simp only [encodeNat, Instr.opcode, Nat.reducePow]; omega
theorem wlit (b : Byte) : Statement (.wlit b) := of_number fun _ => by
  have := b.isLt
  simp only [encodeNat, Instr.opcode, Nat.reducePow]; omega
theorem wref (dist length : Nat) : Statement (.wref dist length) := of_number fun h => by
  simp [Instr.wellFormed] at h
  simp only [encodeNat, Instr.opcode, Nat.reducePow]; omega
theorem wclose : Statement .wclose := of_number fun _ => rfl
theorem rtok : Statement .rtok := of_number fun _ => rfl
theorem rclose : Statement .rclose := of_number fun _ => rfl
theorem wext (b : Byte) : Statement (.wext b) := of_number fun _ => by
  have := b.isLt
  simp only [encodeNat, Instr.opcode, Nat.reducePow]; omega
theorem pclr : Statement .pclr := of_number fun _ => rfl
theorem ppush (b : Byte) : Statement (.ppush b) := of_number fun _ => by
  have := b.isLt
  simp only [encodeNat, Instr.opcode, Nat.reducePow]; omega
theorem wfind : Statement .wfind := of_number fun _ => rfl
theorem cstep (b next : Byte) (last : Bool) : Statement (.cstep b next last) := of_number fun _ => by
  have := b.isLt
  have := next.isLt
  simp only [encodeNat, Instr.opcode, Nat.reducePow]
  cases last <;> simp <;> omega
theorem dstep : Statement .dstep := of_number fun _ => rfl

end Sys2Proof.Laws.OpcodeBits
end

