-- ==== Sys2Proof/Tests/Slice0.lean ====
section
/-! SUPPORT. The model's own tests: the well-formedness smoke test, decoding of words written out from
spec/30_encoding.md, one-step vectors of spec/95_test_vectors.md (cited at each test), and for every obligation
that has hypotheses a concrete state and operands that meet them. -/

set_option maxRecDepth 8000

namespace Sys2Proof.Tests

open Sys2Proof.Machine

/-! ### Helpers: small states -/

/-- Fresh, then a completed `CFG off, len`. -/
def session (off len : Nat) : State := State.reset.configure off len

/-- The session of most vectors, context (4, 3). -/
def s43 : State := session 4 3

/-- Bytes appended to the window, as by WEXT. -/
def withWindow (bs : List Byte) (s : State) : State := bs.foldl (fun t b => t.append b) s

/-- A latched command word. -/
def latched (w : Word) (s : State) : State := { s with lcmd := w, busy := true }

/-- Stream bytes in CIN, EOF as given. -/
def withCin (bs : List Byte) (eof : Bool) (s : State) : State := { s with cin := bs, eof := eof }

/-- The state a command answers. -/
def after (i : Instr) (s : State) : State :=
  match exec i s with
  | .next t => t
  | .fault _ => s
  | .refused _ => s

/-- The codes of the letters used below. -/
def chA : Byte := 0x61#8
def chB : Byte := 0x62#8
def chC : Byte := 0x63#8

/-- Window "abcab" in context (4, 3) (vector M7). -/
def sAbcab : State := withWindow [chA, chB, chC, chA, chB] s43

/-- The compressor before the last step of vector E1: window "abcabcab", pending "abcab", WACC `011`. -/
def sE1 : State :=
  { withWindow [chA, chB, chC, chA, chB, chC, chA, chB] s43 with
    pat := [chA, chB, chC, chA, chB], wacc := [false, true, true] }

/-- The decompressor before the third DSTEP of vector E12: window "aa", a reference (2, 8) next. -/
def sE12 : State := withCin [0x97#8] true (withWindow [chA, chA] s43)

/-- Full FIFOs: no room for a byte. -/
def coutFull (s : State) : State := { s with cout := List.replicate 512 0#8 }
def routFull (s : State) : State := { s with rout := List.replicate 512 0#8 }

theorem s43_inv : s43.Inv := by constructor <;> decide
theorem sAbcab_inv : sAbcab.Inv := by constructor <;> decide
theorem sE1_inv : sE1.Inv := by constructor <;> decide
theorem sE12_inv : sE12.Inv := by constructor <;> decide

/-! ### Well-formedness: each check refuses an ill-formed command -/

theorem test_wellformed_off : (Instr.cfg 256 4).wellFormed = false := by decide
theorem test_wellformed_len : (Instr.cfg 4 256).wellFormed = false := by decide
theorem test_wellformed_dist : (Instr.wref 32768 3).wellFormed = false := by decide
theorem test_wellformed_length : (Instr.wref 4 512).wellFormed = false := by decide

/-! ### Decoding: words written out field by field from R107 and R108 -/

theorem test_decode_nop : decode 0b00000000000000000000000000000000#32 = .ok .nop := by decide
/-- opcode 1, zeros, LEN 3, OFF 4 -/
theorem test_decode_cfg : decode 0b00010000000000000000001100000100#32 = .ok (.cfg 4 3) := by decide
/-- opcode 2, zeros, BYTE 0x41 -/
theorem test_decode_wlit : decode 0b00100000000000000000000001000001#32 = .ok (.wlit 0x41#8) := by
  decide
/-- opcode 3, zeros [27:24], LENGTH 8 in [23:15], DIST 15 in [14:0] (vector W6, 0x3004000F) -/
theorem test_decode_wref : decode 0b00110000000001000000000000001111#32 = .ok (.wref 15 8) := by
  decide
theorem test_decode_wclose : decode 0b01000000000000000000000000000000#32 = .ok .wclose := by decide
theorem test_decode_rtok : decode 0b01010000000000000000000000000000#32 = .ok .rtok := by decide
theorem test_decode_rclose : decode 0b01100000000000000000000000000000#32 = .ok .rclose := by decide
/-- opcode 7, BYTE 1 (vector X10) -/
theorem test_decode_wext : decode 0b01110000000000000000000000000001#32 = .ok (.wext 1#8) := by decide
theorem test_decode_pclr : decode 0b10000000000000000000000000000000#32 = .ok .pclr := by decide
/-- opcode 9, BYTE 0xFF -/
theorem test_decode_ppush : decode 0b10010000000000000000000011111111#32 = .ok (.ppush 0xFF#8) := by
  decide
theorem test_decode_wfind : decode 0b10100000000000000000000000000000#32 = .ok .wfind := by decide
/-- opcode 0xB, LAST 0, NEXT 'b', BYTE 'a' (vector E1, 0xB0006261), then LAST 1 (0xB0010063) -/
theorem test_decode_cstep :
    decode 0b10110000000000000110001001100001#32 = .ok (.cstep 0x61#8 0x62#8 false) ∧
      decode 0b10110000000000010000000001100011#32 = .ok (.cstep 0x63#8 0#8 true) := by decide
theorem test_decode_dstep : decode 0b11000000000000000000000000000000#32 = .ok .dstep := by decide
/-- The illegal words of vector X8. -/
theorem test_decode_illegal :
    [0x00000001#32, 0xD0000000#32, 0xE0000000#32, 0xF0000000#32, 0x10010304#32, 0x20000141#32,
      0x40000001#32, 0xB0020000#32, 0x31000000#32].map (fun w => (decode w).toOption) =
    List.replicate 9 none := by decide
/-- The table's numbering: the row's word is the command word. -/
theorem test_table_word : decodeTableWord 32 0x30018004 = some (.wref 4 3) ∧
    decodeTableWord 32 0xD0000000 = none := by decide

/-! ### One-step vectors of spec/95_test_vectors.md -/

/-- X2 -/
theorem test_nop : (after .nop (latched 0#32 State.reset)) = State.reset := by decide
/-- X3 and S7 (level 2) -/
theorem test_cfg : readValue .ctx (after (.cfg 4 3) State.reset) = 0x10070304#32 ∧
    readValue .ctx2 (after (.cfg 12 4) State.reset) = 0x10000012#32 := by decide
/-- X5 -/
theorem test_cfg_bad : readValue .status (after (.cfg 16 4) s43) = 0x006#32 ∧
    readValue .ctx (after (.cfg 16 4) s43) = 0x10070304#32 := by decide
/-- S1 writer step 2 -/
theorem test_wlit : (after (.wlit 0x41#8) s43).cout = [0x20#8] ∧
    (after (.wlit 0x41#8) s43).wacc = [true] := by decide
/-- W14 -/
theorem test_wlit_closed :
    readValue .err (after (.wlit 1#8) { s43 with wclosed := true }) = 5#32 := by decide
/-- S1 writer step 3 -/
theorem test_wref : (after (.wref 4 3) { s43 with wacc := [true] }).cout = [0xD1#8] ∧
    (after (.wref 4 3) { s43 with wacc := [true] }).wacc = [false] := by decide
/-- W8 to W10 -/
theorem test_wref_bad : ∀ p ∈ [(16, 3), (4, 0), (4, 9)],
    readValue .err (after (.wref p.1 p.2) s43) = 4#32 := by decide
/-- W5 -/
theorem test_wclose : (after .wclose { s43 with wacc := [false, false, true] }).cout = [0x20#8] ∧
    readValue .status (after .wclose { s43 with wacc := [false, false, true] }) = 0x00C#32 := by
  decide
/-- S1 reader step 1 -/
theorem test_rtok : (after .rtok (withCin [0x20#8, 0xD1#8, 0#8] true s43)).resa = 0x41#32 ∧
    readValue .status (after .rtok (withCin [0x20#8, 0xD1#8, 0#8] true s43)) = 0x3824#32 := by decide
/-- R4 and R3 -/
theorem test_rtok_ref : (after .rtok (withCin [0x80#8] true s43)).resb = 1#32 ∧
    readValue .err (after .rtok (withCin [0#8] true s43)) = 7#32 := by decide
/-- R9 and R10 -/
theorem test_rclose :
    readValue .status (after .rclose (withCin [0#8, 0#8, 0#8] false s43)) = 0x014#32 ∧
      readValue .err (after .rclose (withCin [0x80#8] false s43)) = 8#32 := by decide
/-- M1: the fifth WEXT in a window of 4 evicts 'a' -/
theorem test_wext :
    (after (.wext 0x65#8) (withWindow [chA, chB, chC, 0x64#8] (session 2 1))).win =
      [chB, chC, 0x64#8, 0x65#8] ∧
    (after (.wext 0x65#8) (withWindow [chA, chB, chC, 0x64#8] (session 2 1))).window.base = 1#32 := by
  decide
/-- M17 -/
theorem test_pclr : readValue .wstat (after .pclr { s43 with pat := List.replicate 5 0#8 }) = 0#32 := by
  decide
/-- M16 -/
theorem test_ppush : readValue .err (after (.ppush 0#8) { s43 with pat := List.replicate 258 0#8 }) =
    10#32 := by decide
/-- M8 and M9: the naive scan -/
theorem test_wfind :
    (after .wfind { withWindow [chA, chA, chB] s43 with pat := [chA, chB] }).found = false ∧
      (after .wfind { withWindow [chA, chA, chB, chA, chB] s43 with pat := [chA, chB] }).resa = 3#32 := by
  decide
/-- M3: not found -/
theorem test_wfind_none :
    (after .wfind { sAbcab with pat := [chC, chC] }).resa = 0xFFFFFFFF#32 := by decide
/-- E1 step 8: the reference (3, 6) -/
theorem test_cstep_reference : (after (.cstep chC 0#8 true) sE1).cout = [0x73#8] ∧
    (after (.cstep chC 0#8 true) sE1).wacc = [true, false, true] := by decide
/-- E1 steps 0 and 3: a literal, and a carry -/
theorem test_cstep_literal_carry : (after (.cstep chA chB false) s43).cout = [0x30#8] ∧
    (after (.cstep chA chB false) (withWindow [chA, chB, chC] s43)).pat = [chA] := by decide
/-- S4, DSTEP 3: distance 2, length 8 -/
theorem test_dstep_overlap : (after .dstep sE12).rout = List.replicate 8 chA ∧
    (after .dstep sE12).resb = 8#32 := by decide
/-- E13: distance 0 -/
theorem test_dstep_bad : readValue .err (after .dstep (withCin [0x80#8] true s43)) = 9#32 := by decide

/-! ### Host-side vectors -/

/-- S2 -/
theorem test_header : headerBytes ⟨12, 4, [0x31#8, 0x37#8, 0x30#8], [0x61#8, 0x2E#8, 0x74#8]⟩ =
    [0x31#8, 0x32#8, 0x20#8, 0x34#8, 0x20#8, 0x31#8, 0x37#8, 0x30#8, 0x20#8, 0x61#8, 0x2E#8, 0x74#8,
      0x20#8, 0x0A#8] := by decide
/-- S2, parse failures: no space before the newline, and no newline -/
theorem test_header_failures :
    parseHeader [0x31#8, 0x20#8, 0x34#8, 0x20#8, 0x31#8, 0x20#8, 0x61#8, 0x0A#8] = none ∧
      parseHeader [0x31#8, 0x20#8, 0x34#8, 0x20#8, 0x31#8, 0x20#8, 0x61#8, 0x20#8] = none := by decide

/-! ### Witnesses: every obligation's hypotheses can be met, each clause of it -/

theorem witness_DecodeEncodeAgree : (Instr.wref 32767 511).wellFormed = true ∧
    (Instr.cfg 255 255).wellFormed = true ∧ (Instr.cfg 0 0).wellFormed = true := by decide

theorem witness_DecodedWordIsItsEncoding : decode 0x30FFFFFF#32 = .ok (.wref 32767 511) := by decide

theorem witness_DecodeMatchesOpcodeMap : decode 0xB001FFFF#32 = .ok (.cstep 0xFF#8 0xFF#8 true) ∧
    (⟨0xB, 0xB0000000#32, 0xFFFE0000#32⟩ : OpcodeRow) ∈ opcodeMap ∧
    (⟨0xB, 0xB0000000#32, 0xFFFE0000#32⟩ : OpcodeRow).hits 0xB001FFFF#32 = true ∧
    (∀ r ∈ opcodeMap, r.hits 0xD0000000#32 = false) := by decide

theorem witness_TokenStreamUniquelyDecodable :
    (Token.ref 15 8).admissible s43.ctx ∧ (Token.ref 0 1).admissible s43.ctx ∧
      (Token.lit 0#8).admissible s43.ctx ∧
      (∀ t ∈ [Token.lit 0x41#8, .ref 4 3], t.admissible s43.ctx) ∧
      tokensBits s43.ctx [.lit 0x41#8, .ref 4 3] ++ List.replicate 7 false =
        tokensBits s43.ctx [.lit 0x41#8, .ref 4 3] ++ List.replicate 7 false := by
  refine ⟨by unfold Token.admissible; decide, by unfold Token.admissible; decide, trivial, ?_, rfl⟩
  simp only [List.mem_cons, List.not_mem_nil, or_false, forall_eq_or_imp, forall_eq]
  exact ⟨trivial, by unfold Token.admissible; decide⟩

theorem witness_StepRunsDecodedCommand :
    ((latched 0x20000041#32 s43).turns = [] ∧ (latched 0x20000041#32 s43).busy = true ∧
      (latched 0x20000041#32 s43).fault = false ∧
      decode (latched 0x20000041#32 s43).lcmd = .ok (.wlit 0x41#8)) ∧
    ({ latched 0#32 s43 with turns := [.block] } : State).turns = .block :: [] ∧
    (∃ r, decode (latched 0xD0000000#32 s43).lcmd = .error r) ∧
    ({ s43 with turns := [.block] } : State).turns = .block :: [] ∧
    (s43.turns = [] ∧ s43.busy = false) ∧
    ({ s43 with turns := [.access (.read 0 4)] } : State).turns = .access (.read 0 4) :: [] :=
  ⟨by decide, by decide, ⟨.reservedOpcode 13, by decide⟩, by decide, by decide, by decide⟩

theorem witness_ResetFromAnyState :
    ({ sE1 with turns := [.reset], fault := true } : State).turns = .reset :: [] ∧
      State.reset.AtReset :=
  ⟨rfl, by constructor <;> rfl⟩

theorem witness_CtrlWriteResets : sE1.params.blockBase % 256 = 0 ∧ (1#32).getLsbD 0 = true ∧
    (0xFFFFFFFE#32).getLsbD 0 = false := by decide

theorem witness_StepKeepsInvariant : sE1.Inv ∧
    step (latched 0xB0010063#32 sE1) = .next (after (.cstep chC 0#8 true) (latched 0xB0010063#32 sE1)) :=
  ⟨sE1_inv, rfl⟩

theorem witness_OnlyUnsupportedAccessesStop :
    (∀ u ∈ ({ s43 with turns := [.access (.read 252 4)] } : State).turns.head?,
      u.safe s43.params = true) ∧
    ({ s43 with turns := [.access (.read 256 4)] } : State).turns = .access (.read 256 4) :: [] ∧
    s43.params.blockBase + 256 ≤ 256 ∧
    (s43.params.blockBase ≤ 255 ∧ 255 < s43.params.blockBase + 256 ∧ 255 % 4 ≠ 0) ∧
    (s43.params.blockBase ≤ 252 ∧ 252 < s43.params.blockBase + 256 ∧ 2 ≠ 4) := by decide

/-- An RTOK that waits for input (vector R14). -/
def sHeld : State := latched 0x50000000#32 s43

theorem witness_BlockTurnCompletesUnlessHeld :
    ((latched 0#32 s43).turns = [] ∧ (latched 0#32 s43).busy = true ∧ (latched 0#32 s43).fault = false ∧
      (latched 0#32 s43).holding = none) ∧
    (sHeld.turns = [] ∧ sHeld.holding ≠ none) ∧ (s43.turns = [] ∧ s43.busy = false) := by decide

theorem witness_FaultEntryIsPrecise : attempt (.wref 16 3) s43 = .fault .badToken ∧
    decode (latched 0xD0000000#32 s43).lcmd = .error (.reservedOpcode 13) ∧
    ((latched 0#32 s43).fault = false ∧ (latched 0#32 s43).busy = true) ∧
    (s43.fault = false ∧ (withCin [] true s43).eof = true) ∧
    ({ s43 with cin := List.replicate 512 0#8 } : State).params.cinDepth ≤
      ({ s43 with cin := List.replicate 512 0#8 } : State).cin.length := by decide

theorem witness_NotConfiguredFault : State.reset.cfgd = false ∧ Instr.dstep ≠ .nop ∧
    (∀ o l, Instr.dstep ≠ .cfg o l) ∧ cfgLegal 16 4 = false ∧
    exec (.cfg 16 4) s43 = .next (after (.cfg 16 4) s43) :=
  ⟨rfl, by decide, (fun _ _ h => by cases h), by decide, rfl⟩

theorem witness_FaultPriority :
    decode 0xF0000000#32 = .error (.reservedOpcode 15) ∧
    ({ s43 with wclosed := true } : State).wclosed = true ∧
    ({ s43 with rclosed := true } : State).rclosed = true ∧
    (s43.cfgd = true ∧ s43.wclosed = false ∧ s43.rclosed = false) ∧
    ¬ (1 ≤ 0 ∧ 0 ≤ 15 ∧ 1 ≤ 4 ∧ 4 ≤ 8) ∧ ¬ (1 ≤ 10 ∧ 10 ≤ 15 ∧ 1 ≤ 9 ∧ 9 ≤ 8) ∧
    ¬ (16 < s43.ctx.wsize ∧ s43.ctx.mins ≤ 3 ∧ 3 ≤ s43.ctx.maxs) ∧
    ({ s43 with pat := List.replicate 258 0#8 } : State).pat.length = 258 ∧
    (withCin [0x01#8] true s43).peek = .trunc ∧ true ∈ (withCin [0x80#8] false s43).unread ∧
    (withCin [0x80#8] true s43).peek = .token (.ref 0 1) 8 ∧
    ((withCin [0x90#8] true s43).peek = .token (.ref 2 1) 8 ∧ s43.win.length < 2) := by decide

/-- A faulted block (vector X4). -/
def sFaulted : State := State.reset.takeFault .badConfig 0x10000400#32

theorem witness_FaultIsSticky : (sFaulted.fault = true ∧ step sFaulted = .next sFaulted) ∧
    step { sFaulted with turns := [.reset] } = .next State.reset ∧
    (Turn.access (.write 0x48 4 1#32)).resets sFaulted.params = true :=
  ⟨⟨rfl, rfl⟩, rfl, by decide⟩

theorem witness_CmdWrite : s43.params.blockBase % 256 = 0 ∧
    (s43.fault = false ∧ s43.busy = false) ∧ sFaulted.fault = true ∧
    ((latched 0#32 s43).fault = false ∧ (latched 0#32 s43).busy = true) := by decide

theorem witness_FifoRegisters :
    (after (.wlit 0x41#8) s43).cout = 0x20#8 :: [] ∧ s43.cout = [] ∧ s43.rout = [] ∧
    (after .dstep sE12).rout = chA :: List.replicate 7 chA ∧
    (s43.fault = false ∧ s43.cin.length < s43.params.cinDepth ∧ s43.eof = false) ∧
    (List.replicate 511 0#8).length < s43.params.cinDepth ∧
    s43.params.cinDepth ≤ (List.replicate 512 0#8).length ∧ sE12.eof = true ∧
    sFaulted.fault = true ∧ (1#32).getLsbD 0 = true ∧ (2#32).getLsbD 0 = false ∧
    s43.cout.length < 2 ^ 32 ∧ s43.cin.length < 2 ^ 32 ∧ s43.rout.length < 2 ^ 32 := by decide

theorem witness_StatusFields :
    ({ s43 with wacc := List.replicate 7 true, rbuf := List.replicate 7 false } : State).wacc.length ≤ 7 ∧
    ({ s43 with wacc := List.replicate 7 true, rbuf := List.replicate 7 false } : State).rbuf.length ≤ 7 := by
  decide

/-- The largest context. -/
theorem session_15_8_inv : (session 15 8).Inv := by constructor <;> decide

theorem witness_ContextRegisters : State.reset.cfgd = false ∧
    ((session 15 8).Inv ∧ (session 15 8).cfgd = true) :=
  ⟨rfl, session_15_8_inv, rfl⟩

theorem witness_ResultAndErrorRegisters : (sE1.Inv ∧ sE1.errcode = .noFault ∧ sE1.tokkind = .noToken) ∧
    (({ s43 with fault := true, errcode := .cinOverflow } : State).Inv ∧
      (after .rtok (withCin [0x20#8, 0x80#8] false s43)).tokkind = .literal) ∧
    s43.params.coutDepth < 2 ^ 32 ∧ s43.params.cinDepth < 2 ^ 32 ∧ s43.params.routDepth < 2 ^ 32 :=
  ⟨⟨sE1_inv, rfl, rfl⟩, ⟨by constructor <;> decide, by decide⟩, by decide, by decide, by decide⟩

theorem witness_ReservedAndReadOnlyAccesses : s43.params.blockBase % 256 = 0 ∧
    (0x5C ≤ 0x5C ∧ 0x5C ≤ 0xFC ∧ 0x5C % 4 = 0) ∧ (0x5C ≤ 0xFC ∧ 0xFC ≤ 0xFC ∧ 0xFC % 4 = 0) ∧
    (Reg.status ≠ .cmd ∧ Reg.status ≠ .cinData ∧ Reg.status ≠ .cinEof ∧ Reg.status ≠ .ctrl) ∧
    (Reg.status ≠ .coutData ∧ Reg.status ≠ .routData) := by decide

/-- R57, R78: the host's read of COUT_DATA (offset 0x2C) pops. -/
theorem witness_ReservedAndReadOnlyAccesses_pop :
    hostAccess (.read 0x2C 4) { s43 with cout := [0x41#8, 0x42#8] } =
      .next { s43 with cout := [0x42#8], reads := [⟨0x2C, 0x141#32⟩] } := rfl

theorem witness_OddAccessIsRefused :
    (s43.params.blockBase ≤ 1 ∧ 1 < s43.params.blockBase + 256 ∧ 1 % 4 ≠ 0) ∧
    (s43.params.blockBase ≤ 255 ∧ 255 < s43.params.blockBase + 256 ∧ 255 % 4 ≠ 0) ∧ 2 ≠ 4 := by decide

theorem witness_NopCompletes : field 0x0FFFFFFF#32 31 28 = 0 ∧ 0x0FFFFFFF#32 ≠ 0 ∧
    field 1#32 31 28 = 0 ∧ 1#32 ≠ 0 := by decide

theorem witness_CfgStartsSession : (1 ≤ 1 ∧ 1 ≤ 15 ∧ 1 ≤ 1 ∧ 1 ≤ 8) ∧
    (1 ≤ 15 ∧ 15 ≤ 15 ∧ 1 ≤ 8 ∧ 8 ≤ 8) ∧ ¬ (1 ≤ 16 ∧ 16 ≤ 15 ∧ 1 ≤ 4 ∧ 4 ≤ 8) ∧
    (field 0x10010304#32 31 28 = 1 ∧ field 0x10010304#32 27 16 ≠ 0) := by decide

theorem witness_DerivedContextQuantities :
    (1 ≤ (⟨1, 1⟩ : Context).offb.toNat ∧ 1 ≤ (⟨1, 1⟩ : Context).lenb.toNat ∧
      (⟨1, 1⟩ : Context).lenb.toNat ≤ 8) ∧
    (1 ≤ (⟨15, 8⟩ : Context).offb.toNat ∧ 1 ≤ (⟨15, 8⟩ : Context).lenb.toNat ∧
      (⟨15, 8⟩ : Context).lenb.toNat ≤ 8) := by decide

theorem witness_PutAppendsBits : (sE1.wacc.length ≤ 7 ∧ 255 < 2 ^ 8 ∧ 0 < 2 ^ 0) ∧ 0 < 1 ∧
    [0x41#8, 0x80#8][1]? = some 0x80#8 ∧ 7 < 8 := by decide

/-- R9's own order: bit 0 of `bits_N(v)` is the most significant bit of v. -/
theorem test_bitsOf_order : bitsOf 4 0b1000 = [true, false, false, false] ∧
    val [true, false, false, false] = 8 := by decide

theorem witness_WlitWritesLiteral : sE1.wacc.length ≤ 7 ∧
    (s43.cfgd = true ∧ s43.wclosed = false ∧
      (s43.wacc.length + 9) / 8 ≤ s43.params.coutDepth - s43.cout.length) ∧
    State.reset.cfgd = false ∧ ({ s43 with wclosed := true } : State).wclosed = true ∧
    (coutFull s43).params.coutDepth - (coutFull s43).cout.length < ((coutFull s43).wacc.length + 9) / 8 := by
  decide

theorem witness_WrefWritesReference :
    (s43.cfgd = true ∧ s43.wclosed = false ∧ 15 < s43.ctx.wsize ∧ s43.ctx.mins ≤ 8 ∧
      8 ≤ s43.ctx.maxs ∧ (s43.wacc.length + 1 + s43.ctx.ess) / 8 ≤ s43.params.coutDepth - s43.cout.length) ∧
    s43.ctx.wsize ≤ 16 ∧ 0 < s43.ctx.mins ∧ s43.ctx.maxs < 9 ∧ State.reset.cfgd = false ∧
    ({ s43 with wclosed := true } : State).wclosed = true ∧
    (coutFull s43).params.coutDepth - (coutFull s43).cout.length <
      ((coutFull s43).wacc.length + 1 + s43.ctx.ess) / 8 := by decide

theorem witness_WcloseCloses : (s43.wacc.length ≤ 7 ∧ s43.wacc = []) ∧
    (sE1.wacc.length ≤ 7 ∧ sE1.cfgd = true ∧ sE1.wclosed = false ∧ sE1.wacc ≠ [] ∧
      sE1.cout.length < sE1.params.coutDepth) ∧
    (coutFull sE1).params.coutDepth ≤ (coutFull sE1).cout.length := by decide

theorem witness_PeekClassifies :
    (([false, false] : Bits).length < 8 ∧ allZero [false, false] = true) ∧
    (([false, true] : Bits).head? = some false ∧ ([false, true] : Bits).length < 9 ∧
      ¬ (([false, true] : Bits).length < 8 ∧ allZero [false, true] = true)) ∧
    (([true] : Bits).head? = some true ∧ ([true] : Bits).length < 1 + s43.ctx.ess) ∧
    ((List.replicate 9 false).head? = some false ∧ 9 ≤ (List.replicate 9 false).length) ∧
    ((List.replicate 8 true).head? = some true ∧ 1 + s43.ctx.ess ≤ (List.replicate 8 true).length) ∧
    peek s43.ctx (List.replicate 9 false) false = .token (.lit 0#8) 9 ∧
    peek s43.ctx (List.replicate 7 false) true = .eos ∧
    (withCin [] true s43).peek = .eos := by decide

theorem witness_PeekClassifies_access :
    hostAccess (.write 0x34 4 0xFF#32) (withCin [] true s43) =
        .next ((withCin [] true s43).takeFault .cinOverflow 0xFF#32) ∧
      (Turn.access (.write 0x34 4 0xFF#32)).resets s43.params = false := ⟨rfl, by decide⟩

theorem witness_ConsumePullsOnDemand : sE12.rbuf.length ≤ 7 ∧ 8 ≤ sE12.unread.length ∧
    0 ≤ sE12.unread.length := by decide

theorem witness_RtokReadsToken : State.reset.cfgd = false ∧
    ({ s43 with rclosed := true } : State).rclosed = true ∧ (s43.cfgd = true ∧ s43.rclosed = false ∧ s43.rbuf.length ≤ 7) ∧
    (withCin [0x20#8, 0x80#8] false s43).peek = .token (.lit 0x41#8) 9 ∧
    sE12.peek = .token (.ref 2 8) 8 ∧ (withCin [] true s43).peek = .eos ∧
    (withCin [0#8] true s43).peek = .trunc ∧ s43.peek = .needMore := by decide

theorem witness_RcloseCloses : (s43.cfgd = true ∧ s43.rclosed = false) ∧
    (∀ b ∈ (withCin [0#8] false s43).rbuf ++ streamBits (withCin [0#8] false s43).cin, b = false) ∧
    (∃ b ∈ (withCin [1#8] false s43).rbuf ++ streamBits (withCin [1#8] false s43).cin, b = true) ∧
    State.reset.cfgd = false ∧ ({ s43 with rclosed := true } : State).rclosed = true := by decide

theorem witness_WriterAndReaderIndependent :
    exec (.wlit chA) s43 = .next (after (.wlit chA) s43) ∧ exec .rtok sE12 = .next (after .rtok sE12) :=
  ⟨rfl, rfl⟩

theorem witness_WextAppends : State.reset.cfgd = false ∧ sAbcab.Inv ∧ sAbcab.cfgd = true ∧ sAbcab.win.length < sAbcab.ctx.wsize :=
  ⟨rfl, sAbcab_inv, by decide, by decide⟩

/-- A full window (vector M1's start). -/
def sFull : State := withWindow [chA, chB, chC, 0x64#8] (session 2 1)

theorem witness_WextAppends_full : sFull.Inv ∧ sFull.cfgd = true ∧ ¬ sFull.win.length < sFull.ctx.wsize :=
  ⟨by constructor <;> decide, by decide, by decide⟩

theorem witness_PatternBufferCommands : State.reset.cfgd = false ∧ s43.cfgd = true ∧ s43.pat.length ≠ 258 ∧
    (List.replicate 257 0#8).length ≠ 258 ∧
    ({ s43 with pat := List.replicate 258 0#8 } : State).pat.length = 258 := by decide

theorem witness_WfindAnswers : State.reset.cfgd = false ∧ s43.cfgd = true ∧ s43.find s43.pat = none ∧
    ({ sAbcab with pat := [chA, chB] } : State).find [chA, chB] = some 0#32 ∧ s43.pat = [] ∧
    ({ s43 with pat := [chA] } : State).win.length < 1 := by decide

theorem witness_FindScansOnce : 0 < [chA, chB].length ∧ 1 < [chA, chB].length ∧
    ([chA, chB][1]? = some chB ∧ 1 + 1 = [chA, chB].length) ∧
    ([chA, chB][0]? = some chA ∧ 0 + 1 ≠ [chA, chB].length) ∧ [chA, chB][1]? ≠ some chA ∧
    scan [chB] (sAbcab.window.bytes 16) 0 0 = some 1 ∧ scan [0#8] (sAbcab.window.bytes 16) 0 0 = none := by
  decide

theorem witness_FindIsSoundNotComplete :
    sAbcab.window.find 16 [chC, chA] = some 2#32 ∧
    (withWindow [chA, chA, chB] s43).window.bytes 16 = [0x61#8, 0x61#8, 0x62#8] ∧
    ((withWindow [chA, chA, chB, chA, chB] s43).window.bytes 16 =
      [0x61#8, 0x61#8, 0x62#8, 0x61#8, 0x62#8] ∧
      (withWindow [chA, chA, chB, chA, chB] s43).window.base = 0) ∧
    (withWindow [chA, chA, chA, chB] s43).window.bytes 16 = [0x61#8, 0x61#8, 0x61#8, 0x62#8] := by decide

theorem witness_CstepCarries : sAbcab.Inv ∧
    (sAbcab.cfgd = true ∧ sAbcab.wclosed = false ∧ sAbcab.pat.length ≠ 258 ∧
      sAbcab.pat.length + 1 < sAbcab.ctx.maxs ∧ sAbcab.find (sAbcab.pat ++ [chB]) ≠ none ∧
      sAbcab.find (sAbcab.pat ++ [chB] ++ [chC]) ≠ none) :=
  ⟨sAbcab_inv, by decide⟩

theorem witness_CstepEmitsReference : sE1.Inv ∧
    (sE1.cfgd = true ∧ sE1.wclosed = false ∧ 6 = sE1.pat.length + 1 ∧ 6 ≤ sE1.ctx.maxs ∧
      sE1.find (sE1.pat ++ [chC]) = some 0#32 ∧ 2 ≤ 6 ∧ sE1.ctx.mins ≤ 6 ∧ sE1.pat.length ≠ 258 ∧
      3 = (sE1.window.count - 0#32 - BitVec.ofNat 32 6 + 1).toNat ∧
      (sE1.wacc.length + 1 + sE1.ctx.ess) / 8 ≤ sE1.params.coutDepth - sE1.cout.length ∧
      (coutFull sE1).params.coutDepth - (coutFull sE1).cout.length <
        ((coutFull sE1).wacc.length + 1 + sE1.ctx.ess) / 8) :=
  ⟨sE1_inv, by decide⟩

theorem witness_CstepEmitsLiterals : s43.Inv ∧
    (s43.cfgd = true ∧ s43.wclosed = false ∧ s43.pat.length ≠ 258 ∧
      s43.find (s43.pat ++ [chA]) = none ∧
      (s43.wacc.length + 9 * (s43.pat.length + 1)) / 8 ≤ s43.params.coutDepth - s43.cout.length ∧
      (coutFull s43).params.coutDepth - (coutFull s43).cout.length <
        ((coutFull s43).wacc.length + 9 * ((coutFull s43).pat.length + 1)) / 8) :=
  ⟨s43_inv, by decide⟩

/-- Vector E8: four 'a' in a window of 4, pattern "aa" put there by PPUSH, MAXS 2. -/
def sE8 : State := { withWindow [chA, chA, chA, chA] (session 2 1) with pat := [chA, chA] }

theorem witness_CstepReferenceBounds :
    (sE1.Inv ∧ sE1.find [chA, chB, chC, chA, chB, chC] = some 0#32 ∧ 2 ≤ 6 ∧
      3 = (sE1.window.count - 0#32 - BitVec.ofNat 32 6 + 1).toNat) ∧
    sE1.pat.length < sE1.ctx.maxs ∧
    (sE8.Inv ∧ sE8.cfgd = true ∧ sE8.wclosed = false ∧ sE8.pat.length ≠ 258 ∧
      sE8.ctx.maxs ≤ sE8.pat.length ∧ sE8.find (sE8.pat ++ [chA]) ≠ none) :=
  ⟨⟨sE1_inv, by decide⟩, by decide, by constructor <;> decide, by decide⟩

theorem witness_CstepReferenceReplacesPending :
    sE1.Inv ∧ sE1.find [chA, chB, chC, chA, chB, chC] = some 0#32 ∧ 2 ≤ 6 ∧
      3 = (sE1.window.count - 0#32 - BitVec.ofNat 32 6 + 1).toNat ∧
      0 < [chA, chB, chC, chA, chB, chC].length ∧ 5 < [chA, chB, chC, chA, chB, chC].length :=
  ⟨sE1_inv, by decide⟩

theorem witness_PendingStaysBelowMaxs :
    exec (.cstep chC 0#8 true) sE1 = .next (after (.cstep chC 0#8 true) sE1) ∧
      sE1.pat.length < sE1.ctx.maxs ∧ attempt (.cstep chC 0#8 true) sE1 ≠ .hold .output ∧
      (after (.cstep chC 0#8 true) sE1).fault = false :=
  ⟨rfl, by decide⟩

theorem witness_DstepReplaysToken : State.reset.cfgd = false ∧
    ({ s43 with rclosed := true } : State).rclosed = true ∧ sE12.Inv ∧
    (sE12.cfgd = true ∧ sE12.rclosed = false) ∧
    ((withCin [0x20#8, 0x80#8] false s43).peek = .token (.lit 0x41#8) 9 ∧
      s43.rout.length < s43.params.routDepth) ∧
    (sE12.peek = .token (.ref 2 8) 8 ∧ 1 ≤ 2 ∧ 2 ≤ sE12.win.length ∧
      8 ≤ sE12.params.routDepth - sE12.rout.length) ∧
    (withCin [] true s43).peek = .eos ∧ s43.peek = .needMore ∧
    (withCin [0#8] true s43).peek = .trunc ∧
    ((withCin [0x80#8] true s43).peek = .token (.ref 0 1) 8) ∧
    (routFull sE12).params.routDepth - (routFull sE12).rout.length < tokenYield (.ref 2 8) :=
  ⟨rfl, rfl, sE12_inv, by decide⟩

theorem witness_OverlappingCopyRepeats : sE12.Inv ∧ 1 ≤ 2 ∧ 2 ≤ sE12.win.length ∧ 7 < 8 :=
  ⟨sE12_inv, by decide⟩

/-- A session with bytes of the one before still in COUT and ROUT (R274). -/
def sOldBytes : State := { s43 with cout := [chA], rout := [chB, chC] }

theorem witness_RoundTrip : (s43.Inv ∧ s43.busy = false ∧ s43.fault = false) ∧
    (sOldBytes.Inv ∧ sOldBytes.busy = false ∧ sOldBytes.fault = false) ∧
    (1 ≤ 1 ∧ 1 ≤ 15 ∧ 1 ≤ 1 ∧ 1 ≤ 8) ∧ (1 ≤ 15 ∧ 15 ≤ 15 ∧ 1 ≤ 8 ∧ 8 ≤ 8) :=
  ⟨⟨s43_inv, by decide⟩, ⟨by constructor <;> decide, by decide⟩, by decide⟩

/-- R274: old bytes do not reach the new stream; the empty input compresses to no byte (R202). -/
theorem test_old_bytes_drained :
    (compressStream 4 3 [] sOldBytes).map (fun r => (r.1, r.2.rout)) = some ([], []) := by decide

theorem witness_EveryHoldIsLiftable : attempt .rtok s43 = .hold .input ∧
    attempt (.wlit chA) (coutFull s43) = .hold .output ∧
    (s43.Inv ∧ s43.cout = [] ∧ s43.rout = []) ∧ (withCin [0#8, 0#8, 0#8] false s43).Inv ∧
    24 ≤ (withCin [0#8, 0#8, 0#8] false s43).unread.length ∧ sE12.eof = true :=
  ⟨by decide, by decide, ⟨s43_inv, by decide⟩, by constructor <;> decide, by decide⟩

theorem witness_ContextAndWindowWriters :
    (exec (.wlit chA) s43 = .next (after (.wlit chA) s43) ∧ (∀ o l, Instr.wlit chA ≠ .cfg o l)) ∧
    (exec (.cfg 4 3) sE1 = .next (after (.cfg 4 3) sE1) ∧ (1 ≤ 4 ∧ 4 ≤ 15 ∧ 1 ≤ 3 ∧ 3 ≤ 8)) ∧
    (exec (.cfg 16 8) sE1 = .next (after (.cfg 16 8) sE1) ∧ ¬ (1 ≤ 16 ∧ 16 ≤ 15 ∧ 1 ≤ 8 ∧ 8 ≤ 8)) ∧
    (Turn.access (.write 0x48 4 0#32)).resets s43.params = false ∧
    step { s43 with turns := [.access (.write 0x48 4 0#32)] } = .next s43 :=
  ⟨⟨rfl, fun _ _ h => by cases h⟩, ⟨rfl, by decide⟩, ⟨rfl, by decide⟩, by decide, rfl⟩

theorem witness_WriterCommandsFrame : exec .wclose sE1 = .next (after .wclose sE1) := rfl

theorem witness_ReaderCommandsFrame : exec .rtok sE12 = .next (after .rtok sE12) ∧
    exec .rclose s43 = .next (after .rclose s43) := ⟨rfl, rfl⟩

theorem witness_ControlAndWindowCommandsFrame :
    exec .nop s43 = .next (after .nop s43) ∧ exec (.cfg 4 3) sE1 = .next (after (.cfg 4 3) sE1) ∧
    exec (.wext chA) s43 = .next (after (.wext chA) s43) ∧ exec .pclr sE1 = .next (after .pclr sE1) ∧
    exec .wfind sE1 = .next (after .wfind sE1) := ⟨rfl, rfl, rfl, rfl, rfl⟩

theorem witness_EngineCommandsFrame :
    exec (.cstep chC 0#8 true) sE1 = .next (after (.cstep chC 0#8 true) sE1) ∧
    exec .dstep sE12 = .next (after .dstep sE12) := ⟨rfl, rfl⟩

theorem witness_RamStores :
    (s43.Inv ∧ exec (.wext chA) s43 = .next (after (.wext chA) s43) ∧
      1 ≠ (s43.window.head.toNat + s43.window.fill.toNat) % s43.ctx.wsize) ∧
    (sE12.Inv ∧ exec .dstep sE12 = .next (after .dstep sE12) ∧ sE12.peek = .token (.ref 2 8) 8 ∧
      (∀ j, j < tokenYield (.ref 2 8) →
        15 ≠ (sE12.window.head.toNat + sE12.window.fill.toNat + j) % sE12.ctx.wsize)) ∧
    (exec .dstep s43 = .next s43 ∧ (∀ tok k, s43.peek ≠ .token tok k)) :=
  ⟨⟨s43_inv, rfl, by decide⟩, ⟨sE12_inv, rfl, by decide, by decide⟩, rfl,
    fun tok k h => by rw [show s43.peek = .needMore by decide] at h; cases h⟩

/-- `sE12` with a byte of window RAM outside its window. -/
def sE12Dirty : State := { sE12 with window := { sE12.window with ram := sE12.window.ram.write 9 0xFF#8 } }

theorem witness_UnusedRamIsUnobservable : sE12.Inv ∧ sE12Dirty.Inv ∧ sE12.sameButRam sE12Dirty ∧
    sE12.window.ram ≠ sE12Dirty.window.ram :=
  ⟨sE12_inv, by constructor <;> decide, ⟨by decide, by decide⟩, by decide⟩

theorem witness_HeaderRoundTrip : spaceByte ∉ [0x31#8] ∧ newlineByte ∉ [0x31#8] ∧
    newlineByte ∉ [0x61#8, 0x20#8, 0x62#8] := by decide

/-- R112, R272: `poll BUSY=0` stays while the command is held (vector R14), and ends once BUSY = 0. -/
theorem test_poll_waits : (match HostRun.step ⟨[.poll, readOp 0 .resa], sHeld⟩ with
      | .next r => r.ops
      | .fault _ => []
      | .refused _ => []) = [.poll, readOp 0 .resa] := by decide

theorem test_poll_ends : (match HostRun.step ⟨[.poll, readOp 0 .resa], latched 0#32 s43⟩ with
      | .next r => r.ops
      | .fault _ => []
      | .refused _ => []) = [readOp 0 .resa] := by decide

theorem witness_HeaderRead : newlineByte ∉ [0x31#8, 0x20#8] ∧
    (newlineByte ∉ [0x31#8, 0x20#8, 0x34#8, 0x20#8] ∧
      [0x31#8, 0x20#8, 0x34#8, 0x20#8].count spaceByte < 3) ∧
    [0x31#8, 0x20#8, 0x34#8, 0x20#8, 0x37#8, 0x20#8, 0x61#8].getLast? ≠ some spaceByte ∧
    (spaceByte ∉ [0x31#8, 0x2F#8] ∧ spaceByte ∉ [0x34#8] ∧
      newlineByte ∉ [0x31#8, 0x2F#8] ++ [0x34#8] ++ [0x37#8, 0x20#8, 0x61#8, 0x20#8] ∧
      ∃ b ∈ [0x31#8, 0x2F#8], b.toNat < 0x30 ∨ 0x39 < b.toNat) ∧
    (State.reset.busy = false ∧ State.reset.fault = false) ∧
    (1 ≤ 15 ∧ 15 ≤ 15 ∧ 1 ≤ 8 ∧ 8 ≤ 8) ∧ ¬ (1 ≤ 266 ∧ 266 ≤ 15 ∧ 1 ≤ 4 ∧ 4 ≤ 8) := by decide

/-- R212, R131: the header's pair (266, 4) faults with BAD_CONFIG, though 266 mod 256 is a legal width. -/
theorem test_context_266_4 : (hostCommand (contextCommand 266 4) State.reset).map
    (fun t => (t.errcode, t.cfgd)) = some (.badConfig, false) := by decide

end Sys2Proof.Tests
end

section
/-! SUPPORT. What one step can do, turn by turn (R14, R81), and that every turn keeps the invariant. -/

namespace Sys2Proof.Machine

/-! ### The turns of `step` -/

/-- Once the schedule is used up the turn is the block's (R14; log 4). -/
theorem step_of_no_turns {s : State} (h : s.turns = []) : step s = blockTurn s := by
  rw [step, h]

theorem step_of_block {s : State} {ts : List Turn} (h : s.turns = .block :: ts) :
    step s = blockTurn { s with turns := ts } := by
  rw [step, h]

theorem step_of_access {s : State} {a : HostAccess} {ts : List Turn} (h : s.turns = .access a :: ts) :
    step s = hostAccess a { s with turns := ts } := by
  rw [step, h]

theorem step_of_reset {s : State} {ts : List Turn} (h : s.turns = .reset :: ts) :
    step s = .next { s with turns := ts }.hardReset := by
  rw [step, h]

/-- The block's turn with a latched word that decodes (R47, R133). -/
theorem blockTurn_of_decode {s : State} {i : Instr} (hb : s.busy = true) (hf : s.fault = false)
    (hd : decode s.lcmd = .ok i) : blockTurn s = exec i s := by
  rw [blockTurn_latched hb hf, performWord, hd]

/-- The block's turn with a latched word of no row (R109, R133). -/
theorem blockTurn_of_reject {s : State} {r : Reject} (hb : s.busy = true) (hf : s.fault = false)
    (hd : decode s.lcmd = .error r) : blockTurn s = .next (s.takeFault .illegalCmd s.lcmd) := by
  rw [blockTurn_latched hb hf, performWord, hd]

/-! ### Commands keep the invariant -/

/-- CSTEP's commit keeps the invariant when PAT and COUT have room (R190). -/
theorem State.Inv.commitStep {s : State} (h : s.Inv) {p : List Byte} {bits : Bits} (b : Byte)
    (hc : s.cfgd = true) (hw : s.wclosed = false) (hp : p.length ≤ patCap)
    (hf : s.coutNeed bits.length ≤ s.coutFree) : (s.commitStep p bits b).Inv :=
  ((h.setPat p hc hp).putBits bits hc hw hf).append b hc

/-- PAT has room for one more byte unless it is full (R44). -/
theorem State.Inv.length_pat_append {s : State} (h : s.Inv) (hp : s.pat.length ≠ patCap) (b : Byte) :
    (s.pat ++ [b]).length ≤ patCap := by
  have := h.patFits
  rw [List.length_append, List.length_singleton]
  omega

/-- No byte is pushed for no bits: WACC is short of a byte (R25, R79). -/
theorem State.Inv.coutNeed_zero {s : State} (h : s.Inv) : s.coutNeed 0 = 0 := by
  have := h.waccShort
  rw [State.coutNeed]
  omega

/-- A CSTEP that commits keeps the invariant, whether it carries PAT on or finalizes it (R190). -/
theorem State.Inv.tryCstep {s t : State} (h : s.Inv) {b next : Byte} {last : Bool}
    (hd : tryCstep b next last s = .done t) : t.Inv := by
  obtain ⟨hc, hw, hp, ⟨-, rfl⟩ | ⟨ts, -, -, hroom, rfl⟩⟩ := tryCstep_done hd
  · exact h.commitStep b hc hw (h.length_pat_append hp b) (h.coutNeed_zero ▸ Nat.zero_le _)
  · exact h.commitStep b hc hw (Nat.zero_le _) hroom

/-- Consuming the token that `peek` answers keeps the invariant (R153). -/
theorem State.Inv.consume_token {s : State} (h : s.Inv) {tok : Token} {k : Nat} (hc : s.cfgd = true)
    (hr : s.rclosed = false) (hk : s.peek = .token tok k) : (s.consume k).Inv :=
  h.consume k hc hr (peek_token_le hk).2

theorem State.Inv.tryRtok {s t : State} (h : s.Inv) (hd : tryRtok s = .done t) : t.Inv := by
  obtain ⟨hc, hr, ⟨-, rfl⟩ | ⟨tok, k, hk, rfl⟩⟩ := tryRtok_done hd
  · exact h.answerEos
  · exact (h.consume_token hc hr hk).answerToken tok

theorem State.Inv.tryDstep {s t : State} (h : s.Inv) (hd : tryDstep s = .done t) : t.Inv := by
  obtain ⟨hc, hr, ⟨-, rfl⟩ | ⟨tok, k, hk, -, hy, rfl⟩⟩ := tryDstep_done hd
  · exact h.answerEos
  · exact ((h.consume_token hc hr hk).replay hc tok hy).answerToken tok

/-- Whatever a command commits meets the invariant (R133). -/
theorem State.Inv.attempt_done {s t : State} (h : s.Inv) {i : Instr} (hd : attempt i s = .done t) :
    t.Inv := by
  cases i with
  | nop => cases hd; exact h
  | cfg off len =>
    obtain ⟨hl, rfl⟩ := tryCfg_done hd
    exact h.configure off len hl
  | wlit b =>
    obtain ⟨hc, hw, hroom, rfl⟩ := tryWlit_done hd
    exact h.putBits _ hc hw (by rwa [length_tokenBits_lit])
  | wref d l =>
    obtain ⟨hc, hw, -, hroom, rfl⟩ := tryWref_done hd
    exact h.putBits _ hc hw (by rwa [length_tokenBits_ref])
  | wclose =>
    obtain ⟨hc, -, hroom, rfl⟩ := tryWclose_done hd
    exact h.closeWriter hc hroom
  | rtok => exact h.tryRtok hd
  | rclose =>
    obtain ⟨hc, -, -, rfl⟩ := tryRclose_done hd
    exact h.closeReader hc
  | wext b =>
    obtain ⟨hc, rfl⟩ := tryWext_done hd
    exact h.append b hc
  | pclr =>
    obtain ⟨hc, rfl⟩ := tryPclr_done hd
    exact h.setPat [] hc (Nat.zero_le _)
  | ppush b =>
    obtain ⟨hc, hp, rfl⟩ := tryPpush_done hd
    exact h.setPat _ hc (h.length_pat_append hp b)
  | wfind =>
    obtain ⟨-, rfl⟩ := tryWfind_done hd
    exact h.answerFind _
  | cstep b next last => exact h.tryCstep hd
  | dstep => exact h.tryDstep hd

/-- Performing a command keeps the invariant, whether it faults, waits or completes. -/
theorem State.Inv.exec {s t : State} (h : s.Inv) {i : Instr} (he : exec i s = .next t) : t.Inv := by
  obtain ⟨c, ha, hx⟩ | ⟨w, -, hx⟩ | ⟨u, ha, hx⟩ := exec_cases i s <;> rw [hx] at he <;> cases he
  · exact h.takeFault (attempt_fault_ne ha) _
  · exact h
  · exact (h.attempt_done ha).complete

/-- The block's turn keeps the invariant. -/
theorem State.Inv.blockTurn {s t : State} (h : s.Inv) (he : blockTurn s = .next t) : t.Inv := by
  obtain ⟨-, hx⟩ | ⟨-, -, ⟨r, -, hx⟩ | ⟨i, -, hx⟩⟩ := blockTurn_cases s <;> rw [hx] at he
  · cases he; exact h
  · cases he; exact h.takeFault (by decide) _
  · exact h.exec he

/-! ### Host accesses keep the invariant -/

/-- A pop of COUT keeps the invariant (R57). -/
theorem State.Inv.popCout {s : State} (h : s.Inv) : ({ s with cout := s.cout.tail } : State).Inv :=
  { h with
    preSession := fun hc =>
      have ⟨hw, hb, hp, hcout, hrout, hf⟩ := h.preSession hc
      ⟨hw, hb, hp, by simp [hcout], hrout, hf⟩
    coutFits := by have := h.coutFits; simp; omega }

/-- A pop of ROUT keeps the invariant (R57). -/
theorem State.Inv.popRout {s : State} (h : s.Inv) : ({ s with rout := s.rout.tail } : State).Inv :=
  { h with
    preSession := fun hc =>
      have ⟨hw, hb, hp, hcout, hrout, hf⟩ := h.preSession hc
      ⟨hw, hb, hp, hcout, by simp [hrout], hf⟩
    routFits := by have := h.routFits; simp; omega }

/-- A byte that CIN has room for keeps the invariant (R57). -/
theorem State.Inv.pushCin {s : State} (h : s.Inv) (hroom : s.cin.length < s.params.cinDepth) (b : Byte) :
    ({ s with cin := s.cin ++ [b] } : State).Inv :=
  { h with cinFits := by simp; omega }

theorem State.Inv.readEffect {s : State} (h : s.Inv) (r : Reg) : (readEffect r s).Inv := by
  cases r with
  | coutData => exact h.popCout
  | routData => exact h.popRout
  | _ => exact h

theorem State.Inv.writeCmd {s : State} (h : s.Inv) (v : Word) : (writeCmd v s).Inv := by
  rw [Machine.writeCmd]
  split
  · exact h
  · rename_i hf
    split
    · exact h.takeFault (by decide) v
    · exact h.latch (by simpa using hf) v

theorem State.Inv.writeCinData {s : State} (h : s.Inv) (v : Word) : (writeCinData v s).Inv := by
  rw [Machine.writeCinData]
  split
  · exact h
  · split
    · rename_i hroom
      simp only [Bool.and_eq_true, decide_eq_true_eq] at hroom
      exact h.pushCin hroom.1 _
    · exact h.takeFault (by decide) v

theorem State.Inv.writeCinEof {s : State} (h : s.Inv) (v : Word) : (writeCinEof v s).Inv := by
  rw [Machine.writeCinEof]
  split
  · exact h
  · split
    · exact h.setEof
    · exact h

theorem State.Inv.writeCtrl {s : State} (h : s.Inv) (v : Word) : (writeCtrl v s).Inv := by
  rw [Machine.writeCtrl]
  split
  · exact h.hardReset
  · exact h

theorem State.Inv.writeReg {s : State} (h : s.Inv) (r : Reg) (v : Word) : (writeReg r v s).Inv := by
  cases r with
  | cmd => exact h.writeCmd v
  | cinData => exact h.writeCinData v
  | cinEof => exact h.writeCinEof v
  | ctrl => exact h.writeCtrl v
  | _ => exact h

theorem State.Inv.readOffset {s : State} (h : s.Inv) (addr off : Nat) :
    (readOffset addr off s).Inv := by
  rw [Machine.readOffset]
  split
  · exact (h.readEffect _).setReads _
  · exact h.setReads _

theorem State.Inv.writeOffset {s : State} (h : s.Inv) (off : Nat) (v : Word) :
    (writeOffset off v s).Inv := by
  rw [Machine.writeOffset]
  split
  · exact h.writeReg _ v
  · exact h

theorem State.Inv.hostAccess {s t : State} (h : s.Inv) {a : HostAccess}
    (he : hostAccess a s = .next t) : t.Inv := by
  obtain ⟨addr, w, -, rfl, -⟩ | ⟨addr, w, v, -, rfl, -⟩ := hostAccess_cases he
  · exact h.readOffset _ _
  · exact h.writeOffset _ v

/-- Every turn keeps the invariant. -/
theorem State.Inv.step {s t : State} (h : s.Inv) (he : step s = .next t) : t.Inv := by
  match hts : s.turns with
  | [] => exact h.blockTurn (step_of_no_turns hts ▸ he)
  | .block :: ts => exact (h.setTurns ts).blockTurn (step_of_block hts ▸ he)
  | .access a :: ts => exact (h.setTurns ts).hostAccess (step_of_access hts ▸ he)
  | .reset :: ts =>
    rw [step_of_reset hts] at he
    cases he
    exact (h.setTurns ts).hardReset

/-- Settles O10, turn by turn: each command, access and reset keeps the invariant. -/
theorem stepKeepsInvariant : Obligations.StepKeepsInvariant :=
  fun _ _ h he => h.step he

/-- Settles O6, from the equation of each kind of turn. -/
theorem stepRunsDecodedCommand : Obligations.StepRunsDecodedCommand := by
  refine ⟨?_, ?_, ?_, ?_, ?_, ?_, ?_, ?_⟩
  · intro s i hts hb hf hd
    rw [step_of_no_turns hts, blockTurn_of_decode hb hf hd]
  · intro s i ts hts hb hf hd
    rw [step_of_block hts, blockTurn_of_decode (s := { s with turns := ts }) hb hf hd]
  · intro s r hts hb hf hd
    rw [step_of_no_turns hts, blockTurn_of_reject hb hf hd]
  · intro s r ts hts hb hf hd
    rw [step_of_block hts, blockTurn_of_reject (s := { s with turns := ts }) hb hf hd]
  · intro s hts hidle
    rw [step_of_no_turns hts, blockTurn_idle hidle]
  · intro s ts hts hidle
    rw [step_of_block hts, blockTurn_idle (s := { s with turns := ts }) hidle]
  · intro s a ts hts
    exact step_of_access hts
  · intro s nbits w
    exact ⟨rfl, rfl, rfl, rfl⟩

end Sys2Proof.Machine
end

section
/-! SUPPORT. What a command waits for (R79): per command, when its stages answer `hold`; and that every
wait can be lifted at the legal depths (R7). -/

namespace Sys2Proof.Machine

/-! ### When a command's stages wait -/

theorem tryWlit_hold {b : Byte} {s : State} {w : Hold} (h : tryWlit b s = .hold w) :
    w = .output ∧ s.cfgd = true ∧ s.wclosed = false ∧ s.coutFree < s.coutNeed 9 := by
  unfold tryWlit at h
  split at h; · cases h
  split at h; · cases h
  split at h <;> cases h
  exact ⟨rfl, by simpa using ‹¬(!s.cfgd) = true›, by simpa using ‹¬s.wclosed = true›, ‹_›⟩

theorem tryWref_hold {d l : Nat} {s : State} {w : Hold} (h : tryWref d l s = .hold w) :
    w = .output ∧ s.cfgd = true ∧ s.wclosed = false ∧ refLegal s.ctx d l = true ∧
      s.coutFree < s.coutNeed (1 + s.ctx.ess) := by
  unfold tryWref at h
  split at h; · cases h
  split at h; · cases h
  split at h; · cases h
  split at h <;> cases h
  exact ⟨rfl, by simpa using ‹¬(!s.cfgd) = true›, by simpa using ‹¬s.wclosed = true›,
    by simpa using ‹¬(!refLegal s.ctx d l) = true›, ‹_›⟩

theorem tryWclose_hold {s : State} {w : Hold} (h : tryWclose s = .hold w) :
    w = .output ∧ s.cfgd = true ∧ s.wclosed = false ∧ s.coutFree < s.closeNeed := by
  unfold tryWclose at h
  split at h; · cases h
  split at h; · cases h
  split at h <;> cases h
  exact ⟨rfl, by simpa using ‹¬(!s.cfgd) = true›, by simpa using ‹¬s.wclosed = true›, ‹_›⟩

theorem tryRtok_hold {s : State} {w : Hold} (h : tryRtok s = .hold w) :
    w = .input ∧ s.cfgd = true ∧ s.rclosed = false ∧ s.peek = .needMore := by
  unfold tryRtok at h
  split at h; · cases h
  split at h; · cases h
  split at h <;> cases h
  exact ⟨rfl, by simpa using ‹¬(!s.cfgd) = true›, by simpa using ‹¬s.rclosed = true›, ‹_›⟩

/-- A CSTEP waits only for COUT: for the bits it carries on with (none) or for those of its tokens (R79,
R190). -/
theorem tryCstep_hold {b next : Byte} {last : Bool} {s : State} {w : Hold}
    (h : tryCstep b next last s = .hold w) :
    w = .output ∧ s.cfgd = true ∧ s.wclosed = false ∧ s.pat.length ≠ patCap ∧
      ((cstepCarries (s.pat ++ [b]) next last s = true ∧ s.coutFree < s.coutNeed 0) ∨
        ∃ ts, cstepCarries (s.pat ++ [b]) next last s = false ∧
          cstepFinal (s.pat ++ [b]) s = some ts ∧
          s.coutFree < s.coutNeed (tokensBits s.ctx ts).length) := by
  unfold tryCstep at h
  split at h; · cases h
  split at h; · cases h
  split at h; · cases h
  have hc : s.cfgd = true := by simpa using ‹¬(!s.cfgd) = true›
  have hw : s.wclosed = false := by simpa using ‹¬s.wclosed = true›
  have hp : s.pat.length ≠ patCap := by simpa [patFull] using ‹¬patFull s = true›
  split at h
  · split at h <;> cases h
    exact ⟨rfl, hc, hw, hp, .inl ⟨‹_›, ‹_›⟩⟩
  · split at h
    · cases h
    · split at h <;> cases h
      exact ⟨rfl, hc, hw, hp, .inr ⟨_, by simpa using ‹¬cstepCarries _ _ _ _ = true›, ‹_›, ‹_›⟩⟩

/-- A DSTEP waits for input until `peek` can tell the next token, then for ROUT to have room for what the
token yields (R79, R197). -/
theorem tryDstep_hold {s : State} {w : Hold} (h : tryDstep s = .hold w) :
    s.cfgd = true ∧ s.rclosed = false ∧
      ((w = .input ∧ s.peek = .needMore) ∨
        ∃ tok k, w = .output ∧ s.peek = .token tok k ∧ tokenUsable s tok = true ∧
          s.routFree < tokenYield tok) := by
  unfold tryDstep at h
  split at h; · cases h
  split at h; · cases h
  refine ⟨by simpa using ‹¬(!s.cfgd) = true›, by simpa using ‹¬s.rclosed = true›, ?_⟩
  split at h
  · cases h; exact .inl ⟨rfl, ‹_›⟩
  · cases h
  · cases h
  · split at h
    · cases h
    · split at h <;> cases h
      exact .inr ⟨_, _, rfl, ‹_›, by simpa using ‹¬(!tokenUsable _ _) = true›, ‹_›⟩

/-- The commands R79 names, each with what it waits for; no other command waits. -/
theorem attempt_hold_cases {i : Instr} {s : State} {w : Hold} (h : attempt i s = .hold w) :
    (∃ b, i = .wlit b ∧ tryWlit b s = .hold w) ∨
    (∃ d l, i = .wref d l ∧ tryWref d l s = .hold w) ∨
    (i = .wclose ∧ tryWclose s = .hold w) ∨
    (i = .rtok ∧ tryRtok s = .hold w) ∨
    (∃ b next last, i = .cstep b next last ∧ tryCstep b next last s = .hold w) ∨
    (i = .dstep ∧ tryDstep s = .hold w) := by
  cases i with
  | nop => cases h
  | cfg off len => simp only [attempt, tryCfg] at h; split at h <;> cases h
  | wlit b => exact .inl ⟨b, rfl, h⟩
  | wref d l => exact .inr (.inl ⟨d, l, rfl, h⟩)
  | wclose => exact .inr (.inr (.inl ⟨rfl, h⟩))
  | rtok => exact .inr (.inr (.inr (.inl ⟨rfl, h⟩)))
  | rclose => simp only [attempt, tryRclose] at h; (repeat' split at h) <;> cases h
  | wext b => simp only [attempt, tryWext] at h; split at h <;> cases h
  | pclr => simp only [attempt, tryPclr] at h; split at h <;> cases h
  | ppush b => simp only [attempt, tryPpush] at h; (repeat' split at h) <;> cases h
  | wfind => simp only [attempt, tryWfind] at h; split at h <;> cases h
  | cstep b next last => exact .inr (.inr (.inr (.inr (.inl ⟨b, next, last, rfl, h⟩))))
  | dstep => exact .inr (.inr (.inr (.inr (.inr ⟨rfl, h⟩))))

/-- A command that waits for input is an RTOK or a DSTEP whose next token `peek` cannot tell (R79). -/
theorem attempt_hold_input {i : Instr} {s : State} (h : attempt i s = .hold .input) :
    (i = .rtok ∨ i = .dstep) ∧ s.cfgd = true ∧ s.rclosed = false ∧ s.peek = .needMore := by
  obtain ⟨b, -, hw⟩ | ⟨d, l, -, hw⟩ | ⟨-, hw⟩ | ⟨rfl, hw⟩ | ⟨b, n, l, -, hw⟩ | ⟨rfl, hw⟩ :=
    attempt_hold_cases h
  · cases (tryWlit_hold hw).1
  · cases (tryWref_hold hw).1
  · cases (tryWclose_hold hw).1
  · exact ⟨.inl rfl, (tryRtok_hold hw).2⟩
  · cases (tryCstep_hold hw).1
  · obtain ⟨hc, hr, ⟨-, hp⟩ | ⟨_, _, ⟨⟩, -⟩⟩ := tryDstep_hold hw
    exact ⟨.inr rfl, hc, hr, hp⟩

/-! ### The bounds that lift a wait -/

/-- In a configured state that meets the invariant a reference's payload has at most 23 bits (R2, R23). -/
theorem State.Inv.ess_le {s : State} (h : s.Inv) (hc : s.cfgd = true) : s.ctx.ess ≤ 23 := by
  obtain ⟨-, -, hl⟩ := h.contextLegal hc
  have := s.ctx.offb.isLt
  rw [Context.ess]
  omega

/-- In a configured state that meets the invariant no string is longer than PAT_CAP (R23, R44). -/
theorem State.Inv.maxs_le {s : State} (h : s.Inv) (hc : s.cfgd = true) : s.ctx.maxs ≤ patCap := by
  obtain ⟨-, -, hl⟩ := h.contextLegal hc
  have he := h.ess_le hc
  have hp : 2 ^ s.ctx.lenb.toNat ≤ 2 ^ 8 := Nat.pow_le_pow_right (by decide) hl
  rw [Context.maxs, Context.mins, Context.bep, patCap]
  omega

/-- A token that `peek` answers yields at most MAXS bytes (R150, R197). -/
theorem tokenYield_le_maxs {c : Context} {u : Bits} {eof : Bool} {t : Token} {k : Nat}
    (h : peek c u eof = .token t k) : tokenYield t ≤ c.maxs := by
  obtain ⟨h', -⟩ | ⟨h', -⟩ | ⟨h', -⟩ | ⟨b, rest, -, -, -, h'⟩ | ⟨rest, -, -, h'⟩ :=
    peek_cases c u eof <;> rw [h'] at h <;> cases h
  · rw [tokenYield, Context.maxs, Context.mins]; omega
  · have hv := val_lt ((rest.drop c.offb.toNat).take c.lenb.toNat)
    have hp : 2 ^ ((rest.drop c.offb.toNat).take c.lenb.toNat).length ≤ 2 ^ c.lenb.toNat :=
      Nat.pow_le_pow_right (by decide) (List.length_take_le _ _)
    rw [tokenYield, Context.maxs]
    omega

/-- The tokens that finalize a pattern are a literal a byte, or one reference (R192). -/
theorem length_cstepFinal_le {p : List Byte} {s : State} {ts : List Token}
    (h : cstepFinal p s = some ts) :
    (tokensBits s.ctx ts).length ≤ max (9 * p.length) (1 + s.ctx.ess) := by
  obtain rfl | ⟨f, -, -, -, -, -, rfl⟩ := cstepFinal_some h
  · rw [length_tokensBits_lits]; exact le_max_left _ _
  · rw [tokensBits_cons, tokensBits_nil, List.append_nil, length_tokenBits_ref]
    exact le_max_right _ _

/-- An empty COUT has room for `9 * PAT_CAP` bits, which with a WACC of 7 bits fill 291 bytes: the minimum of
COUT_DEPTH (R7). -/
theorem State.Inv.coutNeed_le_coutFree {s : State} (h : s.Inv) (hcout : s.cout = []) {n : Nat}
    (hn : n ≤ 9 * patCap) : s.coutNeed n ≤ s.coutFree := by
  obtain ⟨hdepth, -⟩ := h.params
  have := h.waccShort
  rw [patCap] at hn
  rw [State.coutNeed, State.coutFree, hcout, List.length_nil]
  omega

/-- WCLOSE pushes no more than 8 bits would (R79, R143). -/
theorem State.closeNeed_le (s : State) : s.closeNeed ≤ s.coutNeed 8 := by
  rw [State.closeNeed, State.coutNeed]
  split <;> omega

/-- A CSTEP finalizes PAT and its byte into at most 9 bits for each of PAT_CAP bytes (R190, R192). -/
theorem State.Inv.length_cstepFinal_le {s : State} (h : s.Inv) (hc : s.cfgd = true)
    (hp : s.pat.length ≠ patCap) {b : Byte} {ts : List Token}
    (hts : cstepFinal (s.pat ++ [b]) s = some ts) :
    (tokensBits s.ctx ts).length ≤ 9 * patCap := by
  have hbits := Machine.length_cstepFinal_le hts
  have hpat := h.length_pat_append hp b
  have hess := h.ess_le hc
  rw [patCap] at *
  omega

/-- With the output FIFOs empty no command waits for output (R7, R79). -/
theorem State.Inv.not_hold_output {s : State} (h : s.Inv) (hcout : s.cout = []) (hrout : s.rout = [])
    (i : Instr) : attempt i s ≠ .hold .output := by
  intro ha
  have hroom {n : Nat} : n ≤ 9 * patCap → s.coutNeed n ≤ s.coutFree := h.coutNeed_le_coutFree hcout
  obtain ⟨b, -, hw⟩ | ⟨d, l, -, hw⟩ | ⟨-, hw⟩ | ⟨-, hw⟩ | ⟨b, n, l, -, hw⟩ | ⟨-, hw⟩ :=
    attempt_hold_cases ha
  · obtain ⟨-, -, -, hlt⟩ := tryWlit_hold hw
    exact absurd (hroom (by decide)) (not_le.mpr hlt)
  · obtain ⟨-, hc, -, -, hlt⟩ := tryWref_hold hw
    have := h.ess_le hc
    exact absurd (hroom (by rw [patCap]; omega)) (not_le.mpr hlt)
  · obtain ⟨-, -, -, hlt⟩ := tryWclose_hold hw
    exact absurd (s.closeNeed_le.trans (hroom (by decide))) (not_le.mpr hlt)
  · cases (tryRtok_hold hw).1
  · obtain ⟨-, hc, -, hp, ⟨-, hlt⟩ | ⟨ts, -, hts, hlt⟩⟩ := tryCstep_hold hw
    · exact absurd (hroom (Nat.zero_le _)) (not_le.mpr hlt)
    · exact absurd (hroom (h.length_cstepFinal_le hc hp hts)) (not_le.mpr hlt)
  · obtain ⟨hc, -, ⟨⟨⟩, -⟩ | ⟨tok, k, -, hk, -, hlt⟩⟩ := tryDstep_hold hw
    have hy := (tokenYield_le_maxs hk).trans (h.maxs_le hc)
    obtain ⟨-, -, hdepth, -⟩ := h.params
    rw [State.routFree, hrout, List.length_nil] at hlt
    rw [patCap] at hy
    omega

/-- `peek` tells the next token, the end or a truncation from 24 unread bits, or from EOF (R150). -/
theorem State.Inv.peek_ne_needMore {s : State} (h : s.Inv) (hc : s.cfgd = true)
    (hu : 24 ≤ s.unread.length ∨ s.eof = true) : s.peek ≠ .needMore := by
  intro hp
  rw [State.peek] at hp
  have hess := h.ess_le hc
  obtain ⟨h', -⟩ | ⟨-, heof, hlen⟩ | ⟨h', -⟩ | ⟨_, _, -, -, -, h'⟩ | ⟨_, -, -, h'⟩ :=
    peek_cases s.ctx s.unread s.eof
  · cases hp ▸ h'
  · rcases hu with hu | hu
    · split at hlen <;> omega
    · rw [hu] at heof; cases heof
  · cases hp ▸ h'
  · cases hp ▸ h'
  · cases hp ▸ h'

/-- Settles O50, from what each command waits for and the bounds of a token. -/
theorem everyHoldIsLiftable : Obligations.EveryHoldIsLiftable := by
  refine ⟨fun i s ha => (attempt_hold_input ha).1, ?_, ?_, ?_⟩
  · intro i s ha
    obtain ⟨b, rfl, -⟩ | ⟨d, l, rfl, -⟩ | ⟨rfl, -⟩ | ⟨-, hw⟩ | ⟨b, n, l, rfl, -⟩ | ⟨rfl, -⟩ :=
      attempt_hold_cases ha
    · exact .inl rfl
    · exact .inr (.inl rfl)
    · exact .inr (.inr (.inl rfl))
    · cases (tryRtok_hold hw).1
    · exact .inr (.inr (.inr (.inl rfl)))
    · exact .inr (.inr (.inr (.inr rfl)))
  · exact fun i s h hcout hrout => h.not_hold_output hcout hrout i
  · intro i s h hu ha
    obtain ⟨-, hc, -, hp⟩ := attempt_hold_input ha
    exact h.peek_ne_needMore hc hu hp

/-! ### The latched command that waits -/

/-- A state holds on `w` exactly when the latched command's stages wait for it (R47, R79). -/
theorem State.holding_eq_some_iff {s : State} {w : Hold} :
    s.holding = some w ↔
      s.busy = true ∧ s.fault = false ∧ ∃ i, decode s.lcmd = .ok i ∧ attempt i s = .hold w := by
  by_cases hl : s.busy = true ∧ s.fault = false
  · obtain ⟨hb, hf⟩ := hl
    cases hd : decode s.lcmd with
    | error r => simp [State.holding, State.latched, hb, hf, attemptWord, hd]
    | ok i => cases ha : attempt i s <;> simp [State.holding, State.latched, hb, hf, attemptWord, hd, ha]
  · have hn : s.latched = none := by simpa [State.latched] using hl
    have hh : s.holding = none := by rw [State.holding, hn]
    simp only [hh, reduceCtorEq, false_iff]
    exact fun ⟨hb, hf, _⟩ => hl ⟨hb, hf⟩

/-- A latched command that waits for nothing is performed, and BUSY is 0 afterwards (R14, R47). -/
theorem blockTurn_completes {s : State} (hb : s.busy = true) (hf : s.fault = false)
    (hh : s.holding = none) : ∃ t, blockTurn s = .next t ∧ t.busy = false := by
  cases hd : decode s.lcmd with
  | error r => exact ⟨_, blockTurn_of_reject hb hf hd, rfl⟩
  | ok i =>
    rw [blockTurn_of_decode hb hf hd]
    obtain ⟨c, -, hx⟩ | ⟨w, ha, -⟩ | ⟨u, -, hx⟩ := exec_cases i s
    · exact ⟨_, hx, rfl⟩
    · have hw : s.holding = some w := State.holding_eq_some_iff.mpr ⟨hb, hf, i, hd, ha⟩
      rw [hh] at hw
      cases hw
    · exact ⟨_, hx, rfl⟩

/-- A held command stays latched, and its turn changes nothing (R79; log 5). -/
theorem blockTurn_held {s : State} {w : Hold} (hh : s.holding = some w) :
    s.busy = true ∧ s.fault = false ∧ blockTurn s = .next s := by
  obtain ⟨hb, hf, i, hd, ha⟩ := State.holding_eq_some_iff.mp hh
  refine ⟨hb, hf, ?_⟩
  rw [blockTurn_of_decode hb hf hd, exec_eq_finish, ha, finish_hold]

/-- Settles O12: the latched command faults or commits, and both end with BUSY = 0, unless it waits. -/
theorem blockTurnCompletesUnlessHeld : Obligations.BlockTurnCompletesUnlessHeld := by
  intro s hts
  rw [step_of_no_turns hts]
  refine ⟨blockTurn_completes, fun hh => ?_, fun hb => blockTurn_idle (.inl hb)⟩
  obtain ⟨w, hw⟩ := Option.ne_none_iff_exists'.mp hh
  exact blockTurn_held hw

end Sys2Proof.Machine
end

section
/-! SUPPORT. Window RAM outside the window is not observable (R60, R80): every stage of every command, every
host access and every reset treats two states that differ in nothing but such bytes alike. -/

namespace Sys2Proof.Machine

/-! ### States that differ in window RAM -/

/-- The window over another RAM. -/
def Window.withRam (m : Memory) (w : Window) : Window := { w with ram := m }

/-- The state over another RAM. -/
def State.withRam (m : Memory) (s : State) : State := { s with window := s.window.withRam m }

/-- A state that differs in nothing but RAM outside the window is the state over another RAM, with the same
bytes in the window. -/
theorem State.sameButRam_iff {s t : State} :
    s.sameButRam t ↔ ∃ m, s.win = (s.withRam m).win ∧ t = s.withRam m := by
  constructor
  · rintro ⟨hw, ht⟩
    exact ⟨t.window.ram, hw.trans (congrArg State.win ht.symm), ht.symm⟩
  · rintro ⟨m, hw, rfl⟩
    exact ⟨hw, rfl⟩

theorem State.sameButRam_refl (s : State) : s.sameButRam s := ⟨rfl, rfl⟩

/-- An append writes the slot of the RAM it is given; the rest of the window does not depend on the RAM
(R170). -/
theorem Window.append_withRam (n : Nat) (b : Byte) (m : Memory) (w : Window) :
    (w.withRam m).append n b = (w.append n b).withRam (m.write (w.slot n) b) := by
  by_cases hr : w.fill.toNat < n
  · rw [Window.append_of_room hr, Window.append_of_room (w := w.withRam m) hr, Window.slot, if_pos hr]
    rfl
  · rw [Window.append_of_full hr, Window.append_of_full (w := w.withRam m) hr, Window.slot, if_neg hr]
    rfl

/-- The window after an append holds the same bytes over either RAM. -/
theorem Window.bytes_append_withRam {n : Nat} {m : Memory} {w : Window} (hw : w.Ok n)
    (hm : (w.withRam m).Ok n) (hb : w.bytes n = (w.withRam m).bytes n) (b : Byte) :
    (w.append n b).bytes n = ((w.withRam m).append n b).bytes n := by
  rw [Window.bytes_append hw, Window.bytes_append hm, hb]
  rfl

/-- The byte at an index of the window is the same over either RAM when the window's bytes are. -/
theorem Window.byte_withRam {n : Nat} {m : Memory} {w : Window}
    (hb : w.bytes n = (w.withRam m).bytes n) {k : Nat} (hk : k < w.fill.toNat) :
    w.byte n k = (w.withRam m).byte n k := by
  have h := congrArg (·[k]?) hb
  simp only [Window.getElem?_bytes] at h
  rw [if_pos hk, if_pos (show k < (w.withRam m).fill.toNat from hk)] at h
  exact Option.some.inj h

/-- A copy from inside the window gives the same bytes over either RAM, and windows that again differ in
nothing but RAM (R197). -/
theorem Window.copy_withRam {n d : Nat} (hd : 1 ≤ d) (l : Nat) {m : Memory} {w : Window} (hw : w.Ok n)
    (hm : (w.withRam m).Ok n) (hb : w.bytes n = (w.withRam m).bytes n) (hf : d ≤ w.fill.toNat) :
    ((w.withRam m).copy n d l).2 = (w.copy n d l).2 ∧
      ∃ m', ((w.withRam m).copy n d l).1 = (w.copy n d l).1.withRam m' ∧
        (w.copy n d l).1.bytes n = ((w.withRam m).copy n d l).1.bytes n := by
  induction l generalizing m w with
  | zero => exact ⟨rfl, m, rfl, hb⟩
  | succ l ih =>
    have hbyte := Window.byte_withRam hb (show w.fill.toNat - d < w.fill.toNat by omega)
    rw [Window.copy_succ, Window.copy_succ, show (w.withRam m).fill = w.fill from rfl, ← hbyte]
    generalize w.byte n (w.fill.toNat - d) = b
    have hfill := Window.fill_append hw b
    have hcap := hw.fill
    have hm' := hm.append b
    have hb' := Window.bytes_append_withRam hw hm hb b
    rw [Window.append_withRam] at hm' hb' ⊢
    obtain ⟨hout, hwin⟩ := ih (hw.append b) hm' hb' (by omega)
    exact ⟨by rw [hout], hwin⟩

/-! ### The stages of a command -/

/-- Two attempts alike up to window RAM outside the window. -/
inductive Attempt.Alike : Attempt → Attempt → Prop
  | fault (c : ErrCode) : Alike (.fault c) (.fault c)
  | hold (w : Hold) : Alike (.hold w) (.hold w)
  | done {u v : State} (h : u.sameButRam v) : Alike (.done u) (.done v)

/-- A check that gives both sides the same verdict. -/
theorem rel_ite {α : Type} {r : α → α → Prop} {p : Prop} [Decidable p] {a b a' b' : α} (ha : r a a')
    (hb : r b b') : r (if p then a else b) (if p then a' else b') := by
  by_cases hp : p
  · rwa [if_pos hp, if_pos hp]
  · rwa [if_neg hp, if_neg hp]

/-- Attempts that are alike end the block step alike. -/
theorem Attempt.Alike.finish {s t : State} (h : s.sameButRam t) {a b : Attempt} (hab : a.Alike b) :
    outcomeSameButRam (finish s a) (finish t b) := by
  obtain ⟨m, hw, rfl⟩ := State.sameButRam_iff.mp h
  cases hab with
  | fault c => exact ⟨hw, rfl⟩
  | hold w => exact h
  | done huv =>
    obtain ⟨m', hw', rfl⟩ := State.sameButRam_iff.mp huv
    exact ⟨hw', rfl⟩

/-- A token's answer is written alike (R45). -/
theorem State.sameButRam.answerToken {s t : State} (h : s.sameButRam t) (tok : Token) :
    (s.answerToken tok).sameButRam (t.answerToken tok) := by
  obtain ⟨m, hw, rfl⟩ := State.sameButRam_iff.mp h
  cases tok <;> exact ⟨hw, rfl⟩

theorem State.peek_withRam (m : Memory) (s : State) : (s.withRam m).peek = s.peek := rfl

theorem tokenUsable_withRam (m : Memory) (s : State) (tok : Token) :
    tokenUsable (s.withRam m) tok = tokenUsable s tok := by
  cases tok <;> rfl

section
variable {s : State} {m : Memory} (hw : s.win = (s.withRam m).win)
include hw

/-- `find` reads the window's bytes, its length and WCOUNT (R172). -/
theorem State.find_withRam (p : List Byte) : (s.withRam m).find p = s.find p := by
  have hb : (s.window.withRam m).bytes s.ctx.wsize = s.window.bytes s.ctx.wsize := hw.symm
  change (s.window.withRam m).find s.ctx.wsize p = s.window.find s.ctx.wsize p
  rw [Window.find, Window.find, hb]
  rfl

theorem cstepCarries_withRam (p : List Byte) (next : Byte) (last : Bool) :
    cstepCarries p next last (s.withRam m) = cstepCarries p next last s := by
  rw [cstepCarries, cstepCarries, State.find_withRam hw, State.find_withRam hw]
  rfl

theorem cstepFinal_withRam (p : List Byte) : cstepFinal p (s.withRam m) = cstepFinal p s := by
  rw [cstepFinal, cstepFinal, State.find_withRam hw]
  rfl

/-- RTOK reads no window byte (R153). -/
theorem tryRtok_alike : (tryRtok s).Alike (tryRtok (s.withRam m)) := by
  rw [tryRtok, tryRtok, State.peek_withRam]
  refine rel_ite (.fault _) (rel_ite (.fault _) ?_)
  cases s.peek with
  | needMore => exact .hold _
  | trunc => exact .fault _
  | eos => exact .done ⟨hw, rfl⟩
  | token tok k =>
    have hc : (s.consume k).sameButRam ((s.withRam m).consume k) := ⟨hw, rfl⟩
    exact .done (hc.answerToken tok)

/-- WFIND's answer is the answer of `find` (R173). -/
theorem tryWfind_alike : (tryWfind s).Alike (tryWfind (s.withRam m)) := by
  have hp : (s.withRam m).find (s.withRam m).pat = s.find s.pat := State.find_withRam hw s.pat
  rw [tryWfind, tryWfind, hp]
  refine rel_ite (.fault _) (.done ?_)
  cases s.find s.pat <;> exact ⟨hw, rfl⟩

variable (hs : s.window.Ok s.ctx.wsize) (hm : (s.window.withRam m).Ok s.ctx.wsize)
include hs hm

theorem State.append_alike (b : Byte) : (s.append b).sameButRam ((s.withRam m).append b) := by
  have h : (s.withRam m).append b =
      (s.append b).withRam (m.write (s.window.slot s.ctx.wsize) b) :=
    congrArg (fun w => { s with window := w }) (Window.append_withRam s.ctx.wsize b m s.window)
  exact ⟨Window.bytes_append_withRam hs hm hw b, by rw [h]; rfl⟩

theorem State.commitStep_alike (p : List Byte) (bits : Bits) (b : Byte) :
    (s.commitStep p bits b).sameButRam ((s.withRam m).commitStep p bits b) :=
  State.append_alike (s := ({ s with pat := p } : State).putBits bits) hw hs hm b

/-- A usable token names bytes inside the window, so it is replayed alike (R197, R198). -/
theorem State.replay_alike {tok : Token} (hu : tokenUsable s tok = true) :
    (s.replay tok).sameButRam ((s.withRam m).replay tok) := by
  cases tok with
  | lit b => exact State.append_alike (s := { s with rout := s.rout ++ [b] }) hw hs hm b
  | ref d l =>
    simp only [tokenUsable, distUsable, Bool.and_eq_true, Bool.not_eq_true', decide_eq_false_iff_not,
      decide_eq_true_eq] at hu
    obtain ⟨hout, m', hwin, hbytes⟩ := Window.copy_withRam (by omega) l hs hm hw hu.2
    have h : (s.withRam m).replay (.ref d l) = (s.replay (.ref d l)).withRam m' := calc
      (s.withRam m).replay (.ref d l)
        = { s with
            rout := s.rout ++ ((s.window.withRam m).copy s.ctx.wsize d l).2
            window := ((s.window.withRam m).copy s.ctx.wsize d l).1 } := rfl
      _ = (s.replay (.ref d l)).withRam m' := by rw [hout, hwin]; rfl
    exact ⟨hbytes, by rw [h]; rfl⟩

/-- CSTEP reads the window through `find` only, and appends one byte (R190). -/
theorem tryCstep_alike (b next : Byte) (last : Bool) :
    (tryCstep b next last s).Alike (tryCstep b next last (s.withRam m)) := by
  rw [tryCstep, tryCstep, show (s.withRam m).pat = s.pat from rfl, cstepCarries_withRam hw,
    cstepFinal_withRam hw]
  refine rel_ite (.fault _) (rel_ite (.fault _) (rel_ite (.fault _) (rel_ite ?_ ?_)))
  · exact rel_ite (.hold _) (.done (State.commitStep_alike hw hs hm _ _ b))
  · cases cstepFinal (s.pat ++ [b]) s with
    | none => exact .fault _
    | some ts => exact rel_ite (.hold _) (.done (State.commitStep_alike hw hs hm _ _ b))

/-- DSTEP reads the window where a usable token points (R197). -/
theorem tryDstep_alike : (tryDstep s).Alike (tryDstep (s.withRam m)) := by
  rw [tryDstep, tryDstep, State.peek_withRam]
  refine rel_ite (.fault _) (rel_ite (.fault _) ?_)
  cases s.peek with
  | needMore => exact .hold _
  | trunc => exact .fault _
  | eos => exact .done ⟨hw, rfl⟩
  | token tok k =>
    simp only [tokenUsable_withRam]
    cases hu : tokenUsable s tok with
    | false => exact .fault _
    | true =>
      have hu' : tokenUsable (s.consume k) tok = true := by cases tok <;> exact hu
      have hr := State.replay_alike (s := s.consume k) hw hs hm hu'
      exact rel_ite (.fault _) (rel_ite (.hold _) (.done (hr.answerToken tok)))

end

/-- The stages of every command treat the two states alike. -/
theorem attempt_alike {s t : State} (hs : s.Inv) (ht : t.Inv) (h : s.sameButRam t) (i : Instr) :
    (attempt i s).Alike (attempt i t) := by
  obtain ⟨m, hw, rfl⟩ := State.sameButRam_iff.mp h
  have hso := hs.windowOk
  have hmo := ht.windowOk
  cases i with
  | nop => exact .done h
  | cfg off len => exact rel_ite (.done ⟨rfl, rfl⟩) (.fault _)
  | wlit b => exact rel_ite (.fault _) (rel_ite (.fault _) (rel_ite (.hold _) (.done ⟨hw, rfl⟩)))
  | wref d l =>
    exact rel_ite (.fault _) (rel_ite (.fault _) (rel_ite (.fault _) (rel_ite (.hold _) (.done ⟨hw, rfl⟩))))
  | wclose => exact rel_ite (.fault _) (rel_ite (.fault _) (rel_ite (.hold _) (.done ⟨hw, rfl⟩)))
  | rtok => exact tryRtok_alike hw
  | rclose => exact rel_ite (.fault _) (rel_ite (.fault _) (rel_ite (.fault _) (.done ⟨hw, rfl⟩)))
  | wext b => exact rel_ite (.fault _) (.done (State.append_alike hw hso hmo b))
  | pclr => exact rel_ite (.fault _) (.done ⟨hw, rfl⟩)
  | ppush b => exact rel_ite (.fault _) (rel_ite (.fault _) (.done ⟨hw, rfl⟩))
  | wfind => exact tryWfind_alike hw
  | cstep b next last => exact tryCstep_alike hw hso hmo b next last
  | dstep => exact tryDstep_alike hw hso hmo

/-! ### The turns -/

/-- The block's turn goes alike. -/
theorem blockTurn_alike {s t : State} (hs : s.Inv) (ht : t.Inv) (h : s.sameButRam t) :
    outcomeSameButRam (blockTurn s) (blockTurn t) := by
  have halike := attempt_alike hs ht h
  obtain ⟨m, hw, rfl⟩ := State.sameButRam_iff.mp h
  obtain ⟨hl, hx⟩ | ⟨hb, hf, hx⟩ := blockTurn_cases s
  · rw [hx, blockTurn, show (s.withRam m).latched = none from hl]
    exact h
  · obtain ⟨r, hd, hx⟩ | ⟨i, hd, hx⟩ := hx
    · rw [hx, blockTurn_of_reject (s := s.withRam m) hb hf hd]
      exact ⟨hw, rfl⟩
    · rw [hx, blockTurn_of_decode (s := s.withRam m) hb hf hd, exec_eq_finish, exec_eq_finish]
      exact (halike i).finish h

theorem Attempt.Alike.hold_iff {a b : Attempt} (h : a.Alike b) (w : Hold) : b = .hold w ↔ a = .hold w := by
  cases h <;> simp

/-- The two states wait for the same thing, so the hold bits of STATUS agree (R47). -/
theorem State.holding_alike {s t : State} (hs : s.Inv) (ht : t.Inv) (h : s.sameButRam t) :
    t.holding = s.holding := by
  have halike (i : Instr) (w : Hold) : attempt i t = .hold w ↔ attempt i s = .hold w :=
    (attempt_alike hs ht h i).hold_iff w
  apply Option.ext
  intro w
  rw [State.holding_eq_some_iff, State.holding_eq_some_iff]
  obtain ⟨m, -, rfl⟩ := State.sameButRam_iff.mp h
  simp only [halike]
  rfl

/-- Every register reads the same value (R49 to R58). -/
theorem readValue_alike {s t : State} (hs : s.Inv) (ht : t.Inv) (h : s.sameButRam t) (r : Reg) :
    readValue r t = readValue r s := by
  have hh := State.holding_alike hs ht h
  obtain ⟨m, -, rfl⟩ := State.sameButRam_iff.mp h
  cases r with
  | status =>
    simp only [readValue, State.statusWord, State.holdOut, State.holdIn, hh]
    rfl
  | _ => rfl

theorem readEffect_alike {s t : State} (h : s.sameButRam t) (r : Reg) :
    (readEffect r s).sameButRam (readEffect r t) := by
  obtain ⟨m, hw, rfl⟩ := State.sameButRam_iff.mp h
  cases r <;> exact ⟨hw, rfl⟩

theorem readOffset_alike {s t : State} (hs : s.Inv) (ht : t.Inv) (h : s.sameButRam t) (addr off : Nat) :
    (readOffset addr off s).sameButRam (readOffset addr off t) := by
  have hv := readValue_alike hs ht h
  have he := readEffect_alike h
  have hr : t.reads = s.reads := by rw [← h.2]
  rw [readOffset, readOffset, hr]
  cases Reg.ofOffset off with
  | none =>
    obtain ⟨m, hw, rfl⟩ := State.sameButRam_iff.mp h
    exact ⟨hw, rfl⟩
  | some r =>
    simp only [hv]
    obtain ⟨m, hw, he⟩ := State.sameButRam_iff.mp (he r)
    rw [he]
    exact ⟨hw, rfl⟩

/-- A write reads no window byte; a reset leaves nothing to differ (R48, R57, R59). -/
theorem writeReg_alike {s t : State} (h : s.sameButRam t) (r : Reg) (v : Word) :
    (writeReg r v s).sameButRam (writeReg r v t) := by
  obtain ⟨m, hw, rfl⟩ := State.sameButRam_iff.mp h
  cases r with
  | cmd => exact rel_ite h (rel_ite ⟨hw, rfl⟩ ⟨hw, rfl⟩)
  | cinData => exact rel_ite h (rel_ite ⟨hw, rfl⟩ ⟨hw, rfl⟩)
  | cinEof => exact rel_ite h (rel_ite ⟨hw, rfl⟩ h)
  | ctrl => exact rel_ite (State.sameButRam_refl _) h
  | _ => exact h

theorem writeOffset_alike {s t : State} (h : s.sameButRam t) (off : Nat) (v : Word) :
    (writeOffset off v s).sameButRam (writeOffset off v t) := by
  rw [writeOffset, writeOffset]
  cases Reg.ofOffset off with
  | none => exact h
  | some r => exact writeReg_alike h r v

/-- A host access goes alike: it reads the same value, or stops at the same address. -/
theorem hostAccess_alike {s t : State} (hs : s.Inv) (ht : t.Inv) (h : s.sameButRam t) (a : HostAccess) :
    outcomeSameButRam (hostAccess a s) (hostAccess a t) := by
  have hp : t.params = s.params := by rw [← h.2]
  cases a with
  | read addr width =>
    simp only [hostAccess, hp]
    split
    · rfl
    · split
      · rfl
      · exact readOffset_alike hs ht h _ _
  | write addr width v =>
    simp only [hostAccess, hp]
    split
    · rfl
    · split
      · rfl
      · exact writeOffset_alike h _ v

theorem State.sameButRam.setTurns {s t : State} (h : s.sameButRam t) (ts : List Turn) :
    ({ s with turns := ts } : State).sameButRam { t with turns := ts } := by
  obtain ⟨m, hw, rfl⟩ := State.sameButRam_iff.mp h
  exact ⟨hw, rfl⟩

/-- A reset forgets the RAM (R60; log 2). -/
theorem State.hardReset_alike {s t : State} (h : s.sameButRam t) : s.hardReset = t.hardReset := by
  obtain ⟨m, -, rfl⟩ := State.sameButRam_iff.mp h
  rfl

/-- Settles O58, turn by turn: a command, an access and a reset each treat the two states alike. -/
theorem unusedRamIsUnobservable : Obligations.UnusedRamIsUnobservable := by
  intro s t hs ht h
  have hts : t.turns = s.turns := by rw [← h.2]
  match hturns : s.turns with
  | [] =>
    rw [step_of_no_turns hturns, step_of_no_turns (hts.trans hturns)]
    exact blockTurn_alike hs ht h
  | .block :: ts =>
    rw [step_of_block hturns, step_of_block (hts.trans hturns)]
    exact blockTurn_alike (hs.setTurns ts) (ht.setTurns ts) (h.setTurns ts)
  | .access a :: ts =>
    rw [step_of_access hturns, step_of_access (hts.trans hturns)]
    exact hostAccess_alike (hs.setTurns ts) (ht.setTurns ts) (h.setTurns ts) a
  | .reset :: ts =>
    rw [step_of_reset hturns, step_of_reset (hts.trans hturns), State.hardReset_alike (h.setTurns ts)]
    exact State.sameButRam_refl _

end Sys2Proof.Machine
end

section
/-! SUPPORT. The registers (R23, R48 to R59): what each field reads in terms of the state element of its name,
and what a write does. -/

namespace Sys2Proof.Machine

/-! ### Bounds of the packed values -/

theorem ErrCode.code_lt (c : ErrCode) : c.code < 16 := by cases c <;> decide

theorem TokKind.code_lt (k : TokKind) : k.code < 4 := by cases k <;> decide

section
variable {c : Context} (hl : c.lenb.toNat ≤ 8)
include hl

theorem Context.ess_le : c.ess ≤ 23 := by
  have ho := c.offb.isLt
  rw [Context.ess]
  omega

theorem Context.bep_le : c.bep ≤ 2 := by
  have he := Context.ess_le hl
  rw [Context.bep]
  omega

theorem Context.mins_le : c.mins ≤ 3 := Nat.succ_le_succ (Context.bep_le hl)

/-- Over the legal range MAXS is at most `2^8 - 1 + 3` (R23). -/
theorem Context.maxs_le : c.maxs ≤ 258 := by
  have hp : 2 ^ c.lenb.toNat ≤ 2 ^ 8 := Nat.pow_le_pow_right (by decide) hl
  have hm := Context.mins_le hl
  rw [Context.maxs]
  omega

end

/-- Settles O26: the bounds from the widths' bounds, the table by evaluation, and the token lengths by the laws
of the writer. -/
theorem derivedContextQuantities : Obligations.DerivedContextQuantities := by
  refine ⟨fun c _ _ hl => ?_, fun row hrow => ?_⟩
  · exact ⟨Context.bep_le hl, Nat.le_add_left 1 c.bep, Context.mins_le hl, Context.maxs_le hl, rfl, rfl, rfl,
      rfl, rfl⟩
  · obtain ⟨hess, hwsize, hbep, hmins, hmaxs⟩ : row.1.ess = row.2.1 ∧ row.1.wsize = row.2.2.1 ∧
        row.1.bep = row.2.2.2.1 ∧ row.1.mins = row.2.2.2.2.1 ∧ row.1.maxs = row.2.2.2.2.2 := by
      revert row
      decide
    exact ⟨hess, hwsize, hbep, hmins, hmaxs, length_tokenBits_lit row.1,
      fun d l => hess ▸ length_tokenBits_ref row.1 d l⟩

/-! ### What the fields read -/

/-- Settles O19: each element fits its place in the sum that STATUS is, so its field reads it back. -/
theorem statusFields : Obligations.StatusFields := by
  intro s hwacc hrbuf
  have hbusy := s.busy.toNat_lt
  have hfault := s.fault.toNat_lt
  have hcfgd := s.cfgd.toNat_lt
  have hwclosed := s.wclosed.toNat_lt
  have hrclosed := s.rclosed.toNat_lt
  have heof := s.eof.toNat_lt
  have heos := s.eos.toNat_lt
  have hfound := s.found.toNat_lt
  have hout := s.holdOut.toNat_lt
  have hin := s.holdIn.toNat_lt
  simp only [readValue, State.statusWord, place, field, BitVec.toNat_ofNat]
  refine ⟨?_, ?_, ?_, ?_, ?_, ?_, ?_, ?_, ?_, ?_, ?_, ?_, ?_, rfl, fun v => rfl⟩ <;> omega

/-- CTX of a configured state with a legal length width (R52). -/
theorem fields_ctx {s : State} (hc : s.cfgd = true) (hl : s.ctx.lenb.toNat ≤ 8) :
    field (readValue .ctx s) 7 0 = s.ctx.offb.toNat ∧
    field (readValue .ctx s) 15 8 = s.ctx.lenb.toNat ∧
    field (readValue .ctx s) 23 16 = s.ctx.ess ∧
    field (readValue .ctx s) 27 24 = s.ctx.bep ∧
    field (readValue .ctx s) 31 28 = s.ctx.mins := by
  have ho := s.ctx.offb.isLt
  have hess := Context.ess_le hl
  have hbep := Context.bep_le hl
  have hmins := Context.mins_le hl
  simp only [readValue, State.ctxWord, hc, if_true, place, field, BitVec.toNat_ofNat]
  refine ⟨?_, ?_, ?_, ?_, ?_⟩ <;> omega

/-- CTX2 of a configured state with a legal length width (R53). -/
theorem fields_ctx2 {s : State} (hc : s.cfgd = true) (hl : s.ctx.lenb.toNat ≤ 8) :
    field (readValue .ctx2 s) 8 0 = s.ctx.maxs ∧
    field (readValue .ctx2 s) 15 9 = 0 ∧
    field (readValue .ctx2 s) 31 16 = s.ctx.wsize := by
  have hmaxs := Context.maxs_le hl
  have hwsize := s.ctx.wsize_le
  rw [ramBytes] at hwsize
  simp only [readValue, State.ctx2Word, hc, if_true, place, field, BitVec.toNat_ofNat]
  refine ⟨?_, ?_, ?_⟩ <;> omega

/-- Settles O20: the context of a state that meets the invariant is 0 or in the legal range, so its sizes fit. -/
theorem contextRegisters : Obligations.ContextRegisters := by
  intro s h
  refine ⟨fun hc => ?_, fun hc => ?_, rfl, rfl, fun v => ⟨rfl, rfl⟩⟩
  · simp [readValue, State.ctxWord, State.ctx2Word, hc]
  · obtain ⟨-, -, hl⟩ := h.contextLegal hc
    obtain ⟨hoffb, hlenb, hess, hbep, hmins⟩ := fields_ctx hc hl
    exact ⟨hoffb, hlenb, hess, hbep, hmins, fields_ctx2 hc hl⟩

/-- ERR.CODE is the code of ERRCODE (R50). -/
theorem fields_err (s : State) :
    field (readValue .err s) 3 0 = s.errcode.code ∧ field (readValue .err s) 31 4 = 0 := by
  have h := s.errcode.code_lt
  simp only [readValue, State.errWord, place, field, BitVec.toNat_ofNat]
  omega

/-- TOKKIND.KIND is the value of TOKKIND (R54). -/
theorem fields_tokkind (s : State) :
    field (readValue .tokkind s) 1 0 = s.tokkind.code ∧ field (readValue .tokkind s) 31 2 = 0 := by
  have h := s.tokkind.code_lt
  simp only [readValue, State.tokkindWord, place, field, BitVec.toNat_ofNat]
  omega

/-- WSTAT holds `|WIN|` and `|PAT|` (R55). -/
theorem fields_wstat {s : State} (hp : s.pat.length ≤ patCap) :
    field (readValue .wstat s) 15 0 = s.win.length ∧
    field (readValue .wstat s) 24 16 = s.pat.length ∧
    field (readValue .wstat s) 31 25 = 0 := by
  have hf := s.window.fill.isLt
  have hw : s.win.length = s.window.fill.toNat := Window.length_bytes _ _
  rw [patCap] at hp
  simp only [readValue, State.wstatWord, place, field, BitVec.toNat_ofNat]
  refine ⟨?_, ?_, ?_⟩ <;> omega

/-- A count below 2^32 reads as itself (R57, R58; log 15). -/
theorem toNat_countWord {n : Nat} (h : n < 2 ^ 32) : (countWord n).toNat = n := by
  rw [countWord, BitVec.toNat_ofNat, Nat.mod_eq_of_lt h]

/-- A write reaches CMD, CIN_DATA, CIN_EOF and CTRL only (R72). -/
theorem writeReg_readOnly {r : Reg} (h : r ≠ .cmd ∧ r ≠ .cinData ∧ r ≠ .cinEof ∧ r ≠ .ctrl) (v : Word)
    (s : State) : writeReg r v s = s := by
  obtain ⟨hcmd, hdata, heof, hctrl⟩ := h
  cases r with
  | cmd => exact absurd rfl hcmd
  | cinData => exact absurd rfl hdata
  | cinEof => exact absurd rfl heof
  | ctrl => exact absurd rfl hctrl
  | _ => rfl

/-- Settles O21, register by register. -/
theorem resultAndErrorRegisters : Obligations.ResultAndErrorRegisters := by
  intro s h
  obtain ⟨hcode, herr⟩ := fields_err s
  obtain ⟨hkind, htok⟩ := fields_tokkind s
  obtain ⟨hfill, hplen, hwstat⟩ := fields_wstat h.patFits
  refine ⟨fun row hrow he => ?_, herr, rfl, fun row hrow hk => ?_, htok, rfl, rfl, hfill, hplen, hwstat,
    rfl, rfl, toNat_countWord, toNat_countWord, toNat_countWord, rfl, fun r hr v => ?_⟩
  · rw [hcode, he]
    clear he
    revert row
    decide
  · rw [hkind, hk]
    clear hk
    revert row
    decide
  · refine writeReg_readOnly ?_ v s
    revert r
    decide

/-! ### Reset (R59, R60) -/

theorem State.hardReset_atReset (s : State) : s.hardReset.AtReset := by constructor <;> rfl

theorem State.holding_of_idle {s : State} (h : s.busy = false) : s.holding = none := by
  simp [State.holding, State.latched, h]

/-- What a state with every element at its reset value reads (R60). -/
theorem State.AtReset.readValue {t : State} (h : t.AtReset) (r : Reg) :
    readValue r t =
      if r = .tokkind then 3
      else if r = .id then 0x505A5901#32
      else if r = .coutDepth then BitVec.ofNat 32 t.params.coutDepth
      else if r = .cinDepth then BitVec.ofNat 32 t.params.cinDepth
      else if r = .routDepth then BitVec.ofNat 32 t.params.routDepth
      else 0 := by
  have hh := State.holding_of_idle h.busy
  have hstatus : t.statusWord = 0 := by
    simp [State.statusWord, State.holdOut, State.holdIn, hh, h.busy, h.fault, h.cfgd, h.wclosed, h.rclosed,
      h.eof, h.eos, h.found, h.wacc, h.rbuf, place]
  have herr : t.errWord = 0 := by rw [State.errWord, h.errcode]; rfl
  have hctx : t.ctxWord = 0 := by rw [State.ctxWord, h.cfgd]; rfl
  have hctx2 : t.ctx2Word = 0 := by rw [State.ctx2Word, h.cfgd]; rfl
  have htok : t.tokkindWord = 3 := by rw [State.tokkindWord, h.tokkind]; rfl
  have hwstat : t.wstatWord = 0 := by rw [State.wstatWord, h.wfill, h.pat]; rfl
  cases r <;>
    simp [Machine.readValue, hstatus, herr, hctx, hctx2, htok, hwstat, h.errcmd, h.resa, h.resb, h.wcount,
      h.cout, h.cin, h.rout, headWord, countWord, idValue]

/-- Settles O7: the reset value does not depend on the state before. -/
theorem resetFromAnyState : Obligations.ResetFromAnyState := by
  refine ⟨State.reset.hardReset_atReset, fun s ts hts => ?_, fun t r h => h.readValue r⟩
  exact ⟨_, step_of_reset hts, State.hardReset_atReset _, rfl, rfl, rfl⟩

/-- Settles O8: CTRL's write looks at bit 0 only. -/
theorem ctrlWriteResets : Obligations.CtrlWriteResets := by
  refine ⟨fun s v hb hv => ?_, fun s v hb hv => ?_, fun s => rfl⟩
  · have hw : writeReg .ctrl v s = s.hardReset := if_pos ((getLsbD_zero_iff v).mp hv)
    have ha := hostAccess_write s .ctrl v hb
    rw [hw] at ha
    exact ⟨_, ha, s.hardReset_atReset, rfl, rfl, rfl⟩
  · have hw : writeReg .ctrl v s = s := if_neg (mt (getLsbD_zero_iff v).mpr (by rw [hv]; decide))
    have ha := hostAccess_write s .ctrl v hb
    rwa [hw] at ha

/-- Settles O9: each clause of the invariant holds of the reset state's literal fields. -/
theorem resetMeetsInvariant : Obligations.ResetMeetsInvariant := by
  constructor <;> decide

/-! ### CMD and the FIFO registers (R48, R57) -/

/-- Settles O17, from the three cases of CMD's write. -/
theorem cmdWrite : Obligations.CmdWrite := by
  intro s v hb
  have hacc : hostAccess (.write s.params.blockBase 4 v) s = .next (writeCmd v s) :=
    hostAccess_write s .cmd v hb
  refine ⟨fun hf hi => ?_, fun hf => ?_, fun hf hi => ?_, rfl⟩
  · rw [hacc, writeCmd, if_neg (by simp [hf]), if_neg (by simp [hi])]
  · rw [hacc, writeCmd, if_pos hf]
  · rw [hacc, writeCmd, if_neg (by simp [hf]), if_pos hi]

/-- The data register of a FIFO that is not empty: the byte with VALID, bit 8, set (R57). -/
theorem headWord_cons (b : Byte) (bs : List Byte) :
    headWord (b :: bs) = BitVec.ofNat 32 b.toNat ||| (1#32 <<< 8) := by
  have hor : b.toNat ||| 2 ^ 8 = b.toNat + 1 * 2 ^ 8 := by
    rw [Nat.or_comm, Nat.add_comm]
    exact (Nat.two_pow_add_eq_or_of_lt b.isLt 1).symm
  have hvalid : 1#32 <<< 8 = BitVec.ofNat 32 (2 ^ 8) := rfl
  rw [headWord, hvalid, ← BitVec.ofNat_or, hor]

/-- Settles O18, register by register. -/
theorem fifoRegisters : Obligations.FifoRegisters := by
  refine ⟨?_, ?_, ?_, ?_, ?_, ?_, ?_, ?_, ?_, ?_, fun s => ⟨rfl, rfl⟩, rfl⟩
  · intro s b bs h
    exact ⟨by rw [readValue, h, headWord_cons], by rw [readEffect, h]; rfl⟩
  · intro s h
    exact ⟨by rw [readValue, h]; rfl, by simp only [readEffect, h, List.tail_nil]; rw [← h]⟩
  · intro s b bs h
    exact ⟨by rw [readValue, h, headWord_cons], by rw [readEffect, h]; rfl⟩
  · intro s h
    exact ⟨by rw [readValue, h]; rfl, by simp only [readEffect, h, List.tail_nil]; rw [← h]⟩
  · exact fun s => ⟨toNat_countWord, toNat_countWord, toNat_countWord⟩
  · intro s v hf hroom heof
    rw [writeReg, writeCinData, if_neg (by simp [hf]), if_pos (by simp [hroom, heof])]
    rfl
  · intro s v hf hfull
    rw [writeReg, writeCinData, if_neg (by simp [hf]), if_neg]
    rcases hfull with hfull | heof
    · simp [hfull]
    · simp [heof]
  · exact fun s v hf => if_pos hf
  · intro s v hf hv
    rw [writeReg, writeCinEof, if_neg (by simp [hf]), if_pos ((getLsbD_zero_iff v).mp hv)]
  · intro s v h
    rw [writeReg, writeCinEof]
    rcases h with hf | hv
    · exact if_pos hf
    · rw [if_neg (mt (getLsbD_zero_iff v).mpr (by rw [hv]; decide)), ite_self]

end Sys2Proof.Machine
end

section
/-! SUPPORT. What changes what (R24, R29, R42, R47, R80, R170, R197): the bits and bytes the reader pulls, the
flags of a held command, who writes the context and the window, and the RAM bytes an append or a copy stores
to. -/

namespace Sys2Proof.Machine

/-- The states a command can end in: the fault entry, the state it waits in, or its completed commit (R133). -/
theorem exec_next {i : Instr} {s t : State} (he : exec i s = .next t) :
    (∃ c, t = s.takeFault c s.lcmd) ∨ t = s ∨ ∃ u, attempt i s = .done u ∧ t = u.complete := by
  obtain ⟨c, -, hx⟩ | ⟨w, -, hx⟩ | ⟨u, hd, hx⟩ := exec_cases i s <;> rw [hx] at he <;> cases he
  · exact .inl ⟨c, rfl⟩
  · exact .inr (.inl rfl)
  · exact .inr (.inr ⟨u, hd, rfl⟩)

/-! ### The reader and the hold flags -/

/-- Settles O32, from the laws of `consume`; the bits kept are the end of those pulled. -/
theorem consumePullsOnDemand : Obligations.ConsumePullsOnDemand := by
  intro s k hr hk
  obtain ⟨hlen, hshort⟩ := s.length_rbuf_consume k hr hk
  have hpull : s.pullCount k ≤ s.cin.length := by
    rw [State.length_unread] at hk
    rw [State.pullCount]
    omega
  exact ⟨s.pullCount k, rfl, hpull, rfl, hlen, hshort, List.drop_suffix _ _, s.unread_consume k hk⟩

/-- RTOK and DSTEP wait for input when `peek` cannot tell the next token (R79). -/
theorem attempt_of_needMore {s : State} (hc : s.cfgd = true) (hr : s.rclosed = false)
    (hp : s.peek = .needMore) :
    attempt .rtok s = .hold .input ∧ attempt .dstep s = .hold .input := by
  simp [attempt, tryRtok, tryDstep, hc, hr, hp]

theorem State.holdIn_iff {s : State} : s.holdIn = true ↔ s.holding = some .input := by
  rw [State.holdIn, decide_eq_true_eq]

theorem State.holdOut_iff {s : State} : s.holdOut = true ↔ s.holding = some .output := by
  rw [State.holdOut, decide_eq_true_eq]

/-- Settles O51, from what the stages of the latched command wait for. -/
theorem holdFlags : Obligations.HoldFlags := by
  intro s
  refine ⟨?_, State.holdOut_iff.trans State.holding_eq_some_iff, fun ⟨hin, hout⟩ => ?_⟩
  · rw [State.holdIn_iff, State.holding_eq_some_iff]
    constructor
    · rintro ⟨hb, hf, i, hd, ha⟩
      obtain ⟨rfl | rfl, hc, hr, hp⟩ := attempt_hold_input ha
      · exact ⟨hb, hf, hc, hr, hp, .inl hd⟩
      · exact ⟨hb, hf, hc, hr, hp, .inr hd⟩
    · rintro ⟨hb, hf, hc, hr, hp, hd⟩
      obtain ⟨hrtok, hdstep⟩ := attempt_of_needMore hc hr hp
      obtain hd | hd := hd
      · exact ⟨hb, hf, _, hd, hrtok⟩
      · exact ⟨hb, hf, _, hd, hdstep⟩
  · rw [State.holdIn_iff] at hin
    rw [State.holdOut_iff, hin] at hout
    cases hout

/-! ### Who writes the context and the window -/

/-- A command that commits and is no CFG leaves the context, and the window unless it appends (R24, R42). -/
theorem attempt_done_frame {i : Instr} {s t : State} (hd : attempt i s = .done t)
    (hcfg : ∀ o l, i ≠ .cfg o l) :
    t.cfgd = s.cfgd ∧ t.ctx = s.ctx ∧
      ((∀ b, i ≠ .wext b) → (∀ b n l, i ≠ .cstep b n l) → i ≠ .dstep → t.window = s.window) := by
  cases i with
  | nop => cases hd; exact ⟨rfl, rfl, fun _ _ _ => rfl⟩
  | cfg off len => exact absurd rfl (hcfg off len)
  | wlit b =>
    obtain ⟨-, -, -, rfl⟩ := tryWlit_done hd
    exact ⟨rfl, rfl, fun _ _ _ => rfl⟩
  | wref d l =>
    obtain ⟨-, -, -, -, rfl⟩ := tryWref_done hd
    exact ⟨rfl, rfl, fun _ _ _ => rfl⟩
  | wclose =>
    obtain ⟨-, -, -, rfl⟩ := tryWclose_done hd
    exact ⟨rfl, rfl, fun _ _ _ => rfl⟩
  | rtok =>
    obtain ⟨-, -, ⟨-, rfl⟩ | ⟨tok, k, -, rfl⟩⟩ := tryRtok_done hd
    · exact ⟨rfl, rfl, fun _ _ _ => rfl⟩
    · simp
  | rclose =>
    obtain ⟨-, -, -, rfl⟩ := tryRclose_done hd
    exact ⟨rfl, rfl, fun _ _ _ => rfl⟩
  | wext b =>
    obtain ⟨-, rfl⟩ := tryWext_done hd
    exact ⟨rfl, rfl, fun h _ _ => absurd rfl (h b)⟩
  | pclr =>
    obtain ⟨-, rfl⟩ := tryPclr_done hd
    exact ⟨rfl, rfl, fun _ _ _ => rfl⟩
  | ppush b =>
    obtain ⟨-, -, rfl⟩ := tryPpush_done hd
    exact ⟨rfl, rfl, fun _ _ _ => rfl⟩
  | wfind =>
    obtain ⟨-, rfl⟩ := tryWfind_done hd
    simp
  | cstep b next last =>
    obtain ⟨-, -, -, ⟨-, rfl⟩ | ⟨ts, -, -, -, rfl⟩⟩ := tryCstep_done hd
    · exact ⟨rfl, rfl, fun _ h _ => absurd rfl (h b next last)⟩
    · exact ⟨rfl, rfl, fun _ h _ => absurd rfl (h b next last)⟩
  | dstep =>
    obtain ⟨-, -, ⟨-, rfl⟩ | ⟨tok, k, -, -, -, rfl⟩⟩ := tryDstep_done hd
    · exact ⟨rfl, rfl, fun _ _ h => absurd rfl h⟩
    · simp

theorem cfgLegal_iff (off len : Nat) :
    cfgLegal off len = true ↔ 1 ≤ off ∧ off ≤ 15 ∧ 1 ≤ len ∧ len ≤ 8 := by
  simp [cfgLegal, and_assoc]

/-- A CFG with legal widths starts a session (R131). -/
theorem exec_cfg_legal {off len : Nat} (h : cfgLegal off len = true) (s : State) :
    exec (.cfg off len) s = .next (s.configure off len).complete := by
  rw [exec_eq_finish, attempt, tryCfg, if_pos h, finish_done]

/-- A CFG with an illegal width faults (R131). -/
theorem exec_cfg_illegal {off len : Nat} (h : ¬ cfgLegal off len = true) (s : State) :
    exec (.cfg off len) s = .next (s.takeFault .badConfig s.lcmd) := by
  rw [exec_eq_finish, attempt, tryCfg, if_neg h, finish_fault]

/-- Settles O52: the commands by what they commit, the host accesses by their frame. -/
theorem contextAndWindowWriters : Obligations.ContextAndWindowWriters := by
  refine ⟨fun i s t he hcfg => ?_, fun o l s t he => ⟨fun hl => ?_, fun hl => ?_⟩, fun s => ⟨rfl, rfl⟩,
    fun s t a ts hts he hr => ?_⟩
  · obtain ⟨c, rfl⟩ | rfl | ⟨u, hd, rfl⟩ := exec_next he
    · exact ⟨rfl, rfl, fun _ _ _ => rfl⟩
    · exact ⟨rfl, rfl, fun _ _ _ => rfl⟩
    · have hu := attempt_done_frame hd hcfg
      exact hu
  · rw [exec_cfg_legal ((cfgLegal_iff o l).mpr hl)] at he
    cases he
    exact ⟨rfl, rfl⟩
  · rw [exec_cfg_illegal (mt (cfgLegal_iff o l).mp hl)] at he
    cases he
    exact ⟨rfl, rfl, rfl⟩
  · rw [step_of_access hts] at he
    obtain ⟨hr', -⟩ | ⟨-, ht⟩ := hostAccess_frame he
    · exact absurd (hr.symm.trans hr') (by decide)
    · rw [ht]
      exact ⟨rfl, rfl, rfl⟩

/-! ### The RAM bytes a command stores to -/

/-- An append stores to the slot after the newest byte and nowhere else (R170). -/
theorem Window.read_append {n : Nat} {w : Window} (h : w.Ok n) (b : Byte) {a : Nat}
    (ha : a ≠ (w.head.toNat + w.fill.toNat) % n) : (w.append n b).ram.read a = w.ram.read a := by
  rw [Window.append_ram, Memory.read_write (Memory.wf_rising h.ram), if_neg (Window.slot_eq h ▸ ha)]

/-- A copy stores to the slots after the newest byte, one for each byte copied (R197). -/
theorem Window.read_copy {n d l : Nat} {w : Window} (h : w.Ok n) {a : Nat}
    (ha : ∀ j, j < l → a ≠ (w.head.toNat + w.fill.toNat + j) % n) :
    (w.copy n d l).1.ram.read a = w.ram.read a := by
  induction l generalizing w with
  | zero => rfl
  | succ l ih =>
    rw [Window.copy_succ]
    have hslot := Window.slot_append h (w.byte n (w.fill.toNat - d))
    rw [ih (h.append _), Window.read_append h]
    · exact ha 0 (Nat.succ_pos l)
    · intro j hj
      rw [Nat.add_mod, hslot, ← Nat.add_mod, Nat.add_assoc, Nat.add_comm 1 j]
      exact ha (j + 1) (Nat.succ_lt_succ hj)

/-- Replaying a token stores one byte for each the token yields (R197). -/
theorem State.read_replay {s : State} (h : s.window.Ok s.ctx.wsize) (tok : Token) {a : Nat}
    (ha : ∀ j, j < tokenYield tok →
      a ≠ (s.window.head.toNat + s.window.fill.toNat + j) % s.ctx.wsize) :
    (s.replay tok).window.ram.read a = s.window.ram.read a := by
  cases tok with
  | lit b => exact Window.read_append h b (ha 0 Nat.one_pos)
  | ref d l => exact Window.read_copy h ha

/-- Settles O57: a fault and a hold store nothing, and what commits is an append or a replayed token. -/
theorem ramStores : Obligations.RamStores := by
  refine ⟨fun i s t h he hi a ha => ?_, fun s t tok k h he hk a ha => ?_, fun s t he hk => ?_⟩
  · obtain ⟨c, rfl⟩ | rfl | ⟨u, hd, rfl⟩ := exec_next he
    · rfl
    · rfl
    · obtain ⟨b, rfl⟩ | ⟨b, n, l, rfl⟩ := hi
      · obtain ⟨-, rfl⟩ := tryWext_done hd
        exact Window.read_append h.windowOk b ha
      · obtain ⟨-, -, -, ⟨-, rfl⟩ | ⟨ts, -, -, -, rfl⟩⟩ := tryCstep_done hd
        · exact Window.read_append h.windowOk b ha
        · exact Window.read_append h.windowOk b ha
  · obtain ⟨c, rfl⟩ | rfl | ⟨u, hd, rfl⟩ := exec_next he
    · rfl
    · rfl
    · obtain ⟨-, -, ⟨hp, -⟩ | ⟨tok', k', hp, -, -, rfl⟩⟩ := tryDstep_done hd
      · cases hk ▸ hp
      · cases hk ▸ hp
        rw [State.complete_window, State.answerToken_window]
        exact State.read_replay (s := s.consume k) h.windowOk tok ha
  · obtain ⟨c, rfl⟩ | rfl | ⟨u, hd, rfl⟩ := exec_next he
    · rfl
    · rfl
    · obtain ⟨-, -, ⟨-, rfl⟩ | ⟨tok, k, hp, -⟩⟩ := tryDstep_done hd
      · rfl
      · exact absurd hp (hk tok k)

end Sys2Proof.Machine
end

section
/-! SUPPORT. The bounds of the register window (R70 to R72, R77, R78): which accesses have a step, where the
machine stops at one that has none, and what an access of a reserved offset or of a register does. -/

namespace Sys2Proof.Machine

/-! ### Where an access stops, for reads and writes at once -/

def HostAccess.addr : HostAccess → Nat
  | .read addr _ => addr
  | .write addr _ _ => addr

def HostAccess.width : HostAccess → Nat
  | .read _ width => width
  | .write _ width _ => width

/-- What an access does once it is known to have a step. -/
def HostAccess.effect : HostAccess → State → State
  | .read addr _, s => readOffset addr (addr - s.params.blockBase) s
  | .write addr _ v, s => writeOffset (addr - s.params.blockBase) v s

theorem inWindow_iff {p : Params} {addr : Nat} :
    inWindow p addr = true ↔ p.blockBase ≤ addr ∧ addr < p.blockBase + 256 := by
  simp [inWindow]

theorem inWindow_eq_false_iff {p : Params} {addr : Nat} :
    inWindow p addr = false ↔ addr < p.blockBase ∨ p.blockBase + 256 ≤ addr := by
  rw [← Bool.not_eq_true, inWindow_iff]
  omega

theorem accessSupported_iff {addr width : Nat} :
    accessSupported addr width = true ↔ width = 4 ∧ addr % 4 = 0 := by
  simp [accessSupported]

theorem accessSupported_eq_false_iff {addr width : Nat} :
    accessSupported addr width = false ↔ width ≠ 4 ∨ addr % 4 ≠ 0 := by
  rw [← Bool.not_eq_true, accessSupported_iff]
  omega

theorem HostAccess.supported_iff {a : HostAccess} {p : Params} :
    a.supported p = true ↔ inWindow p a.addr = true ∧ accessSupported a.addr a.width = true := by
  cases a <;> exact Bool.and_eq_true_iff

/-- Reads and writes pass the same two checks, the window first (R70, R71). -/
theorem hostAccess_eq (a : HostAccess) (s : State) :
    hostAccess a s =
      if !inWindow s.params a.addr then .fault (.outsideWindow a.addr)
      else if !accessSupported a.addr a.width then .refused (.unsupportedAccess a.addr a.width)
      else .next (a.effect s) := by
  cases a <;> rfl

/-- An access outside the register window stops at its own address (log 8). -/
theorem hostAccess_of_outside {a : HostAccess} {s : State} (hout : inWindow s.params a.addr = false) :
    hostAccess a s = .fault (.outsideWindow a.addr) := by
  rw [hostAccess_eq, hout]
  rfl

/-- An access inside the window that is not an aligned 32-bit one is refused (R71). -/
theorem hostAccess_of_odd {a : HostAccess} {s : State} (hin : inWindow s.params a.addr = true)
    (hodd : accessSupported a.addr a.width = false) :
    hostAccess a s = .refused (.unsupportedAccess a.addr a.width) := by
  rw [hostAccess_eq, hin, hodd]
  rfl

/-- A supported access always has a step (R71, R77). -/
theorem hostAccess_of_supported {a : HostAccess} {s : State} (h : a.supported s.params = true) :
    hostAccess a s = .next (a.effect s) := by
  obtain ⟨hin, hok⟩ := HostAccess.supported_iff.mp h
  rw [hostAccess_eq, hin, hok]
  rfl

/-- The block's turn always answers a next state: a fault of a command is a state, and so is a hold (R133). -/
theorem blockTurn_next (s : State) : ∃ t, blockTurn s = .next t := by
  obtain ⟨-, hx⟩ | ⟨-, -, ⟨r, -, hx⟩ | ⟨i, -, hx⟩⟩ := blockTurn_cases s
  · exact ⟨_, hx⟩
  · exact ⟨_, hx⟩
  · obtain ⟨c, -, he⟩ | ⟨w, -, he⟩ | ⟨u, -, he⟩ := exec_cases i s <;> exact ⟨_, hx.trans he⟩

/-- A turn that the schedule may hold safely has a step. -/
theorem step_next_of_safe {s : State} (h : ∀ u ∈ s.turns.head?, u.safe s.params = true) :
    ∃ t, step s = .next t := by
  match hts : s.turns with
  | [] => exact step_of_no_turns hts ▸ blockTurn_next s
  | .block :: ts => exact step_of_block hts ▸ blockTurn_next _
  | .access a :: ts =>
    have ha : a.supported s.params = true := h (.access a) (by rw [hts]; rfl)
    exact ⟨_, (step_of_access hts).trans (hostAccess_of_supported ha)⟩
  | .reset :: ts => exact ⟨_, step_of_reset hts⟩

/-- Settles O11: a block turn, a reset and a supported access go on; the other accesses stop by where they
point. -/
theorem onlyUnsupportedAccessesStop : Obligations.OnlyUnsupportedAccessesStop := by
  refine ⟨fun s h => step_next_of_safe h,
    fun s addr width v ts hts => ⟨fun hout => ?_, fun hlo hhi hodd => ?_⟩⟩
  · have hout := inWindow_eq_false_iff.mpr hout
    obtain hts | hts := hts <;> exact (step_of_access hts).trans (hostAccess_of_outside hout)
  · have hin := inWindow_iff.mpr ⟨hlo, hhi⟩
    have hodd := accessSupported_eq_false_iff.mpr hodd
    obtain hts | hts := hts <;> exact (step_of_access hts).trans (hostAccess_of_odd hin hodd)

/-- Settles O23: inside the window only the shape of the access decides. -/
theorem oddAccessIsRefused : Obligations.OddAccessIsRefused := by
  intro s addr width v hlo hhi hodd
  have hin := inWindow_iff.mpr ⟨hlo, hhi⟩
  have hodd := accessSupported_eq_false_iff.mpr hodd
  exact ⟨hostAccess_of_odd (a := .read addr width) hin hodd,
    hostAccess_of_odd (a := .write addr width v) hin hodd⟩

/-! ### Reserved offsets and registers -/

theorem Reg.offset_lt (r : Reg) : r.offset < 0x5C := by cases r <;> decide

/-- The offsets from 0x5C on are reserved (R70). -/
theorem Reg.ofOffset_reserved {off : Nat} (h : 0x5C ≤ off) : Reg.ofOffset off = none := by
  cases hr : Reg.ofOffset off with
  | none => rfl
  | some r =>
    have hlt := r.offset_lt
    rw [← Reg.eq_offset_of_ofOffset hr] at hlt
    exact absurd hlt (Nat.not_lt.mpr h)

theorem readOffset_reserved {off : Nat} (h : 0x5C ≤ off) (addr : Nat) (s : State) :
    readOffset addr off s = { s with reads := s.reads ++ [⟨addr, 0⟩] } := by
  rw [readOffset, Reg.ofOffset_reserved h]

theorem writeOffset_reserved {off : Nat} (h : 0x5C ≤ off) (v : Word) (s : State) :
    writeOffset off v s = s := by
  rw [writeOffset, Reg.ofOffset_reserved h]

/-- An aligned 32-bit access at an offset of the window is supported (R70, R71). -/
theorem supported_at_offset {p : Params} (hb : p.blockBase % 256 = 0) {off : Nat} (hoff : off < 256)
    (hal : off % 4 = 0) :
    inWindow p (p.blockBase + off) = true ∧ accessSupported (p.blockBase + off) 4 = true := by
  rw [inWindow_iff, accessSupported_iff]
  omega

theorem hostAccess_read_reserved {s : State} (hb : s.params.blockBase % 256 = 0) {off : Nat}
    (hlo : 0x5C ≤ off) (hhi : off ≤ 0xFC) (hal : off % 4 = 0) :
    hostAccess (.read (s.params.blockBase + off) 4) s =
      .next { s with reads := s.reads ++ [⟨s.params.blockBase + off, 0⟩] } := by
  have hok := supported_at_offset hb (by omega) hal
  rw [hostAccess_of_supported (HostAccess.supported_iff.mpr hok), HostAccess.effect,
    Nat.add_sub_cancel_left, readOffset_reserved hlo]

theorem hostAccess_write_reserved {s : State} (hb : s.params.blockBase % 256 = 0) {off : Nat}
    (hlo : 0x5C ≤ off) (hhi : off ≤ 0xFC) (hal : off % 4 = 0) (v : Word) :
    hostAccess (.write (s.params.blockBase + off) 4 v) s = .next s := by
  have hok := supported_at_offset hb (by omega) hal
  rw [hostAccess_of_supported (HostAccess.supported_iff.mpr hok), HostAccess.effect,
    Nat.add_sub_cancel_left, writeOffset_reserved hlo]

theorem readEffect_reads (r : Reg) (s : State) : (readEffect r s).reads = s.reads := by cases r <;> rfl

/-- CMD, CIN_DATA, CIN_EOF and CTRL read 0 (R72). -/
theorem readValue_writeOnly {r : Reg} (h : r = .cmd ∨ r = .cinData ∨ r = .cinEof ∨ r = .ctrl) (s : State) :
    readValue r s = 0 := by
  obtain rfl | rfl | rfl | rfl := h <;> rfl

/-- Only a read of COUT_DATA or ROUT_DATA has an effect (R78). -/
theorem readEffect_eq_self {r : Reg} (hcout : r ≠ .coutData) (hrout : r ≠ .routData) (s : State) :
    readEffect r s = s := by
  cases r with
  | coutData => exact absurd rfl hcout
  | routData => exact absurd rfl hrout
  | _ => rfl

/-- Settles O22: a reserved offset has no register, and at a register's offset the register decides. -/
theorem reservedAndReadOnlyAccesses : Obligations.ReservedAndReadOnlyAccesses := by
  refine ⟨fun s off hb hlo hhi hal => ?_, fun s r hb => ?_, fun s r v hb => ?_⟩
  · exact ⟨hostAccess_read_reserved hb hlo hhi hal, hostAccess_write_reserved hb hlo hhi hal⟩
  · have heffect : ({ readEffect r s with reads := s.reads } : State) = readEffect r s := by
      rw [← readEffect_reads r s]
    refine ⟨_, hostAccess_read s r hb, rfl, heffect, fun h => readValue_writeOnly h s, fun h => ?_,
      fun h => ?_, fun hcout hrout => heffect.trans (readEffect_eq_self hcout hrout s)⟩
    · exact heffect.trans (by rw [h]; rfl)
    · exact heffect.trans (by rw [h]; rfl)
  · exact ⟨hostAccess_write s r v hb,
      fun hcmd hdata heof hctrl => writeReg_readOnly ⟨hcmd, hdata, heof, hctrl⟩ v s⟩

end Sys2Proof.Machine
end

section
/-! SUPPORT. The decoder and the encoder (R106 to R110): what a word must hold to decode to a command, and that
the two are inverse. -/

namespace Sys2Proof

/-! ### The rows of the opcode map, read off a command -/

/-- The low bits of a command's word that its row leaves free for the operands, the zeros of its mask (R108). -/
def Instr.operandBits : Instr → Nat
  | .nop => 0
  | .cfg _ _ => 16
  | .wlit _ => 8
  | .wref _ _ => 24
  | .wclose => 0
  | .rtok => 0
  | .rclose => 0
  | .wext _ => 8
  | .pclr => 0
  | .ppush _ => 8
  | .wfind => 0
  | .cstep _ _ _ => 17
  | .dstep => 0

/-- The command of the same row with its operands read from a word (R107). -/
def Instr.readOperands (w : Word) : Instr → Instr
  | .cfg _ _ => .cfg (field w 7 0) (field w 15 8)
  | .wlit _ => .wlit (byteField w 0)
  | .wref _ _ => .wref (field w 14 0) (field w 23 15)
  | .wext _ => .wext (byteField w 0)
  | .ppush _ => .ppush (byteField w 0)
  | .cstep _ _ _ => .cstep (byteField w 0) (byteField w 8) (decide (field w 16 16 = 1))
  | i => i

/-- The word has the fixed bits of the command's row: the opcode, then zeros down to the operands (R108). -/
abbrev Instr.Fits (i : Instr) (w : Word) : Prop :=
  field w 31 i.operandBits = i.opcode * 2 ^ (28 - i.operandBits)

@[simp] theorem Instr.operandBits_readOperands (w : Word) (i : Instr) :
    (i.readOperands w).operandBits = i.operandBits := by cases i <;> rfl

@[simp] theorem Instr.opcode_readOperands (w : Word) (i : Instr) :
    (i.readOperands w).opcode = i.opcode := by cases i <;> rfl

@[simp] theorem Instr.readOperands_readOperands (v w : Word) (i : Instr) :
    (i.readOperands v).readOperands w = i.readOperands w := by cases i <;> rfl

theorem Instr.operandBits_le (i : Instr) : i.operandBits ≤ 28 := by
  cases i <;> simp [Instr.operandBits]

theorem Instr.opcode_lt (i : Instr) : i.opcode < 16 := by cases i <;> simp [Instr.opcode]

/-- A field that reaches up to bit 31 is a quotient. -/
theorem field_top (w : Word) {lo : Nat} (h : lo ≤ 32) : field w 31 lo = w.toNat / 2 ^ lo := by
  have hlt : w.toNat < 2 ^ lo * 2 ^ (32 - lo) := by
    rw [← pow_add, Nat.add_sub_cancel' h]; exact w.isLt
  rw [field_eq, Nat.mod_eq_of_lt (Nat.div_lt_of_lt_mul hlt)]

/-- The fixed bits of a row fix the opcode field (R106). -/
theorem Instr.Fits.field_opcode {i : Instr} {w : Word} (h : i.Fits w) : field w 31 28 = i.opcode := by
  have hle := i.operandBits_le
  rw [Instr.Fits, field_top w (by omega)] at h
  rw [field_top w (by decide), ← Nat.add_sub_cancel' hle, pow_add, ← Nat.div_div_eq_div_mul, h,
    Nat.mul_div_cancel _ (Nat.two_pow_pos _)]

/-! ### The decoder -/

/-- One command of every row, in the order of the opcode map. -/
def rowCommands : List Instr :=
  [.nop, .cfg 0 0, .wlit 0, .wref 0 0, .wclose, .rtok, .rclose, .wext 0, .pclr, .ppush 0, .wfind,
    .cstep 0 0 false, .dstep]

/-- The first row of a list whose fixed bits a word has, as a command with its operands read from the word. -/
def firstFit (w : Word) (reject : Reject) : List Instr → Except Reject Instr
  | [] => .error reject
  | i :: rest => if i.Fits w then .ok (i.readOperands w) else firstFit w reject rest

/-- The chain of tests of `decode` is the search for the first row that fits (R109). -/
theorem decode_eq_firstFit (w : Word) : ∃ reject, decode w = firstFit w reject rowCommands := by
  by_cases h : 0xD ≤ field w 31 28
  · exact ⟨.reservedOpcode (field w 31 28), by rw [decode, if_pos h]; rfl⟩
  · exact ⟨.reservedBit (field w 31 28), by rw [decode, if_neg h]; rfl⟩

theorem exists_fits_of_firstFit {w : Word} {reject : Reject} {rows : List Instr} {i : Instr}
    (h : firstFit w reject rows = .ok i) : ∃ j ∈ rows, j.Fits w ∧ j.readOperands w = i := by
  induction rows with
  | nil => cases h
  | cons j rest ih =>
    obtain ⟨hj, rfl⟩ | ⟨-, hrest⟩ := decode_row h
    · exact ⟨j, List.mem_cons_self, hj, rfl⟩
    · obtain ⟨k, hk, hfits⟩ := ih hrest
      exact ⟨k, List.mem_cons_of_mem j hk, hfits⟩

theorem firstFit_of_unique {w : Word} (reject : Reject) {rows : List Instr} {i : Instr} (hi : i ∈ rows)
    (hfits : i.Fits w) (hunique : ∀ j ∈ rows, j.Fits w → j = i) :
    firstFit w reject rows = .ok (i.readOperands w) := by
  induction rows with
  | nil => cases hi
  | cons j rest ih =>
    by_cases hj : j.Fits w
    · rw [firstFit, if_pos hj, hunique j List.mem_cons_self hj]
    · have hne : i ≠ j := fun h => hj (h ▸ hfits)
      rw [firstFit, if_neg hj]
      exact ih (List.mem_of_ne_of_mem hne hi) fun k hk => hunique k (List.mem_cons_of_mem j hk)

theorem Instr.readOperands_mem_rowCommands (i : Instr) : i.readOperands 0 ∈ rowCommands := by
  cases i <;> exact List.mem_of_elem_eq_true rfl

/-- The opcode tells the rows apart (R108). -/
theorem eq_of_opcode_eq : ∀ i ∈ rowCommands, ∀ j ∈ rowCommands, i.opcode = j.opcode → i = j := by decide

/-- A word with the fixed bits of a command's row is that row's command (R109). -/
theorem decode_of_fits {i : Instr} {w : Word} (h : i.Fits w) : decode w = .ok (i.readOperands w) := by
  obtain ⟨reject, hd⟩ := decode_eq_firstFit w
  have hmem := i.readOperands_mem_rowCommands
  have hrow : (i.readOperands 0).Fits w := by simpa [Instr.Fits] using h
  rw [hd, firstFit_of_unique reject hmem hrow, Instr.readOperands_readOperands]
  exact fun j hj hfits => eq_of_opcode_eq j hj _ hmem (hfits.field_opcode.symm.trans hrow.field_opcode)

/-- What `decode` answers: the command whose fixed bits and operands the word has (R107 to R109). -/
theorem decode_eq_ok_iff {w : Word} {i : Instr} :
    decode w = .ok i ↔ i.Fits w ∧ i.readOperands w = i := by
  constructor
  · intro h
    obtain ⟨reject, hd⟩ := decode_eq_firstFit w
    obtain ⟨j, -, hfits, rfl⟩ := exists_fits_of_firstFit (hd.symm.trans h)
    exact ⟨by simpa [Instr.Fits] using hfits, j.readOperands_readOperands w w⟩
  · rintro ⟨hfits, hread⟩
    rw [decode_of_fits hfits, hread]

/-! ### The encoder -/

/-- The fixed bits of a command's row, from the number of its word. -/
theorem fits_encode {i : Instr} (h : i.wellFormed = true) : i.Fits (encode i) := by
  have hnum : encodeNat i / 2 ^ i.operandBits = i.opcode * 2 ^ (28 - i.operandBits) := by
    cases i with
    | cfg off len | wref dist length =>
      simp only [Instr.wellFormed, Bool.and_eq_true, decide_eq_true_eq] at h
      rw [encodeNat, Instr.operandBits, Instr.opcode]; omega
    | wlit b | wext b | ppush b =>
      have := b.isLt
      rw [encodeNat, Instr.operandBits, Instr.opcode]; omega
    | cstep b next last =>
      have := b.isLt
      have := next.isLt
      have := last.toNat_lt
      rw [encodeNat, Instr.operandBits, Instr.opcode]; omega
    | _ => rfl
  have hle := i.operandBits_le
  have hlt := encodeNat_lt h
  rw [Instr.Fits, field_top _ (by omega), encode, BitVec.toNat_ofNat, Nat.mod_eq_of_lt hlt, hnum]

theorem field_encode {i : Instr} (h : i.wellFormed = true) (hi lo : Nat) :
    field (encode i) hi lo = encodeNat i / 2 ^ lo % 2 ^ (hi + 1 - lo) :=
  field_ofNat (encodeNat_lt h) hi lo

theorem byteField_encode {i : Instr} (h : i.wellFormed = true) {b : Byte} {lo : Nat}
    (hb : encodeNat i / 2 ^ lo % 2 ^ 8 = b.toNat) : byteField (encode i) lo = b := by
  rw [byteField, field_encode h, show lo + 7 + 1 - lo = 8 by omega, hb, BitVec.ofNat_toNat,
    BitVec.setWidth_eq]

/-- The operands of a command come back from its word. -/
theorem readOperands_encode {i : Instr} (h : i.wellFormed = true) : i.readOperands (encode i) = i := by
  cases i with
  | cfg off len =>
    rw [Instr.readOperands, field_encode h, field_encode h]
    simp only [Instr.wellFormed, Bool.and_eq_true, decide_eq_true_eq] at h
    simp only [encodeNat, Instr.cfg.injEq]; omega
  | wref dist length =>
    rw [Instr.readOperands, field_encode h, field_encode h]
    simp only [Instr.wellFormed, Bool.and_eq_true, decide_eq_true_eq] at h
    simp only [encodeNat, Instr.wref.injEq]; omega
  | wlit b | wext b | ppush b =>
    have := b.isLt
    rw [Instr.readOperands, byteField_encode h (b := b) (by rw [encodeNat]; omega)]
  | cstep b next last =>
    have := b.isLt
    have := next.isLt
    have hlast : encodeNat (.cstep b next last) / 2 ^ 16 % 2 ^ 1 = last.toNat := by
      have := last.toNat_lt
      rw [encodeNat]; omega
    rw [Instr.readOperands, byteField_encode h (b := b) (by rw [encodeNat]; omega),
      byteField_encode h (b := next) (by rw [encodeNat]; omega), field_encode h, hlast]
    cases last <;> rfl
  | _ => rfl

theorem toNat_byteField (w : Word) (lo : Nat) : (byteField w lo).toNat = w.toNat / 2 ^ lo % 2 ^ 8 := by
  rw [byteField, BitVec.toNat_ofNat, field_eq, show lo + 7 + 1 - lo = 8 by omega, Nat.mod_mod]

theorem toNat_decide_field_bit (w : Word) (n : Nat) : (decide (field w n n = 1)).toNat = field w n n := by
  rw [field_eq, Nat.add_sub_cancel_left, pow_one]
  obtain h | h := Nat.mod_two_eq_zero_or_one (w.toNat / 2 ^ n) <;> rw [h] <;> rfl

/-- A command whose operands are read from a word is well formed: each comes from its own field (R107). -/
theorem wellFormed_readOperands (w : Word) (i : Instr) : (i.readOperands w).wellFormed = true := by
  cases i with
  | cfg off len | wref dist length =>
    simp only [Instr.readOperands, Instr.wellFormed, field_eq, Bool.and_eq_true, decide_eq_true_eq]; omega
  | _ => rfl

/-- The fixed bits and the operand fields of a row are all of the word. -/
theorem encode_readOperands {i : Instr} {w : Word} (h : i.Fits w) : encode (i.readOperands w) = w := by
  have hle := i.operandBits_le
  rw [Instr.Fits, field_top w (by omega)] at h
  suffices hnum : encodeNat (i.readOperands w) = w.toNat by
    rw [encode, hnum, BitVec.ofNat_toNat, BitVec.setWidth_eq]
  cases i with
  | cstep b next last =>
    rw [Instr.operandBits, Instr.opcode] at h
    rw [Instr.readOperands, encodeNat, toNat_decide_field_bit, toNat_byteField, toNat_byteField]
    simp only [field_eq]
    omega
  | _ =>
    rw [Instr.operandBits, Instr.opcode] at h
    simp only [Instr.readOperands, encodeNat, toNat_byteField, field_eq]
    omega

/-! ### The opcode map -/

/-- The row of the opcode map a command belongs to (R108). -/
def Instr.opcodeRow (i : Instr) : OpcodeRow :=
  ⟨i.opcode, BitVec.ofNat 32 (i.opcode * 2 ^ 28), BitVec.allOnes 32 <<< i.operandBits⟩

theorem opcodeMap_eq : opcodeMap = rowCommands.map Instr.opcodeRow := by decide

theorem Instr.opcodeRow_mem (i : Instr) : i.opcodeRow ∈ opcodeMap := by
  have : (i.readOperands 0).opcodeRow = i.opcodeRow := by simp [Instr.opcodeRow]
  rw [opcodeMap_eq, ← this]
  exact List.mem_map_of_mem i.readOperands_mem_rowCommands

/-- A mask of the bits from `lo` up clears the bits below `lo`. -/
theorem toNat_and_allOnes_shiftLeft (w : Word) (lo : Nat) :
    (w &&& (BitVec.allOnes 32 <<< lo)).toNat = w.toNat / 2 ^ lo * 2 ^ lo := by
  rw [← BitVec.shiftLeft_ushiftRight, BitVec.toNat_shiftLeft, BitVec.toNat_ushiftRight,
    Nat.shiftRight_eq_div_pow, Nat.shiftLeft_eq,
    Nat.mod_eq_of_lt (Nat.lt_of_le_of_lt (Nat.div_mul_le_self _ _) w.isLt)]

/-- A word matches the row of a command by mask and match when it has the row's fixed bits (R108). -/
theorem Instr.hits_opcodeRow {i : Instr} {w : Word} : i.opcodeRow.hits w = true ↔ i.Fits w := by
  have hle := i.operandBits_le
  have hlt := i.opcode_lt
  have hpow : 2 ^ 28 = 2 ^ (28 - i.operandBits) * 2 ^ i.operandBits := by
    rw [← pow_add, Nat.sub_add_cancel hle]
  rw [OpcodeRow.hits, decide_eq_true_eq, Instr.opcodeRow, ← BitVec.toNat_inj,
    toNat_and_allOnes_shiftLeft, BitVec.toNat_ofNat, Nat.mod_eq_of_lt (by omega), Instr.Fits,
    field_top w (by omega), hpow, ← Nat.mul_assoc, Nat.mul_left_inj (Nat.two_pow_pos _).ne']

end Sys2Proof
end

section
/-! SUPPORT. Token streams (R100 to R104): the reader gives each admissible token back, so a padded stream holds
one sequence of tokens. -/

namespace Sys2Proof.Machine

theorem val_bitsOf_of_lt {n v : Nat} (h : v < 2 ^ n) : val (bitsOf n v) = v := by
  rw [val_bitsOf, Nat.mod_eq_of_lt h]

/-- The reader gives an admissible token back from its bits, whatever follows them (R100, R101, R150). -/
theorem peek_tokenBits_append {c : Context} {t : Token} (h : t.admissible c) (rest : Bits) (eof : Bool) :
    peek c (tokenBits c t ++ rest) eof = .token t (tokenBits c t).length := by
  cases t with
  | lit b =>
    rw [length_tokenBits_lit, tokenBits, List.cons_append, peek_false _ _ _ (by simp),
      List.take_left' (length_byteBits b), byteOf_byteBits]
  | ref d l =>
    obtain ⟨hd, hmins, hmaxs⟩ := h
    have hl : l - c.mins < 2 ^ c.lenb.toNat := by
      have := Nat.two_pow_pos c.lenb.toNat
      rw [Context.maxs] at hmaxs
      omega
    rw [length_tokenBits_ref, tokenBits, List.cons_append, List.append_assoc,
      peek_true _ _ _ (by simp [Context.ess]), List.take_left' (length_bitsOf _ d),
      List.drop_left' (length_bitsOf _ d), List.take_left' (length_bitsOf _ _), val_bitsOf_of_lt hd,
      val_bitsOf_of_lt hl, Nat.sub_add_cancel hmins]

/-- Fewer than 8 zero bits at EOF are the end of the stream (R150). -/
theorem peek_padding (c : Context) {n : Nat} (h : n < 8) : peek c (List.replicate n false) true = .eos := by
  rw [peek.eq_def, if_pos (by simp [h, allZero_replicate])]

/-- The padding of a stream is no stream that begins with a token (R104). -/
theorem replicate_ne_tokenBits_append {c : Context} {t : Token} (h : t.admissible c) (rest : Bits) {n : Nat}
    (hn : n < 8) : List.replicate n false ≠ tokenBits c t ++ rest := by
  intro heq
  have hpeek := peek_tokenBits_append h rest true
  rw [← heq, peek_padding c hn] at hpeek
  cases hpeek

/-- Two streams that begin with a token begin with the same one (R104). -/
theorem tokenBits_append_injective {c : Context} {t u : Token} (ht : t.admissible c) (hu : u.admissible c)
    {a b : Bits} (heq : tokenBits c t ++ a = tokenBits c u ++ b) : t = u ∧ a = b := by
  have hpeek := peek_tokenBits_append ht a true
  rw [heq, peek_tokenBits_append hu b true] at hpeek
  obtain rfl : u = t := (Peek.token.inj hpeek).1
  exact ⟨rfl, List.append_cancel_left heq⟩

/-- A padded stream holds one sequence of tokens (R104). -/
theorem padded_tokensBits_injective {c : Context} {m n : Nat} (hm : m < 8) (hn : n < 8) {ts us : List Token}
    (hts : ∀ t ∈ ts, t.admissible c) (hus : ∀ u ∈ us, u.admissible c)
    (heq : tokensBits c ts ++ List.replicate m false = tokensBits c us ++ List.replicate n false) :
    ts = us := by
  induction ts generalizing us with
  | nil =>
    cases us with
    | nil => rfl
    | cons u us =>
      rw [tokensBits_cons, List.append_assoc] at heq
      exact absurd heq (replicate_ne_tokenBits_append (hus u List.mem_cons_self) _ hm)
  | cons t ts ih =>
    have ht := hts t List.mem_cons_self
    rw [tokensBits_cons, List.append_assoc] at heq
    cases us with
    | nil => exact absurd heq.symm (replicate_ne_tokenBits_append ht _ hn)
    | cons u us =>
      rw [tokensBits_cons, List.append_assoc] at heq
      obtain ⟨rfl, hrest⟩ := tokenBits_append_injective ht (hus u List.mem_cons_self) heq
      rw [ih (fun v hv => hts v (List.mem_cons_of_mem t hv)) (fun v hv => hus v (List.mem_cons_of_mem t hv))
        hrest]

/-- Settles O5: the first clause is the reader's law for one token; the last follows from it token by token, as the
padding is no token. -/
theorem tokenStreamUniquelyDecodable : Obligations.TokenStreamUniquelyDecodable := by
  intro c
  exact ⟨fun t rest eof ht => peek_tokenBits_append ht rest eof, fun n hn => peek_padding c hn,
    fun ts us m n hts hus hm hn heq => padded_tokensBits_injective hm hn hts hus heq⟩

end Sys2Proof.Machine
end

section
/-! SUPPORT. The statements about the encoding of commands (R106 to R114). -/

namespace Sys2Proof.Machine

/-- Settles O1: the word has the fixed bits of the command's row and its operands. -/
theorem decodeEncodeAgree : Obligations.DecodeEncodeAgree :=
  fun _ hwf => decode_eq_ok_iff.mpr ⟨fits_encode hwf, readOperands_encode hwf⟩

/-- Settles O2: the command's operands were read from the word, and its row's fixed bits are the rest of it. -/
theorem decodedWordIsItsEncoding : Obligations.DecodedWordIsItsEncoding := by
  intro w i hd
  obtain ⟨hfits, hread⟩ := decode_eq_ok_iff.mp hd
  rw [← hread]
  exact ⟨wellFormed_readOperands w i, encode_readOperands hfits⟩

/-- A decoded command's row is a row of the opcode map that the word matches (R109). -/
theorem decode_hits {w : Word} {i : Instr} (hd : decode w = .ok i) :
    i.opcodeRow ∈ opcodeMap ∧ i.opcodeRow.hits w = true :=
  ⟨i.opcodeRow_mem, Instr.hits_opcodeRow.mpr (decode_eq_ok_iff.mp hd).1⟩

/-- A word that matches a row of the opcode map decodes to a command of that row (R109). -/
theorem decode_of_hits {w : Word} {r : OpcodeRow} (hr : r ∈ opcodeMap) (hhits : r.hits w = true) :
    ∃ i, decode w = .ok i ∧ i.opcode = r.opcode := by
  rw [opcodeMap_eq] at hr
  obtain ⟨j, -, rfl⟩ := List.mem_map.mp hr
  exact ⟨_, decode_of_fits (Instr.hits_opcodeRow.mp hhits), j.opcode_readOperands w⟩

/-- A word that matches no row of the opcode map faults with ILLEGAL_CMD (R109, R232). -/
theorem performWord_of_no_hit {w : Word} (h : ∀ r ∈ opcodeMap, r.hits w = false) (s : State) :
    performWord w s = .next (s.takeFault .illegalCmd w) := by
  rw [performWord]
  cases hd : decode w with
  | ok i =>
    obtain ⟨hmem, hhits⟩ := decode_hits hd
    rw [h _ hmem] at hhits
    cases hhits
  | error r => rfl

/-- Settles O3: a row of the opcode map, read by mask and match, is the fixed bits `decode` tests. -/
theorem decodeMatchesOpcodeMap : Obligations.DecodeMatchesOpcodeMap := by
  refine ⟨fun w i hd => ?_, fun w r hr hhits => decode_of_hits hr hhits,
    fun w s h => performWord_of_no_hit h s, by decide⟩
  obtain ⟨hmem, hhits⟩ := decode_hits hd
  exact ⟨i.opcodeRow, hmem, hhits, rfl⟩

/-- Settles O4: each word is its command's encoding by evaluation, so it decodes to the command. -/
theorem workedEncodings : Obligations.WorkedEncodings :=
  ⟨decodeEncodeAgree (.cfg 4 3) rfl, rfl, decodeEncodeAgree (.cfg 10 4) rfl, rfl,
    decodeEncodeAgree (.cfg 15 5) rfl, decodeEncodeAgree (.wlit 0x41#8) rfl,
    decodeEncodeAgree (.wref 4 3) rfl, decodeEncodeAgree (.cstep 0x61#8 0x62#8 false) rfl,
    decodeEncodeAgree (.cstep 0x62#8 0x00#8 true) rfl, rfl⟩

end Sys2Proof.Machine
end

section
/-! SUPPORT. The control commands NOP and CFG, which fault a command reports, and what the control and window
commands leave unchanged (R130, R131, R133, R171 to R177, R230 to R233). -/

namespace Sys2Proof.Machine

/-! ### Words of no command -/

/-- A word of no row is ILLEGAL_CMD, before any other check (R109, R133). -/
theorem performWord_of_reject {w : Word} {r : Reject} (hd : decode w = .error r) (s : State) :
    performWord w s = .next (s.takeFault .illegalCmd w) := by
  rw [performWord, hd]

/-- A word that has the fixed bits of no command's row is ILLEGAL_CMD (R109). -/
theorem performWord_of_no_fit {w : Word} (h : ∀ i : Instr, ¬ i.Fits w) (s : State) :
    performWord w s = .next (s.takeFault .illegalCmd w) := by
  cases hd : decode w with
  | ok i => exact absurd (decode_eq_ok_iff.mp hd).1 (h i)
  | error r => exact performWord_of_reject hd s

/-- Opcode 0 is NOP alone, whose word is 0 (R108, R130). -/
theorem eq_zero_of_fits {i : Instr} {w : Word} (h : i.Fits w) (hop : field w 31 28 = 0) : w = 0 := by
  have hi : i.opcode = 0 := h.field_opcode.symm.trans hop
  cases i with
  | nop => exact (encode_readOperands h).symm
  | _ => cases hi

/-- Opcode 1 is CFG alone, whose bits 27 to 16 are 0 (R108, R131). -/
theorem reserved_eq_zero_of_fits {i : Instr} {w : Word} (h : i.Fits w) (hop : field w 31 28 = 1) :
    field w 27 16 = 0 := by
  have hi : i.opcode = 1 := h.field_opcode.symm.trans hop
  cases i with
  | cfg off len =>
    have htop : field w 31 16 = 1 * 2 ^ (28 - 16) := h
    rw [field_top w (by decide)] at htop
    rw [field_eq, htop]
    exact Nat.mul_mod_left 1 (2 ^ 12)
  | _ => cases hi

/-! ### The control commands -/

/-- Settles O24: NOP's only stage is its completion, and no other word of opcode 0 fits a row. -/
theorem nopCompletes : Obligations.NopCompletes :=
  ⟨fun _ => rfl, decodeEncodeAgree .nop rfl,
    fun _ s hop hw => performWord_of_no_fit (fun _ h => hw (eq_zero_of_fits h hop)) s⟩

/-- Settles O25: a legal pair commits `State.configure`, and a word with a reserved bit set fits no row. -/
theorem cfgStartsSession : Obligations.CfgStartsSession := by
  refine ⟨fun s off len ho ho' hl hl' => ?_, fun s off len h => ?_, fun w s hop hres => ?_⟩
  · exact exec_cfg_legal ((cfgLegal_iff off len).mpr ⟨ho, ho', hl, hl'⟩) s
  · exact exec_cfg_illegal (mt (cfgLegal_iff off len).mp h) s
  · exact performWord_of_no_fit (fun _ h => hres (reserved_eq_zero_of_fits h hop)) s

/-! ### Which fault a command reports -/

/-- A command whose stages fault enters the fault with LCMD recorded (R232). -/
theorem exec_of_fault {i : Instr} {s : State} {c : ErrCode} (h : attempt i s = .fault c) :
    exec i s = .next (s.takeFault c s.lcmd) := by
  rw [exec_eq_finish, h, finish_fault]

theorem refLegal_iff {c : Context} {d l : Nat} :
    refLegal c d l = true ↔ d < c.wsize ∧ c.mins ≤ l ∧ l ≤ c.maxs := by
  simp [refLegal, and_assoc]

theorem patFull_iff {s : State} : patFull s = true ↔ s.pat.length = patCap := decide_eq_true_iff

theorem allZero_eq_false_of_mem {u : Bits} (h : true ∈ u) : allZero u = false := by
  simpa [allZero] using h

/-- A distance of 0, or beyond the window, names no byte (R197). -/
theorem distUsable_eq_false {s : State} {d : Nat} (h : d = 0 ∨ s.win.length < d) :
    distUsable s d = false := by
  rw [State.win, Window.length_bytes] at h
  simp only [distUsable, Bool.and_eq_false_iff, Bool.not_eq_false', decide_eq_true_eq, decide_eq_false_iff_not]
  omega

section Stages
variable {s : State} (hc : s.cfgd = true)
include hc

/-- A closed writer comes before every other check of WLIT, WREF, WCLOSE and CSTEP (R133). -/
theorem attempt_of_wclosed (hw : s.wclosed = true) {i : Instr}
    (hop : i.opcode = 0x2 ∨ i.opcode = 0x3 ∨ i.opcode = 0x4 ∨ i.opcode = 0xB) :
    attempt i s = .fault .writerClosed := by
  cases i with
  | wlit b => simp [attempt, tryWlit, hc, hw]
  | wref d l => simp [attempt, tryWref, hc, hw]
  | wclose => simp [attempt, tryWclose, hc, hw]
  | cstep b next last => simp [attempt, tryCstep, hc, hw]
  | _ => simp [Instr.opcode] at hop

/-- A closed reader comes before every other check of RTOK, RCLOSE and DSTEP (R133). -/
theorem attempt_of_rclosed (hr : s.rclosed = true) {i : Instr}
    (hop : i.opcode = 0x5 ∨ i.opcode = 0x6 ∨ i.opcode = 0xC) : attempt i s = .fault .readerClosed := by
  cases i with
  | rtok => simp [attempt, tryRtok, hc, hr]
  | rclose => simp [attempt, tryRclose, hc, hr]
  | dstep => simp [attempt, tryDstep, hc, hr]
  | _ => simp [Instr.opcode] at hop

theorem attempt_wref_of_illegal (hw : s.wclosed = false) {d l : Nat} (h : ¬ refLegal s.ctx d l = true) :
    attempt (.wref d l) s = .fault .badToken := by
  simp [attempt, tryWref, hc, hw, h]

theorem attempt_ppush_of_full (hp : patFull s = true) (b : Byte) :
    attempt (.ppush b) s = .fault .patternFull := by
  simp [attempt, tryPpush, hc, hp]

theorem attempt_cstep_of_full (hw : s.wclosed = false) (hp : patFull s = true) (b next : Byte) (last : Bool) :
    attempt (.cstep b next last) s = .fault .patternFull := by
  simp [attempt, tryCstep, hc, hw, hp]

/-- A stream that ends inside a token is TRUNCATED for both readers of tokens (R153, R197). -/
theorem attempt_of_trunc (hr : s.rclosed = false) (hp : s.peek = .trunc) :
    attempt .rtok s = .fault .truncated ∧ attempt .dstep s = .fault .truncated := by
  simp [attempt, tryRtok, tryDstep, hc, hr, hp]

theorem attempt_rclose_of_unread (hr : s.rclosed = false) (hu : allZero s.unread = false) :
    attempt .rclose s = .fault .unreadData := by
  simp [attempt, tryRclose, hc, hr, hu]

/-- DSTEP checks the distance before it looks for room in ROUT (R197). -/
theorem attempt_dstep_of_unusable (hr : s.rclosed = false) {d l k : Nat} (hp : s.peek = .token (.ref d l) k)
    (hd : distUsable s d = false) : attempt .dstep s = .fault .badReference := by
  simp [attempt, tryDstep, hc, hr, hp, tokenUsable, hd]

end Stages

/-- Settles O15: each fault is what the stages answer once the earlier ones pass. -/
theorem faultPriority : Obligations.FaultPriority :=
  ⟨fun _ _ s hd => performWord_of_reject hd s,
    fun _ _ hc hw hop => exec_of_fault (attempt_of_wclosed hc hw hop),
    fun _ _ hc hr hop => exec_of_fault (attempt_of_rclosed hc hr hop),
    fun o l s h => exec_cfg_illegal (mt (cfgLegal_iff o l).mp h) s,
    fun _ _ _ hc hw h => exec_of_fault (attempt_wref_of_illegal hc hw (mt refLegal_iff.mp h)),
    fun b _ hc hp => exec_of_fault (attempt_ppush_of_full hc (patFull_iff.mpr hp) b),
    fun b n last _ hc hw hp => exec_of_fault (attempt_cstep_of_full hc hw (patFull_iff.mpr hp) b n last),
    fun _ hc hr hp => (attempt_of_trunc hc hr hp).imp exec_of_fault exec_of_fault,
    fun _ hc hr hu => exec_of_fault (attempt_rclose_of_unread hc hr (allZero_eq_false_of_mem hu)),
    fun _ _ _ _ hc hr hp hd => exec_of_fault (attempt_dstep_of_unusable hc hr hp (distUsable_eq_false hd))⟩

/-! ### What the control and window commands leave unchanged -/

/-- The answer of WFIND is FOUND and RESA alone (R173). -/
theorem State.answerFind_frame (r : Option Word) (s : State) :
    s.answerFind r = { s with found := (s.answerFind r).found, resa := (s.answerFind r).resa } := by
  cases r <;> rfl

/-- A property of the state before that every commit of a command has is a property of each next state but the
fault entry (R133, R232). -/
theorem exec_frame {i : Instr} {s t : State} {P : State → Prop} (he : exec i s = .next t) (hwait : P s)
    (hcommit : ∀ u, attempt i s = .done u → P u.complete) : (∃ c, t = s.takeFault c s.lcmd) ∨ P t := by
  obtain hf | rfl | ⟨u, hd, rfl⟩ := exec_next he
  · exact .inl hf
  · exact .inr hwait
  · exact .inr (hcommit u hd)

/-- Settles O55: the frame of each command from what its stages commit. -/
theorem controlAndWindowCommandsFrame : Obligations.ControlAndWindowCommandsFrame := by
  refine ⟨fun s t he => ?_, fun o l s t he => ?_, fun b s t he => ?_, fun i s t he hi => ?_, fun s t he => ?_⟩
  · cases he
    rfl
  · by_cases h : cfgLegal o l = true
    · rw [exec_cfg_legal h] at he
      cases he
      exact ⟨.inr ⟨rfl, rfl, rfl, rfl, rfl, rfl, rfl, rfl, rfl⟩, fun _ => rfl⟩
    · rw [exec_cfg_illegal h] at he
      cases he
      exact ⟨.inl rfl, fun _ => rfl⟩
  · apply exec_frame he
    case hwait => rfl
    case hcommit =>
      intro u hd
      obtain ⟨-, rfl⟩ := tryWext_done hd
      rfl
  · apply exec_frame he
    case hwait => rfl
    case hcommit =>
      intro u hd
      obtain rfl | ⟨b, rfl⟩ := hi
      · obtain ⟨-, rfl⟩ := tryPclr_done hd
        rfl
      · obtain ⟨-, -, rfl⟩ := tryPpush_done hd
        rfl
  · apply exec_frame he
    case hwait => rfl
    case hcommit =>
      intro u hd
      obtain ⟨-, rfl⟩ := tryWfind_done hd
      exact congrArg State.complete (State.answerFind_frame _ s)

end Sys2Proof.Machine
end

section
/-! SUPPORT. Reading a header record and issuing the CFG of its widths (R131, R212). -/

namespace Sys2Proof.Machine

/-! ### Cutting at a byte -/

theorem cutAt_of_notMem {c : Byte} {bs : List Byte} (h : c ∉ bs) : cutAt c bs = none := by
  induction bs with
  | nil => rfl
  | cons b bs ih =>
    obtain ⟨hb, hbs⟩ := List.ne_and_not_mem_of_not_mem_cons h
    rw [cutAt, if_neg (Ne.symm hb), ih hbs]

/-- The cut is at the first `c`. -/
theorem cutAt_append {c : Byte} {a : List Byte} (h : c ∉ a) (rest : List Byte) :
    cutAt c (a ++ c :: rest) = some (a, rest) := by
  induction a with
  | nil => exact if_pos rfl
  | cons b a ih =>
    obtain ⟨hb, ha⟩ := List.ne_and_not_mem_of_not_mem_cons h
    rw [List.cons_append, cutAt, if_neg (Ne.symm hb), ih ha]

/-- What `cutAt` answers is the list around one `c`. -/
theorem eq_append_of_cutAt {c : Byte} {bs a rest : List Byte} (h : cutAt c bs = some (a, rest)) :
    bs = a ++ c :: rest := by
  induction bs generalizing a with
  | nil => cases h
  | cons b bs ih =>
    rw [cutAt] at h
    split at h
    next hb => cases h; rw [hb, List.nil_append]
    next =>
      split at h
      · cases h
      next hcut => cases h; rw [ih hcut, List.cons_append]

/-! ### Decimal fields -/

theorem digitValue_eq_none_iff {b : Byte} :
    digitValue b = none ↔ b.toNat < 0x30 ∨ 0x39 < b.toNat := by
  rw [digitValue, ite_eq_right_iff]
  simp only [reduceCtorEq, imp_false]
  omega

/-- One byte that is no digit spoils the number, wherever it stands. -/
theorem digitsFrom_eq_none {bs : List Byte} (h : ∃ b ∈ bs, digitValue b = none) (acc : Nat) :
    digitsFrom bs acc = none := by
  induction bs generalizing acc with
  | nil => simp at h
  | cons b bs ih =>
    rw [digitsFrom]
    cases hb : digitValue b with
    | none => rfl
    | some d =>
      obtain ⟨x, hx, hnone⟩ := h
      obtain rfl | hx := List.mem_cons.mp hx
      · rw [hb] at hnone; cases hnone
      · exact ih ⟨x, hx, hnone⟩ _

/-- An empty field, or one with a byte that is no digit, is no number (R212). -/
theorem parseDecimal_eq_none {w : List Byte}
    (h : w = [] ∨ ∃ b ∈ w, b.toNat < 0x30 ∨ 0x39 < b.toNat) : parseDecimal w = none := by
  cases w with
  | nil => rfl
  | cons b rest =>
    obtain h | ⟨x, hx, hbad⟩ := h
    · cases h
    · exact digitsFrom_eq_none ⟨x, hx, digitValue_eq_none_iff.mpr hbad⟩ 0

/-! ### The header line -/

/-- What a line that parses has: three spaces that end its first three fields, a space at its end, and two
widths that are numbers (R212). -/
theorem parseHeaderLine_some {line : List Byte} {h : Header} (hp : parseHeaderLine line = some h) :
    ∃ o l ts rest afterO afterL, cutAt spaceByte line = some (o, afterO) ∧
      cutAt spaceByte afterO = some (l, afterL) ∧ cutAt spaceByte afterL = some (ts, rest) ∧
      line.getLast? = some spaceByte ∧ parseDecimal o = some h.offb ∧ parseDecimal l = some h.lenb := by
  unfold parseHeaderLine at hp
  split at hp; · cases hp
  next o afterO ho =>
  split at hp; · cases hp
  next l afterL hl =>
  split at hp; · cases hp
  next ts rest hts =>
  split at hp
  next hlast =>
    split at hp
    next off len hoff hlen =>
      cases hp
      exact ⟨o, l, ts, rest, afterO, afterL, ho, hl, hts, hlast, hoff, hlen⟩
    · cases hp
  · cases hp

theorem three_le_count_of_parseHeaderLine {line : List Byte} {h : Header}
    (hp : parseHeaderLine line = some h) : 3 ≤ line.count spaceByte := by
  obtain ⟨o, l, ts, rest, afterO, afterL, ho, hl, hts, -, -, -⟩ := parseHeaderLine_some hp
  rw [eq_append_of_cutAt ho, eq_append_of_cutAt hl, eq_append_of_cutAt hts]
  simp only [List.count_append, List.count_cons_self]
  omega

/-- Both fields before the second space of a line that parses are numbers. -/
theorem parseDecimal_of_parseHeaderLine {o l rest : List Byte} {h : Header} (ho : spaceByte ∉ o)
    (hl : spaceByte ∉ l) (hp : parseHeaderLine (o ++ spaceByte :: (l ++ spaceByte :: rest)) = some h) :
    parseDecimal o = some h.offb ∧ parseDecimal l = some h.lenb := by
  obtain ⟨o', l', ts, rest', afterO, afterL, hcutO, hcutL, -, -, hoff, hlen⟩ := parseHeaderLine_some hp
  cases (cutAt_append ho _).symm.trans hcutO
  cases (cutAt_append hl _).symm.trans hcutL
  exact ⟨hoff, hlen⟩

/-- A file whose first line does not parse has no header (R212). -/
theorem parseHeader_eq_none {line : List Byte} (hnl : newlineByte ∉ line) (stream : List Byte)
    (h : ∀ hd, parseHeaderLine line ≠ some hd) : parseHeader (line ++ newlineByte :: stream) = none := by
  rw [parseHeader, cutAt_append hnl]
  simp only [Option.eq_none_iff_forall_ne_some.mpr h]

/-! ### The CFG of a pair of widths -/

/-- The block with a command latched by the host (R48). -/
def State.latch (w : Word) (s : State) : State := { s with lcmd := w, busy := true }

section Issue
variable {s : State} (hb : s.busy = false) (hf : s.fault = false) {off len : Nat}
include hb hf

/-- Widths in range start a session (R131). -/
theorem hostCommand_contextCommand_legal (h : cfgLegal off len = true) :
    hostCommand (contextCommand off len) s =
      some ((s.latch (encode (contextCommand off len))).configure (cfgOperand off) (cfgOperand len)).complete :=
  hostCommand_of_exec hb hf (decodeEncodeAgree _ (contextCommand_wellFormed off len))
    (exec_cfg_legal ((cfgLegal_cfgOperand off len).trans h) _)

/-- Widths out of range, however large, fault with BAD_CONFIG (R131, R212). -/
theorem hostCommand_contextCommand_illegal (h : ¬ cfgLegal off len = true) :
    hostCommand (contextCommand off len) s =
      some ((s.latch (encode (contextCommand off len))).takeFault .badConfig
        (encode (contextCommand off len))) :=
  hostCommand_of_exec hb hf (decodeEncodeAgree _ (contextCommand_wellFormed off len))
    (exec_cfg_illegal (by rwa [cfgLegal_cfgOperand]) _)

/-- Widths out of range decompress nothing: the CFG does not complete (R212). -/
theorem decompressStream_illegal (h : ¬ cfgLegal off len = true) (stream : List Byte) :
    decompressStream off len stream s = none := by
  have hcfg := hostCommand_contextCommand_illegal (s := drainOld s) hb hf h
  rw [decompressStream, hcfg]
  rfl

end Issue

/-- A width in range fits the context's four bits and is issued as it is (R22). -/
theorem toNat_cfgOperand {n : Nat} (h : n ≤ 15) : (BitVec.ofNat 4 (cfgOperand n)).toNat = n := by
  rw [cfgOperand_of_lt (by omega), BitVec.toNat_ofNat, Nat.mod_eq_of_lt (by omega)]

/-- Settles O60: the headers that do not parse by what one that parses has, the CFG by its stages. -/
theorem headerRead : Obligations.HeaderRead := by
  refine ⟨fun file hnl => ?_, fun line stream hnl hline => ?_,
    fun o l rest stream w ho hl hw hnl hbad => ?_, fun off len s hb hf => ?_⟩
  · rw [parseHeader, cutAt_of_notMem hnl]
  · refine parseHeader_eq_none hnl stream fun h hp => ?_
    obtain hcount | hlast := hline
    · exact absurd (three_le_count_of_parseHeaderLine hp) (Nat.not_le.mpr hcount)
    · obtain ⟨_, _, _, _, _, _, -, -, -, hspace, -, -⟩ := parseHeaderLine_some hp
      exact hlast hspace
  · have hline : newlineByte ∉ o ++ spaceByte :: (l ++ spaceByte :: rest) := by
      have hne : newlineByte ≠ spaceByte := by decide
      simpa [hne, and_assoc] using hnl
    have hnone := parseHeader_eq_none hline stream fun h hp => by
      obtain ⟨hoff, hlen⟩ := parseDecimal_of_parseHeaderLine ho hl hp
      have hw' := parseDecimal_eq_none hbad
      obtain rfl | rfl := hw
      · exact absurd (hoff.symm.trans hw') (by simp)
      · exact absurd (hlen.symm.trans hw') (by simp)
    simpa using hnone
  · by_cases h : cfgLegal off len = true
    · obtain ⟨ho, ho', hl, hl'⟩ := (cfgLegal_iff off len).mp h
      exact ⟨_, hostCommand_contextCommand_legal hb hf h,
        fun _ => ⟨hf, rfl, toNat_cfgOperand ho', toNat_cfgOperand (by omega)⟩,
        fun hn => absurd ⟨ho, ho', hl, hl'⟩ hn⟩
    · exact ⟨_, hostCommand_contextCommand_illegal hb hf h, fun hp => absurd ((cfgLegal_iff off len).mpr hp) h,
        fun _ => ⟨rfl, rfl, rfl, rfl, decompressStream_illegal hb hf h⟩⟩

end Sys2Proof.Machine
end

section
/-! SUPPORT. The bit writer (R140 to R143): the bits `put` appends, and what WLIT, WREF and WCLOSE answer. -/

namespace Sys2Proof.Machine

/-! ### Bit order (R9, R74) -/

/-- Bit k of `bits_n(v)` is bit n - 1 - k of v (R9). -/
theorem getElem?_bitsOf {n k : Nat} (h : k < n) (v : Nat) :
    (bitsOf n v)[k]? = some (v.testBit (n - 1 - k)) := by
  induction n generalizing k with
  | zero => omega
  | succ n ih =>
    cases k with
    | zero => simp [bitsOf, Nat.testBit_eq_decide_div_mod_eq]
    | succ k =>
      rw [bitsOf, List.getElem?_cons_succ, ih (by omega)]
      congr 2
      omega

/-- Bit k of a byte is its bit 7 - k (R9, R74). -/
theorem getElem?_byteBits (b : Byte) {k : Nat} (h : k < 8) : (byteBits b)[k]? = some (b.getLsbD (7 - k)) :=
  getElem?_bitsOf h b.toNat

/-- Byte j of a sequence holds the bits from 8j on of its stream (R28, R74). -/
theorem getElem?_streamBits {bs : List Byte} {b : Byte} {j k : Nat} (hj : bs[j]? = some b) (hk : k < 8) :
    (streamBits bs)[8 * j + k]? = some (b.getLsbD (7 - k)) := by
  induction bs generalizing j with
  | nil => cases hj
  | cons c bs ih =>
    rw [streamBits_cons]
    cases j with
    | zero =>
      obtain rfl : c = b := Option.some.inj hj
      rw [Nat.mul_zero, Nat.zero_add, List.getElem?_append_left (by simpa using hk),
        getElem?_byteBits c hk]
    | succ j =>
      rw [List.getElem?_append_right (by simp; omega), length_byteBits,
        show 8 * (j + 1) + k - 8 = 8 * j + k by omega]
      exact ih hj

/-- The n bits of 0 are n zero bits (R9). -/
theorem bitsOf_zero (n : Nat) : bitsOf n 0 = List.replicate n false := by
  induction n with
  | zero => rfl
  | succ n ih => simp [bitsOf, ih, List.replicate_succ]

/-! ### The writer's loop -/

/-- Appending bits changes WACC and COUT only: the bytes pushed and the bits kept are the old WACC followed by
the bits (R140). -/
theorem State.putBits_writes {s : State} (h : s.wacc.length ≤ 7) (bits : Bits) :
    ∃ acc pushed, s.putBits bits = { s with wacc := acc, cout := s.cout ++ pushed } ∧
      streamBits pushed ++ acc = s.wacc ++ bits ∧
      acc.length = (s.wacc.length + bits.length) % 8 ∧
      pushed.length = (s.wacc.length + bits.length) / 8 := by
  obtain ⟨hpushed, hacc⟩ := pushBits_lengths s.wacc bits h
  exact ⟨_, _, rfl, (pushBits_stream s.wacc bits h).1, hacc, hpushed⟩

/-- Settles O27: `put` appends the bits of its value, and the order of bits is that of `bitsOf`. -/
theorem putAppendsBits : Obligations.PutAppendsBits := by
  refine ⟨fun s v n hs hv => ?_, fun n v k => ⟨length_bitsOf n v, fun hk => getElem?_bitsOf hk v⟩,
    fun bs b j k hj hk => getElem?_streamBits hj hk⟩
  obtain ⟨acc, pushed, hput, hstream, hacc, hpushed⟩ := s.putBits_writes hs (bitsOf n v)
  rw [length_bitsOf] at hacc hpushed
  exact ⟨acc, pushed, hput, hstream, val_bitsOf_of_lt hv, hacc, hpushed⟩

/-! ### The stages of the writer's commands -/

/-- Every command but NOP and CFG needs a session, before its other checks (R133, R231). -/
theorem attempt_of_not_cfgd {s : State} (hc : s.cfgd = false) {i : Instr} (hnop : i ≠ .nop)
    (hcfg : ∀ o l, i ≠ .cfg o l) : attempt i s = .fault .notConfigured := by
  cases i with
  | nop => exact absurd rfl hnop
  | cfg o l => exact absurd rfl (hcfg o l)
  | wlit b => simp [attempt, tryWlit, hc]
  | wref d l => simp [attempt, tryWref, hc]
  | wclose => simp [attempt, tryWclose, hc]
  | rtok => simp [attempt, tryRtok, hc]
  | rclose => simp [attempt, tryRclose, hc]
  | wext b => simp [attempt, tryWext, hc]
  | pclr => simp [attempt, tryPclr, hc]
  | ppush b => simp [attempt, tryPpush, hc]
  | wfind => simp [attempt, tryWfind, hc]
  | cstep b next last => simp [attempt, tryCstep, hc]
  | dstep => simp [attempt, tryDstep, hc]

/-- The last stage of WLIT and WREF: append the bits of a token, or wait for COUT to have room (R79). -/
def State.emit (bits : Bits) (s : State) : Attempt :=
  if s.coutFree < s.coutNeed bits.length then .hold .output else .done (s.putBits bits)

theorem State.emit_of_full {s : State} {bits : Bits}
    (h : s.params.coutDepth - s.cout.length < (s.wacc.length + bits.length) / 8) :
    s.emit bits = .hold .output := if_pos h

theorem State.emit_of_room {s : State} {bits : Bits}
    (h : (s.wacc.length + bits.length) / 8 ≤ s.params.coutDepth - s.cout.length) :
    s.emit bits = .done (s.putBits bits) := if_neg (Nat.not_lt.mpr h)

/-- A command that waits changes nothing (R79). -/
theorem exec_of_hold {i : Instr} {s : State} {w : Hold} (h : attempt i s = .hold w) : exec i s = .next s := by
  rw [exec_eq_finish, h, finish_hold]

/-- A command that commits completes (R133). -/
theorem exec_of_done {i : Instr} {s t : State} (h : attempt i s = .done t) : exec i s = .next t.complete := by
  rw [exec_eq_finish, h, finish_done]

/-- A command that comes to emit bits that COUT has room for extends the stream by them (R140). -/
theorem exec_of_emit {i : Instr} {s : State} {bits : Bits} (h : attempt i s = s.emit bits)
    (hs : s.wacc.length ≤ 7)
    (hroom : (s.wacc.length + bits.length) / 8 ≤ s.params.coutDepth - s.cout.length) :
    ∃ acc pushed,
      exec i s = .next { s with wacc := acc, cout := s.cout ++ pushed, busy := false } ∧
      streamBits pushed ++ acc = s.wacc ++ bits ∧ acc.length ≤ 7 ∧
      pushed.length = (s.wacc.length + bits.length) / 8 := by
  obtain ⟨acc, pushed, hput, hstream, hacc, hpushed⟩ := s.putBits_writes hs bits
  have hex := exec_of_done (h.trans (State.emit_of_room hroom))
  rw [hput] at hex
  exact ⟨acc, pushed, hex, hstream, by omega, hpushed⟩

section OpenWriter
variable {s : State} (hc : s.cfgd = true) (hw : s.wclosed = false)
include hc hw

theorem attempt_wlit (b : Byte) : attempt (.wlit b) s = s.emit (tokenBits s.ctx (.lit b)) := by
  simp [attempt, tryWlit, hc, hw, State.put_lit, State.emit]

theorem attempt_wref {d l : Nat} (h : refLegal s.ctx d l = true) :
    attempt (.wref d l) s = s.emit (tokenBits s.ctx (.ref d l)) := by
  simp [attempt, tryWref, hc, hw, h, State.put_ref, State.emit]

/-- With an empty WACC there is no byte to pad (R143). -/
theorem attempt_wclose_of_nil (h : s.wacc = []) : attempt .wclose s = .done { s with wclosed := true } := by
  simp [attempt, tryWclose, hc, hw, h, State.closeNeed, State.padBits, State.put_eq, bitsOf]

theorem attempt_wclose_of_full (h : s.wacc ≠ []) (hfull : s.params.coutDepth ≤ s.cout.length) :
    attempt .wclose s = .hold .output := by
  have hlen := List.length_pos_of_ne_nil h
  simp [attempt, tryWclose, hc, hw, hlen, State.closeNeed, State.coutFree, hfull]

theorem attempt_wclose_of_room (h : s.wacc ≠ []) (hroom : s.cout.length < s.params.coutDepth) :
    attempt .wclose s =
      .done { s.putBits (List.replicate (8 - s.wacc.length) false) with wclosed := true } := by
  have hlen := List.length_pos_of_ne_nil h
  have hfree : ¬ s.params.coutDepth - s.cout.length < 1 := by omega
  simp [attempt, tryWclose, hc, hw, h, hlen, hfree, State.closeNeed, State.coutFree, State.padBits,
    State.put_eq, bitsOf_zero]

end OpenWriter

/-- Padding a partial byte pushes exactly that byte (R143). -/
theorem State.putBits_padding {s : State} (hs : s.wacc.length ≤ 7) (h : s.wacc ≠ []) :
    ∃ b : Byte, s.putBits (List.replicate (8 - s.wacc.length) false) =
        { s with wacc := [], cout := s.cout ++ [b] } ∧
      byteBits b = s.wacc ++ List.replicate (8 - s.wacc.length) false := by
  have hlen := List.length_pos_of_ne_nil h
  obtain ⟨acc, pushed, hput, hstream, hacc, hpushed⟩ :=
    s.putBits_writes hs (List.replicate (8 - s.wacc.length) false)
  rw [List.length_replicate, Nat.add_sub_of_le (by omega)] at hacc hpushed
  obtain rfl := List.length_eq_zero_iff.mp hacc
  obtain ⟨b, rfl⟩ := List.length_eq_one_iff.mp hpushed
  exact ⟨b, hput, by simpa using hstream⟩

/-! ### The writer's commands -/

/-- Settles O28: an open writer comes to emit the literal's bits. -/
theorem wlitWritesLiteral : Obligations.WlitWritesLiteral := by
  intro s b hs
  refine ⟨fun hc hw hroom => ?_, fun hc => ?_, fun hc hw => ?_, fun hc hw hfull => ?_⟩
  · have hex := exec_of_emit (attempt_wlit hc hw b) hs (by rwa [length_tokenBits_lit])
    rwa [length_tokenBits_lit] at hex
  · exact exec_of_fault (attempt_of_not_cfgd hc nofun nofun)
  · exact exec_of_fault (attempt_of_wclosed hc hw (.inl rfl))
  · exact exec_of_hold ((attempt_wlit hc hw b).trans (State.emit_of_full (by rwa [length_tokenBits_lit])))

/-- The length field of a reference holds `length - MINS` (R101, R142). -/
theorem sub_mins_lt {c : Context} {l : Nat} (h : l ≤ c.maxs) : l - c.mins < 2 ^ c.lenb.toNat := by
  have := Nat.two_pow_pos c.lenb.toNat
  rw [Context.maxs] at h
  omega

/-- Settles O29: an open writer comes to emit the bits of a legal reference, and faults on any other. -/
theorem wrefWritesReference : Obligations.WrefWritesReference := by
  intro s d l hs
  refine ⟨fun hc hw hd hmin hmax hroom => ?_, fun hc => ?_, fun hc hw => ?_, fun hc hw h => ?_,
    fun hc hw hd hmin hmax hfull => ?_⟩
  · have hl := attempt_wref hc hw (refLegal_iff.mpr ⟨hd, hmin, hmax⟩)
    rw [Nat.add_assoc] at hroom
    obtain ⟨acc, pushed, hex, hstream, hacc, hpushed⟩ :=
      exec_of_emit hl hs (by rwa [length_tokenBits_ref])
    rw [length_tokenBits_ref, ← Nat.add_assoc] at hpushed
    exact ⟨acc, pushed, hex, hstream, hacc, hpushed, val_bitsOf_of_lt hd, by
      rw [val_bitsOf_of_lt (sub_mins_lt hmax), Nat.sub_add_cancel hmin]⟩
  · exact exec_of_fault (attempt_of_not_cfgd hc nofun nofun)
  · exact exec_of_fault (attempt_of_wclosed hc hw (.inr (.inl rfl)))
  · refine exec_of_fault (attempt_wref_of_illegal hc hw fun hl => ?_)
    have := refLegal_iff.mp hl
    omega
  · rw [Nat.add_assoc] at hfull
    exact exec_of_hold ((attempt_wref hc hw (refLegal_iff.mpr ⟨hd, hmin, hmax⟩)).trans
      (State.emit_of_full (by rwa [length_tokenBits_ref])))

/-- Settles O30: an empty WACC needs no byte, and a partial one is padded to the byte that is pushed. -/
theorem wcloseCloses : Obligations.WcloseCloses := by
  intro s hs
  refine ⟨fun hc hw h => ?_, fun hc hw h hroom => ?_, fun hc => ?_, fun hc hw => ?_, fun hc hw h hfull => ?_⟩
  · exact exec_of_done (attempt_wclose_of_nil hc hw h)
  · obtain ⟨b, hput, hb⟩ := s.putBits_padding hs h
    have hex := exec_of_done (attempt_wclose_of_room hc hw h hroom)
    rw [hput] at hex
    exact ⟨b, hex, hb⟩
  · exact exec_of_fault (attempt_of_not_cfgd hc nofun nofun)
  · exact exec_of_fault (attempt_of_wclosed hc hw (.inr (.inr (.inl rfl))))
  · exact exec_of_hold (attempt_wclose_of_full hc hw h hfull)

/-- What a writer command commits: bits put to the stream and, for WCLOSE alone, WCLOSED (R141 to R143). -/
theorem attempt_writer_done {i : Instr} {s u : State} (hd : attempt i s = .done u)
    (hi : i = .wclose ∨ (∃ b, i = .wlit b) ∨ ∃ d l, i = .wref d l) :
    ∃ bits closed, u = { s.putBits bits with wclosed := closed } ∧ (i ≠ .wclose → closed = s.wclosed) := by
  obtain rfl | ⟨b, rfl⟩ | ⟨d, l, rfl⟩ := hi
  · obtain ⟨-, -, -, rfl⟩ := tryWclose_done hd
    exact ⟨_, true, rfl, fun h => absurd rfl h⟩
  · obtain ⟨-, -, -, rfl⟩ := tryWlit_done hd
    exact ⟨_, s.wclosed, rfl, fun _ => rfl⟩
  · obtain ⟨-, -, -, -, rfl⟩ := tryWref_done hd
    exact ⟨_, s.wclosed, rfl, fun _ => rfl⟩

/-- A command that does not append to the window leaves it, faulting or not, but for CFG (R42). -/
theorem exec_keeps_window {i : Instr} {s t : State} (he : exec i s = .next t) (hcfg : ∀ o l, i ≠ .cfg o l)
    (hwext : ∀ b, i ≠ .wext b) (hcstep : ∀ b n l, i ≠ .cstep b n l) (hdstep : i ≠ .dstep) :
    t.window = s.window :=
  (contextAndWindowWriters.1 i s t he hcfg).2.2 hwext hcstep hdstep

/-- Settles O53, from what a writer command commits; none appends to the window. -/
theorem writerCommandsFrame : Obligations.WriterCommandsFrame := by
  intro i s t he hi
  constructor
  · apply exec_frame he
    case hwait => exact ⟨rfl, fun _ => rfl, List.prefix_rfl⟩
    case hcommit =>
      intro u hd
      obtain ⟨bits, closed, rfl, hclosed⟩ := attempt_writer_done hd hi
      exact ⟨rfl, hclosed, List.prefix_append _ _⟩
  · have hwindow : t.window = s.window := by
      obtain rfl | ⟨b, rfl⟩ | ⟨d, l, rfl⟩ := hi <;> exact exec_keeps_window he nofun nofun nofun nofun
    rw [hwindow]
    exact fun _ => rfl

end Sys2Proof.Machine
end

section
/-! SUPPORT. The bit reader (R150 to R157): what `peek` answers and that its answers last, what RTOK and RCLOSE
answer, and that the reader and the writer leave each other alone. -/

namespace Sys2Proof.Machine

/-! ### The answers of `peek` (R150) -/

/-- The bits the next token takes, by its flag (R102). -/
def Context.tokenLength (c : Context) (flag : Option Bool) : Nat := if flag = some true then 1 + c.ess else 9

section Peek
variable {c : Context} {u : Bits}

theorem peek_eof_of_allZero (hlen : u.length < 8) (hz : allZero u = true) : peek c u true = .eos := by
  rw [peek.eq_def, if_pos (by simp [hlen, hz])]

/-- With fewer bits than its token needs `peek` answers no token (R150). -/
theorem peek_cases_of_short {eof : Bool} (h : u.length < c.tokenLength u.head?) :
    (eof = true ∧ u.length < 8 ∧ allZero u = true) ∨ (eof = false ∧ peek c u eof = .needMore) ∨
      (eof = true ∧ peek c u eof = .trunc) := by
  obtain ⟨-, hz⟩ | ⟨hp, heof, -⟩ | ⟨hp, heof, -⟩ | ⟨b, rest, rfl, hr, -⟩ | ⟨rest, rfl, hr, -⟩ :=
    peek_cases c u eof
  · exact .inl hz
  · exact .inr (.inl ⟨heof, hp⟩)
  · exact .inr (.inr ⟨heof, hp⟩)
  · exact absurd h (by simp [Context.tokenLength]; omega)
  · exact absurd h (by simp [Context.tokenLength]; omega)

/-- Before EOF a token cut short needs more bits (R150). -/
theorem peek_open_of_short (h : u.length < c.tokenLength u.head?) : peek c u false = .needMore := by
  obtain ⟨⟨⟩, -⟩ | ⟨-, hp⟩ | ⟨⟨⟩, -⟩ := peek_cases_of_short (eof := false) h
  exact hp

/-- At EOF a token cut short is truncated, unless the bits are padding (R150). -/
theorem peek_eof_of_short (h : u.length < c.tokenLength u.head?)
    (hpad : ¬ (u.length < 8 ∧ allZero u = true)) : peek c u true = .trunc := by
  obtain ⟨-, hz⟩ | ⟨⟨⟩, -⟩ | ⟨-, hp⟩ := peek_cases_of_short (eof := true) h
  · exact absurd hz hpad
  · exact hp

theorem eof_of_peek_eos {eof : Bool} (h : peek c u eof = .eos) : eof = true := by
  obtain ⟨-, heof, -⟩ | ⟨hp, -⟩ | ⟨hp, -⟩ | ⟨b, rest, -, -, -, hp⟩ | ⟨rest, -, -, hp⟩ := peek_cases c u eof
  · exact heof
  all_goals
    rw [hp] at h
    cases h

/-- A token stays the answer when bits arrive after it or EOF is set (R150). -/
theorem peek_token_append {eof : Bool} {t : Token} {k : Nat} (h : peek c u eof = .token t k) (more : Bits)
    (eof' : Bool) : peek c (u ++ more) eof' = .token t k := by
  obtain ⟨hp, -⟩ | ⟨hp, -⟩ | ⟨hp, -⟩ | ⟨b, rest, rfl, hr, rfl, hp⟩ | ⟨rest, rfl, hr, hp⟩ := peek_cases c u eof
    <;> rw [hp] at h <;> cases h
  · rw [List.cons_append, peek_false c _ _ (by simp; omega), List.take_append_of_le_length hr]
  · rw [Context.ess] at hr
    rw [List.cons_append, peek_true c _ _ (by simp [Context.ess]; omega),
      List.take_append_of_le_length (by omega), List.drop_append_of_le_length (by omega),
      List.take_append_of_le_length (by simp; omega)]

end Peek

/-! ### The host's accesses after EOF (R57) -/

theorem readOffset_input (addr off : Nat) (s : State) :
    (readOffset addr off s).unread = s.unread ∧ (readOffset addr off s).eof = s.eof := by
  rw [readOffset]
  split
  · rename_i r _
    cases r <;> exact ⟨rfl, rfl⟩
  · exact ⟨rfl, rfl⟩

/-- After EOF no write but of CTRL changes the unread bits or EOF: a byte written to CIN faults (R57). -/
theorem writeReg_input_of_eof {s : State} (h : s.eof = true) {r : Reg} (hr : r ≠ .ctrl) (v : Word) :
    (writeReg r v s).unread = s.unread ∧ (writeReg r v s).eof = true := by
  cases r with
  | ctrl => exact absurd rfl hr
  | cmd =>
    rw [writeReg, writeCmd]
    repeat' split
    all_goals exact ⟨rfl, h⟩
  | cinData =>
    rw [writeReg, writeCinData, h, Bool.not_true, Bool.and_false, if_neg Bool.false_ne_true]
    split
    · exact ⟨rfl, h⟩
    · exact ⟨rfl, h⟩
  | cinEof =>
    rw [writeReg, writeCinEof]
    split
    · exact ⟨rfl, h⟩
    · split
      · exact ⟨rfl, rfl⟩
      · exact ⟨rfl, h⟩
  | _ => exact ⟨rfl, h⟩

/-- After EOF no access but a reset changes the unread bits, EOF or the context (R57). -/
theorem hostAccess_input_of_eof {s t : State} {a : HostAccess} (h : s.eof = true)
    (ht : hostAccess a s = .next t) (hr : (Turn.access a).resets s.params = false) :
    t.unread = s.unread ∧ t.eof = true ∧ t.ctx = s.ctx := by
  have hctx : t.ctx = s.ctx := by
    obtain ⟨hreset, -⟩ | ⟨-, hframe⟩ := hostAccess_frame ht
    · rw [hr] at hreset
      cases hreset
    · rw [hframe]
  suffices hin : t.unread = s.unread ∧ t.eof = true from ⟨hin.1, hin.2, hctx⟩
  obtain ⟨addr, w, rfl, rfl, -⟩ | ⟨addr, w, v, rfl, rfl, hbase, -⟩ := hostAccess_cases ht
  · exact (readOffset_input addr _ s).imp_right (·.trans h)
  · rw [writeOffset]
    split
    · rename_i r hoff
      by_cases hctrl : r = .ctrl
      · have haddr : addr = s.params.blockBase + Reg.ctrl.offset := by
          rw [← hctrl, ← Reg.eq_offset_of_ofOffset hoff, Nat.add_sub_of_le hbase]
        have hv : ¬ v.toNat % 2 = 1 := by simpa [Turn.resets, haddr] using hr
        rw [hctrl, writeReg, writeCtrl, if_neg hv]
        exact ⟨rfl, h⟩
      · exact writeReg_input_of_eof h hctrl v
    · exact ⟨rfl, h⟩

/-- An end of stream stays the answer whatever the host accesses, but for a reset (R150). -/
theorem peek_eos_of_hostAccess {s t : State} {a : HostAccess} (h : s.peek = .eos)
    (ht : hostAccess a s = .next t) (hr : (Turn.access a).resets s.params = false) : t.peek = .eos := by
  have heof := eof_of_peek_eos h
  obtain ⟨hu, he, hc⟩ := hostAccess_input_of_eof heof ht hr
  rw [State.peek, hu, he, hc, ← heof]
  exact h

/-- Settles O31: the answers by the flag and the length of the unread bits; an end of stream lasts as no byte
enters CIN after EOF. -/
theorem peekClassifies : Obligations.PeekClassifies := by
  refine ⟨fun c u => ⟨peek_eof_of_allZero, ?_, fun hf hlen => ?_, fun hf hlen => ?_, fun eof hf hlen => ?_,
    fun eof hf hlen => ?_, fun more eof t k h => peek_token_append h more eof⟩,
    fun c u eof h => eof_of_peek_eos h, fun s t a h ht hr => peek_eos_of_hostAccess h ht hr⟩
  · rintro rfl
    rfl
  · have hshort : u.length < c.tokenLength u.head? := by simpa [Context.tokenLength, hf] using hlen
    exact ⟨peek_open_of_short hshort, peek_eof_of_short hshort⟩
  · have hshort : u.length < c.tokenLength u.head? := by simpa [Context.tokenLength, hf] using hlen
    refine ⟨peek_open_of_short hshort, peek_eof_of_short hshort fun hpad => ?_⟩
    obtain ⟨rest, rfl⟩ := List.head?_eq_some_iff.mp hf
    cases hpad.2
  · obtain ⟨rest, rfl⟩ := List.head?_eq_some_iff.mp hf
    exact peek_false c rest eof (Nat.le_of_succ_le_succ hlen)
  · obtain ⟨rest, rfl⟩ := List.head?_eq_some_iff.mp hf
    rw [peek_true c rest eof (by simp at hlen; omega), Nat.add_comm 1 c.offb.toNat]
    rfl

/-! ### The reader's commands -/

section OpenReader
variable {s : State} (hc : s.cfgd = true) (hr : s.rclosed = false)
include hc hr

theorem attempt_rtok_of_token {tok : Token} {k : Nat} (h : s.peek = .token tok k) :
    attempt .rtok s = .done ((s.consume k).answerToken tok) := by
  simp [attempt, tryRtok, hc, hr, h]

theorem attempt_rtok_of_eos (h : s.peek = .eos) : attempt .rtok s = .done s.answerEos := by
  simp [attempt, tryRtok, hc, hr, h]

theorem attempt_rclose_of_allZero (h : allZero s.unread = true) :
    attempt .rclose s = .done { s with rbuf := [], cin := [], rclosed := true } := by
  simp [attempt, tryRclose, hc, hr, h]

end OpenReader

/-- Consuming a token leaves the unread bits after it, less than a byte of them in RBUF (R29, R153). -/
theorem State.consume_of_token {s : State} (hs : s.rbuf.length ≤ 7) {tok : Token} {k : Nat}
    (h : s.peek = .token tok k) :
    ∃ r c, s.consume k = { s with rbuf := r, cin := c } ∧
      r ++ streamBits c = s.unread.drop k ∧ r.length ≤ 7 := by
  have hk : k ≤ s.unread.length := (peek_token_le h).2
  exact ⟨_, _, rfl, s.unread_consume k hk, (s.length_rbuf_consume k hs hk).2⟩

/-- Settles O33: each answer of `peek` is a stage of RTOK, and a token's length is that of its kind. -/
theorem rtokReadsToken : Obligations.RtokReadsToken := by
  refine ⟨fun s hc => exec_of_fault (attempt_of_not_cfgd hc nofun nofun),
    fun s hc hr => exec_of_fault (attempt_of_rclosed hc hr (.inl rfl)), fun s hc hr hs =>
    ⟨fun b k h => ?_, fun d l k h => ?_, fun h => exec_of_done (attempt_rtok_of_eos hc hr h),
      fun h => exec_of_fault (attempt_of_trunc hc hr h).1,
      fun h => exec_of_hold (attempt_of_needMore hc hr h).1⟩⟩
  · have hex := exec_of_done (attempt_rtok_of_token hc hr h)
    obtain ⟨r, c, hcons, hrest⟩ := s.consume_of_token hs h
    obtain rfl : k = 9 := peek_token_length h
    rw [hcons] at hex
    exact ⟨r, c, hex, hrest⟩
  · have hex := exec_of_done (attempt_rtok_of_token hc hr h)
    obtain ⟨r, c, hcons, hrest⟩ := s.consume_of_token hs h
    obtain rfl : k = 1 + s.ctx.ess := peek_token_length h
    rw [hcons] at hex
    exact ⟨r, c, hex, hrest⟩

theorem allZero_iff {u : Bits} : allZero u = true ↔ ∀ b ∈ u, b = false := by
  simp [allZero]

/-- Settles O34: RCLOSE's data check is that no unread bit is 1. -/
theorem rcloseCloses : Obligations.RcloseCloses := by
  intro s
  refine ⟨fun hc hr h => ?_, fun hc => ?_, fun hc hr => ?_, fun hc hr ⟨b, hmem, hb⟩ => ?_⟩
  · exact exec_of_done (attempt_rclose_of_allZero hc hr (allZero_iff.mpr h))
  · exact exec_of_fault (attempt_of_not_cfgd hc nofun nofun)
  · exact exec_of_fault (attempt_of_rclosed hc hr (.inr (.inl rfl)))
  · exact exec_of_fault (attempt_rclose_of_unread hc hr (allZero_eq_false_of_mem (hb ▸ hmem)))

/-- The answer for a token is EOS, TOKKIND, RESA and RESB alone (R45, R153). -/
theorem State.answerToken_frame (tok : Token) (s : State) :
    s.answerToken tok =
      { s with eos := (s.answerToken tok).eos, tokkind := (s.answerToken tok).tokkind
               resa := (s.answerToken tok).resa, resb := (s.answerToken tok).resb } := by
  cases tok <;> rfl

/-- Settles O54, from what RTOK and RCLOSE commit; neither appends to the window. -/
theorem readerCommandsFrame : Obligations.ReaderCommandsFrame := by
  refine ⟨fun s t he => ⟨?_, ?_⟩, fun s t he => ⟨?_, ?_⟩⟩
  · apply exec_frame he
    case hwait => exact ⟨rfl, List.suffix_rfl⟩
    case hcommit =>
      intro u hd
      obtain ⟨-, -, ⟨-, rfl⟩ | ⟨tok, k, -, rfl⟩⟩ := tryRtok_done hd
      · exact ⟨rfl, List.suffix_rfl⟩
      · rw [State.answerToken_frame]
        exact ⟨rfl, List.drop_suffix _ _⟩
  · rw [exec_keeps_window he nofun nofun nofun nofun]
    exact fun _ => rfl
  · apply exec_frame he
    case hwait => rfl
    case hcommit =>
      intro u hd
      obtain ⟨-, -, -, rfl⟩ := tryRclose_done hd
      rfl
  · rw [exec_keeps_window he nofun nofun nofun nofun]
    exact fun _ => rfl

/-- Settles O35: neither side's elements are among those the other side's frame lets change. -/
theorem writerAndReaderIndependent : Obligations.WriterAndReaderIndependent := by
  intro i s t he
  refine ⟨fun hi => ?_, ?_⟩
  · obtain ⟨⟨c, rfl⟩ | ⟨ht, -⟩, -⟩ := writerCommandsFrame i s t he hi
    · exact ⟨rfl, rfl, rfl, rfl, rfl⟩
    · rw [ht]
      exact ⟨rfl, rfl, rfl, rfl, rfl⟩
  · rintro (rfl | rfl)
    · obtain ⟨⟨c, rfl⟩ | ⟨ht, -⟩, -⟩ := readerCommandsFrame.1 s t he
      · exact ⟨rfl, rfl, rfl⟩
      · rw [ht]
        exact ⟨rfl, rfl, rfl⟩
    · obtain ⟨⟨c, rfl⟩ | ht, -⟩ := readerCommandsFrame.2 s t he
      · exact ⟨rfl, rfl, rfl⟩
      · rw [ht]
        exact ⟨rfl, rfl, rfl⟩

end Sys2Proof.Machine
end

section
/-! SUPPORT. The window commands WEXT, PCLR, PPUSH and WFIND, what `find` answers, and where the byte a reference
stands for lies (R170 to R177, R191, R200). -/

namespace Sys2Proof.Machine

/-! ### What `find` answers (R172) -/

/-- An empty pattern is not found (R173). -/
@[simp] theorem Window.find_nil (n : Nat) (w : Window) : w.find n [] = none := rfl

/-- `find` of a pattern of at least one byte is the scan from the oldest byte on, its index turned into the
absolute position of the first byte matched (R172). -/
theorem Window.find_eq_map_scan (n : Nat) {p : List Byte} (hp : p ≠ []) (w : Window) :
    w.find n p = (scan p (w.bytes n) 0 0).map
      fun k => w.base + BitVec.ofNat 32 k + 1 - BitVec.ofNat 32 p.length := by
  rw [Window.find, if_neg (mt List.length_eq_zero_iff.mp hp)]
  cases scan p (w.bytes n) 0 0 with
  | none => rfl
  | some k => simp [BitVec.ofNat_add, BitVec.add_assoc]

/-- `find` depends on the window's bytes and on WBASE only (R174). -/
theorem Window.find_congr {n m : Nat} {v w : Window} (hbytes : v.bytes n = w.bytes m) (hbase : v.base = w.base)
    (p : List Byte) : v.find n p = w.find m p := by
  rw [Window.find, Window.find, hbytes, hbase]

/-- A pattern longer than the window is not found (R173). -/
theorem Window.find_of_longer {n : Nat} {p : List Byte} {w : Window} (h : (w.bytes n).length < p.length) :
    w.find n p = none := by
  rw [Window.length_bytes] at h
  refine Option.eq_none_iff_forall_ne_some.mpr fun f hf => ?_
  obtain ⟨k, hk, -, hle, -⟩ := Window.find_some hf
  omega

/-! ### The scan (R172) -/

section ScanStep
variable {p rest : List Byte} {b : Byte} {cur k : Nat}

/-- Equality at the pattern's last byte completes the match. -/
theorem scan_cons_completes (hb : p[cur]? = some b) (hfull : cur + 1 = p.length) :
    scan p (b :: rest) cur k = some k := by
  rw [scan, if_pos hb, if_pos hfull]

/-- Equality before the pattern's last byte advances the cursor. -/
theorem scan_cons_advances (hb : p[cur]? = some b) (hfull : cur + 1 ≠ p.length) :
    scan p (b :: rest) cur k = scan p rest (cur + 1) (k + 1) := by
  rw [scan, if_pos hb, if_neg hfull]

/-- A mismatch zeroes the cursor, and the byte is not compared again. -/
theorem scan_cons_mismatch (hb : p[cur]? ≠ some b) :
    scan p (b :: rest) cur k = scan p rest 0 (k + 1) := by
  rw [scan, if_neg hb]

end ScanStep

/-- Settles O39: the three moves of the scan, and `find` as the scan's index turned into a position. -/
theorem findScansOnce : Obligations.FindScansOnce := by
  refine ⟨Window.find_nil, fun p rest b cur k _ => ⟨rfl, scan_cons_completes, scan_cons_advances,
    scan_cons_mismatch⟩, fun n p w k hp hk => ?_, fun n p w hp hk => ?_⟩
  · rw [Window.find_eq_map_scan n hp, hk, Option.map_some]
  · rw [Window.find_eq_map_scan n hp, hk, Option.map_none]

/-! ### A hit is an occurrence (R174, R191, R200) -/

/-- A hit names the position of an occurrence: the pattern is the bytes of the window from there on (R174). -/
theorem Window.find_sound {n : Nat} {p : List Byte} {w : Window} {f : Word} (h : w.find n p = some f) :
    ∃ j, f = w.base + BitVec.ofNat 32 j ∧ j + p.length ≤ (w.bytes n).length ∧
      ((w.bytes n).drop j).take p.length = p := by
  obtain ⟨k, hk, -, hle, hf, hocc⟩ := Window.find_some h
  refine ⟨k + 1 - p.length, ?_, by rw [Window.length_bytes]; omega, hocc⟩
  have hsplit : BitVec.ofNat 32 (k + 1) = BitVec.ofNat 32 (k + 1 - p.length) + BitVec.ofNat 32 p.length := by
    rw [← BitVec.ofNat_add, Nat.sub_add_cancel hle]
  rw [hf, hsplit, ← BitVec.add_assoc, BitVec.add_sub_cancel]

/-- Settles O40: soundness at the position named, the misses of R174 run by the scan, and the two things `find`
reads. -/
theorem findIsSoundNotComplete : Obligations.FindIsSoundNotComplete := by
  refine ⟨fun n p w f h => Window.find_sound h, fun n w hw => ?_, fun n w hw hbase => ?_, fun n w hw => ?_,
    fun n m p v w hbytes hbase => Window.find_congr hbytes hbase p⟩
  · have hscan : scan [0x61#8, 0x62#8] [0x61#8, 0x61#8, 0x62#8] 0 0 = none := by decide
    rw [Window.find_eq_map_scan n (by decide), hw, hscan, Option.map_none]
  · have hscan : scan [0x61#8, 0x62#8] [0x61#8, 0x61#8, 0x62#8, 0x61#8, 0x62#8] 0 0 = some 4 := by decide
    rw [Window.find_eq_map_scan n (by decide), hw, hscan, hbase]
    decide
  · have hscan : scan [0x61#8, 0x61#8, 0x62#8] [0x61#8, 0x61#8, 0x61#8, 0x62#8] 0 0 = none := by decide
    rw [Window.find_eq_map_scan n (by decide), hw, hscan, Option.map_none]

/-- Settles O45: by R191 the distance reaches back from the end of the window to the last byte of the match, so
byte j of the pattern is byte j of the occurrence. -/
theorem cstepReferenceReplacesPending : Obligations.CstepReferenceReplacesPending := by
  intro s p f d _ hfind _ hd j hj
  obtain ⟨k, hk, -, hle, hf, hocc⟩ := Window.find_some hfind
  have hdist : d = s.window.fill.toNat - k := hd.trans (cstepDistance_eq hk hf)
  have hindex : s.win.length + 1 - p.length + j - d = k + 1 - p.length + j := by
    rw [State.win, Window.length_bytes]
    omega
  calc p[j]? = ((s.win.drop (k + 1 - p.length)).take p.length)[j]? := by rw [State.win, hocc]
    _ = s.win[k + 1 - p.length + j]? := by rw [List.getElem?_take_of_lt hj, List.getElem?_drop]
    _ = s.win[s.win.length + 1 - p.length + j - d]? := by rw [hindex]

/-! ### The window commands in a configured state -/

section Configured
variable {s : State} (hc : s.cfgd = true)
include hc

theorem attempt_wext (b : Byte) : attempt (.wext b) s = .done (s.append b) := by
  simp [attempt, tryWext, hc]

theorem attempt_pclr : attempt .pclr s = .done { s with pat := [] } := by
  simp [attempt, tryPclr, hc]

theorem attempt_ppush_of_room (hp : ¬ patFull s = true) (b : Byte) :
    attempt (.ppush b) s = .done { s with pat := s.pat ++ [b] } := by
  simp [attempt, tryPpush, hc, hp]

theorem attempt_wfind : attempt .wfind s = .done (s.answerFind (s.find s.pat)) := by
  simp [attempt, tryWfind, hc]

end Configured

/-- Settles O37: the two commands commit PAT alone, and PPUSH faults when PAT is full. -/
theorem patternBufferCommands : Obligations.PatternBufferCommands := by
  refine ⟨fun s b hc => ⟨?_, ?_⟩, fun s b hc => ⟨?_, fun hp => ?_, fun hp => ?_⟩⟩
  · exact exec_of_fault (attempt_of_not_cfgd hc nofun nofun)
  · exact exec_of_fault (attempt_of_not_cfgd hc nofun nofun)
  · exact exec_of_done (attempt_pclr hc)
  · exact exec_of_done (attempt_ppush_of_room hc (mt patFull_iff.mp hp) b)
  · exact exec_of_fault (attempt_ppush_of_full hc (patFull_iff.mpr hp) b)

/-- Settles O38: WFIND commits the answer of `find`, and `find` misses an empty or too long pattern. -/
theorem wfindAnswers : Obligations.WfindAnswers := by
  refine ⟨fun s hc => exec_of_fault (attempt_of_not_cfgd hc nofun nofun),
    fun s hc => ⟨fun hf => ?_, fun p hf => ?_, fun hp => ?_, fun hlen => Window.find_of_longer hlen⟩⟩
  · rw [exec_of_done (attempt_wfind hc), hf]
    rfl
  · rw [exec_of_done (attempt_wfind hc), hf]
    rfl
  · rw [hp]
    exact Window.find_nil _ _

/-! ### The append of WEXT (R170, R171) -/

/-- Until the window is full WBASE is 0 (R170). -/
theorem State.Inv.base_eq_zero {s : State} (h : s.Inv) (hr : s.window.fill.toNat < s.ctx.wsize) :
    s.window.base = 0 := by
  rw [Window.base, ← (h.young hr).2, BitVec.ofNat_toNat, BitVec.setWidth_eq]
  exact BitVec.sub_self _

/-- WHEAD moves only when the oldest byte is evicted (R170). -/
theorem Window.head_append {n : Nat} {w : Window} (h : w.Ok n) (b : Byte) :
    (w.append n b).head.toNat = if w.fill.toNat < n then w.head.toNat else (w.head.toNat + 1) % n := by
  split
  · rw [Window.append_of_room ‹_›]
  · exact Window.head_append_full h ‹_› b

/-- Settles O36: the window of the next state is the append's, whose laws give each clause. -/
theorem wextAppends : Obligations.WextAppends := by
  refine ⟨fun s b hc => exec_of_fault (attempt_of_not_cfgd hc nofun nofun), fun s b hs hc => ?_⟩
  have hok := hs.windowOk
  rw [State.win, Window.length_bytes]
  refine ⟨s.window.append s.ctx.wsize b, exec_of_done (attempt_wext hc b), Window.fill_append hok b,
    Window.head_append hok b, ?_, Window.append_count _ b _, ?_, fun a => ?_⟩
  · rw [Window.bytes_append hok, List.drop_one]
  · rw [Window.base_append hok]
    split
    · exact hs.base_eq_zero ‹_›
    · rfl
  · rw [Window.append_ram, Memory.read_write (Memory.wf_rising hok.ram)]
    rfl

end Sys2Proof.Machine
end

section
/-! SUPPORT. CSTEP (R190 to R194): what its stages come to, what each answer commits, and the bounds of the
reference it emits. -/

namespace Sys2Proof.Machine

/-! ### The stages of CSTEP -/

/-- The last stage of CSTEP: append the bits of its tokens, leave `p` pending and append b to the window, or wait
for COUT to have room (R79, R190). -/
def State.emitStep (p : List Byte) (bits : Bits) (b : Byte) (s : State) : Attempt :=
  if s.coutFree < s.coutNeed bits.length then .hold .output else .done (s.commitStep p bits b)

theorem State.emitStep_of_full {s : State} {p : List Byte} {bits : Bits} {b : Byte}
    (h : s.params.coutDepth - s.cout.length < (s.wacc.length + bits.length) / 8) :
    s.emitStep p bits b = .hold .output := if_pos h

theorem State.emitStep_of_room {s : State} {p : List Byte} {bits : Bits} {b : Byte}
    (h : (s.wacc.length + bits.length) / 8 ≤ s.params.coutDepth - s.cout.length) :
    s.emitStep p bits b = .done (s.commitStep p bits b) := if_neg (Nat.not_lt.mpr h)

section OpenCstep
variable {s : State} (hc : s.cfgd = true) (hw : s.wclosed = false) (hp : s.pat.length ≠ patCap)
  {b next : Byte} {last : Bool}
include hc hw hp

theorem attempt_cstep_of_carries (h : cstepCarries (s.pat ++ [b]) next last s = true) :
    attempt (.cstep b next last) s = s.emitStep (s.pat ++ [b]) [] b := by
  simp [attempt, tryCstep, hc, hw, hp, patFull, h, State.emitStep]

theorem attempt_cstep_of_final (h : cstepCarries (s.pat ++ [b]) next last s = false) {ts : List Token}
    (hts : cstepFinal (s.pat ++ [b]) s = some ts) :
    attempt (.cstep b next last) s = s.emitStep [] (tokensBits s.ctx ts) b := by
  simp [attempt, tryCstep, hc, hw, hp, patFull, h, hts, State.emitStep]

theorem attempt_cstep_of_none (h : cstepCarries (s.pat ++ [b]) next last s = false)
    (hts : cstepFinal (s.pat ++ [b]) s = none) : attempt (.cstep b next last) s = .fault .badToken := by
  simp [attempt, tryCstep, hc, hw, hp, patFull, h, hts]

end OpenCstep

/-- The window after an append: the byte joins it, and the oldest byte leaves a full one (R170). -/
theorem State.Inv.bytes_append {s : State} (h : s.Inv) (b : Byte) :
    (s.window.append s.ctx.wsize b).bytes s.ctx.wsize =
      if s.win.length < s.ctx.wsize then s.win ++ [b] else (s.win ++ [b]).drop 1 := by
  rw [Window.bytes_append h.windowOk, State.win, Window.length_bytes, List.drop_one]

/-- A CSTEP that comes to emit bits that COUT has room for extends the stream by them and appends its byte to the
window (R190). -/
theorem exec_of_emitStep {i : Instr} {s : State} (hs : s.Inv) {p : List Byte} {bits : Bits} {b : Byte}
    (h : attempt i s = s.emitStep p bits b)
    (hroom : (s.wacc.length + bits.length) / 8 ≤ s.params.coutDepth - s.cout.length) :
    ∃ acc pushed w,
      exec i s = .next { s with wacc := acc, cout := s.cout ++ pushed, pat := p, window := w, busy := false } ∧
      streamBits pushed ++ acc = s.wacc ++ bits ∧ acc.length ≤ 7 ∧
      w.bytes s.ctx.wsize = (if s.win.length < s.ctx.wsize then s.win ++ [b] else (s.win ++ [b]).drop 1) ∧
      w.count = s.window.count + 1 := by
  obtain ⟨hstream, hacc⟩ := pushBits_stream s.wacc bits hs.waccShort
  exact ⟨_, _, _, exec_of_done (h.trans (State.emitStep_of_room hroom)), hstream, hacc, hs.bytes_append b,
    Window.append_count _ _ _⟩

/-! ### When pending is carried on (R190 step 2a) -/

theorem cstepCarries_iff {p : List Byte} {next : Byte} {last : Bool} {s : State} :
    cstepCarries p next last s = true ↔
      s.find p ≠ none ∧ last = false ∧ p.length < s.ctx.maxs ∧ s.find (p ++ [next]) ≠ none := by
  simp [cstepCarries, Option.isSome_iff_ne_none, and_assoc]

theorem cstepCarries_eq_false {p : List Byte} {next : Byte} {last : Bool} {s : State}
    (h : last = true ∨ s.find p = none ∨ s.ctx.maxs ≤ p.length ∨ s.find (p ++ [next]) = none) :
    cstepCarries p next last s = false := by
  rw [Bool.eq_false_iff, Ne, cstepCarries_iff]
  rintro ⟨hfind, hlast, hlen, hnext⟩
  obtain h | h | h | h := h
  · rw [hlast] at h; cases h
  · exact hfind h
  · exact Nat.not_le.mpr hlen h
  · exact hnext h

/-- Settles O41: the four conditions of the carry, which emits no bits and so never waits. -/
theorem cstepCarriesOn : Obligations.CstepCarries := by
  intro s b n last hs hc hw hp hlast hlen hfind hnext
  have hcarry : cstepCarries (s.pat ++ [b]) n last s = true :=
    cstepCarries_iff.mpr ⟨hfind, hlast, by simpa using hlen, hnext⟩
  have hroom : s.coutNeed 0 ≤ s.coutFree := by rw [hs.coutNeed_zero]; exact Nat.zero_le _
  have hex := exec_of_done ((attempt_cstep_of_carries hc hw hp hcarry).trans (State.emitStep_of_room hroom))
  refine ⟨s.window.append s.ctx.wsize b, ?_, hs.bytes_append b, Window.append_count _ _ _⟩
  rw [hex, State.commitStep, State.putBits_nil]
  rfl

/-! ### The reference of case A (R191, R194) -/

/-- The distance reaches back from the end of the window to the last byte of a hit, which the hit's first byte lies
`L - 1` before (R191, R194). -/
theorem cstepDistance_bounds {p : List Byte} {s : State} {f : Word} (h : s.find p = some f) :
    1 ≤ cstepDistance p f s ∧ cstepDistance p f s + p.length ≤ s.window.fill.toNat + 1 := by
  obtain ⟨k, hk, -, hle, hf, -⟩ := Window.find_some h
  rw [cstepDistance_eq hk hf]
  omega

/-- A hit of at least 2 bytes gives a distance that the token's field holds (R194). -/
theorem State.Inv.cstepDistance_lt {s : State} (hs : s.Inv) {p : List Byte} {f : Word} (h : s.find p = some f)
    (hp : 2 ≤ p.length) : cstepDistance p f s < s.ctx.wsize := by
  have := cstepDistance_bounds h
  have := hs.fillFits
  omega

theorem Context.mins_le_maxs (c : Context) : c.mins ≤ c.maxs := Nat.le_add_left _ _

theorem Context.maxs_pos (c : Context) : 0 < c.maxs := Nat.lt_of_lt_of_le (Nat.succ_pos _) c.mins_le_maxs

/-- Pending that is found, and long enough, is one reference (R192 case A). -/
theorem State.Inv.cstepFinal_of_found {s : State} (hs : s.Inv) {p : List Byte} {f : Word} (h : s.find p = some f)
    (hp : 2 ≤ p.length) (hmins : s.ctx.mins ≤ p.length) (hmaxs : p.length ≤ s.ctx.maxs) :
    cstepFinal p s = some [.ref (cstepDistance p f s) p.length] := by
  simp [cstepFinal, h, hp, hmins, hmaxs, hs.cstepDistance_lt h hp]

/-- Pending that is not found, or is too short, is literals (R192 cases A', B and C). -/
theorem cstepFinal_of_short {p : List Byte} {s : State}
    (h : s.find p = none ∨ p.length < 2 ∨ p.length < s.ctx.mins) : cstepFinal p s = some (p.map .lit) := by
  cases hf : s.find p with
  | none => simp [cstepFinal, hf]
  | some f =>
    have hshort : ¬ (2 ≤ p.length ∧ s.ctx.mins ≤ p.length) := by
      rw [hf] at h
      rintro ⟨h2, hmins⟩
      obtain h | h | h := h
      · cases h
      · omega
      · omega
    simp only [cstepFinal, hf, if_neg hshort]

/-- Pending of at most MAXS bytes always has tokens (R194). -/
theorem State.Inv.cstepFinal_of_le_maxs {s : State} (hs : s.Inv) {p : List Byte} (h : p.length ≤ s.ctx.maxs) :
    ∃ ts, cstepFinal p s = some ts := by
  by_cases hshort : s.find p = none ∨ p.length < 2 ∨ p.length < s.ctx.mins
  · exact ⟨_, cstepFinal_of_short hshort⟩
  · obtain ⟨hfind, h2, hmins⟩ := by simpa only [not_or, Nat.not_lt] using hshort
    obtain ⟨f, hf⟩ := Option.ne_none_iff_exists'.mp hfind
    exact ⟨_, hs.cstepFinal_of_found hf h2 hmins h⟩

/-- Settles O42: case A has one reference, whose bits the step comes to emit. -/
theorem cstepEmitsReference : Obligations.CstepEmitsReference := by
  rintro s b n last f L d hs hc hw rfl hmaxs hfind hstop h2 hmins hp rfl
  have hlen : (s.pat ++ [b]).length = s.pat.length + 1 := List.length_append
  rw [← hlen] at hmaxs hstop h2 hmins ⊢
  have hcarry : cstepCarries (s.pat ++ [b]) n last s = false :=
    cstepCarries_eq_false (hstop.imp_right fun h => .inr (h.imp_left fun h => h.ge))
  have hstep := attempt_cstep_of_final hc hw hp hcarry (hs.cstepFinal_of_found hfind h2 hmins hmaxs)
  rw [tokensBits_cons, tokensBits_nil, List.append_nil] at hstep
  rw [Nat.add_assoc, ← length_tokenBits_ref s.ctx (cstepDistance (s.pat ++ [b]) f s) (s.pat ++ [b]).length]
  exact ⟨fun hroom => exec_of_emitStep hs hstep hroom,
    fun hfull => exec_of_hold (hstep.trans (State.emitStep_of_full hfull))⟩

/-- Settles O43: the other cases have a literal a byte, whose bits the step comes to emit. -/
theorem cstepEmitsLiterals : Obligations.CstepEmitsLiterals := by
  intro s b n last hs hc hw hp hshort hstop
  have hlen : (s.pat ++ [b]).length = s.pat.length + 1 := List.length_append
  rw [← hlen] at hshort hstop ⊢
  have hstep := attempt_cstep_of_final hc hw hp (cstepCarries_eq_false hstop) (cstepFinal_of_short hshort)
  have hbits : tokensBits s.ctx ((s.pat ++ [b]).map .lit) =
      (s.pat ++ [b]).flatMap fun c => false :: bitsOf 8 c.toNat := by
    rw [tokensBits, List.flatMap_map]
    rfl
  rw [← length_tokensBits_lits s.ctx (s.pat ++ [b]), ← hbits]
  exact ⟨fun hroom => exec_of_emitStep hs hstep hroom,
    fun hfull => exec_of_hold (hstep.trans (State.emitStep_of_full hfull))⟩

/-- Pending longer than MAXS that is found has no token: its reference's length does not fit (R192, R194). -/
theorem cstepFinal_of_longer {p : List Byte} {s : State} (h : s.find p ≠ none) (hlen : s.ctx.maxs < p.length) :
    cstepFinal p s = none := by
  obtain ⟨f, hf⟩ := Option.ne_none_iff_exists'.mp h
  have hpos := s.ctx.maxs_pos
  have hmins := s.ctx.mins_le_maxs
  have hlong : 2 ≤ p.length ∧ s.ctx.mins ≤ p.length := by omega
  have hfits : ¬ (cstepDistance p f s < s.ctx.wsize ∧ p.length ≤ s.ctx.maxs) := by omega
  simp only [cstepFinal, hf, if_pos hlong, if_neg hfits]

/-- BAD_TOKEN says that pending has no token (R190). -/
theorem cstepFinal_of_badToken {b next : Byte} {last : Bool} {s : State}
    (h : tryCstep b next last s = .fault .badToken) : cstepFinal (s.pat ++ [b]) s = none := by
  unfold tryCstep at h
  split at h; · cases h
  split at h; · cases h
  split at h; · cases h
  split at h
  · split at h <;> cases h
  · split at h
    · assumption
    · split at h <;> cases h

/-- Settles O44: the bounds of a hit, and that MAXS is the one bound pending can break. -/
theorem cstepReferenceBounds : Obligations.CstepReferenceBounds := by
  refine ⟨fun s p f d hs hfind h2 hd => ?_, fun s b n last hs hlen hfault => ?_,
    fun s b n last hs hc hw hp hmaxs hfind => ?_⟩
  · obtain ⟨hpos, hreach⟩ := cstepDistance_bounds hfind
    rw [cstepDistance, ← hd] at hpos hreach
    have := hs.fillFits
    omega
  · obtain ⟨ts, hts⟩ := hs.cstepFinal_of_le_maxs (p := s.pat ++ [b]) (by simpa using hlen)
    rw [cstepFinal_of_badToken hfault] at hts
    cases hts
  · have hlen : s.ctx.maxs < (s.pat ++ [b]).length := by simpa [Nat.lt_succ_iff] using hmaxs
    exact exec_of_fault (attempt_cstep_of_none hc hw hp
      (cstepCarries_eq_false (.inr (.inr (.inl hlen.le)))) (cstepFinal_of_longer hfind hlen))

/-- Settles O46: a carry is of pending shorter than MAXS and not the last, and every other commit empties PAT. -/
theorem pendingStaysBelowMaxs : Obligations.PendingStaysBelowMaxs := by
  intro s t b n last he
  obtain ⟨c, -, hx⟩ | ⟨w, ha, hx⟩ | ⟨u, ha, hx⟩ := exec_cases (.cstep b n last) s <;> rw [hx] at he <;> cases he
  · exact ⟨id, nofun⟩
  · obtain rfl : w = .output := (tryCstep_hold ha).1
    exact ⟨id, fun h => absurd ha h⟩
  · obtain ⟨-, -, -, ⟨hcarry, rfl⟩ | ⟨ts, -, -, -, rfl⟩⟩ := tryCstep_done ha
    · obtain ⟨-, hlast, hlen, -⟩ := cstepCarries_iff.mp hcarry
      exact ⟨fun _ => hlen, fun _ _ h => absurd (hlast.symm.trans h) nofun⟩
    · exact ⟨fun _ => s.ctx.maxs_pos, fun _ _ _ => rfl⟩

end Sys2Proof.Machine
end

section
/-! SUPPORT. DSTEP (R197, R198, R201): the stage each answer of `peek` comes to, the bytes a copy produces, and
what the engine commands leave unchanged. -/

namespace Sys2Proof.Machine

/-! ### The stages of DSTEP -/

/-- A token is usable unless it is a reference whose distance names no byte of the window (R197). -/
theorem tokenUsable_iff {s : State} {tok : Token} :
    tokenUsable s tok = true ↔ ∀ d l, tok = .ref d l → 1 ≤ d ∧ d ≤ s.win.length := by
  rw [State.win, Window.length_bytes]
  cases tok with
  | lit b => simp [tokenUsable]
  | ref d l => simp [tokenUsable, distUsable, Nat.one_le_iff_ne_zero]

section OpenDstep
variable {s : State} (hc : s.cfgd = true) (hr : s.rclosed = false)
include hc hr

theorem attempt_dstep_of_eos (h : s.peek = .eos) : attempt .dstep s = .done s.answerEos := by
  simp [attempt, tryDstep, hc, hr, h]

variable {tok : Token} {k : Nat} (h : s.peek = .token tok k) (hu : tokenUsable s tok = true)
include h hu

theorem attempt_dstep_of_token (hy : tokenYield tok ≤ s.routFree) :
    attempt .dstep s = .done (((s.consume k).replay tok).answerToken tok) := by
  simp [attempt, tryDstep, hc, hr, h, hu, Nat.not_lt.mpr hy]

theorem attempt_dstep_of_full (hy : s.routFree < tokenYield tok) : attempt .dstep s = .hold .output := by
  simp [attempt, tryDstep, hc, hr, h, hu, hy]

end OpenDstep

/-- Settles O47: each answer of `peek` is a stage of DSTEP; the window and the bytes produced are those of the
append and of the copy. -/
theorem dstepReplaysToken : Obligations.DstepReplaysToken := by
  refine ⟨fun s hc => exec_of_fault (attempt_of_not_cfgd hc nofun nofun),
    fun s hc hr => exec_of_fault (attempt_of_rclosed hc hr (.inr (.inr rfl))), fun s hs hc hr =>
    ⟨fun b k h hroom => ?_, fun d l k h hd hdw hroom => ?_,
      fun h => exec_of_done (attempt_dstep_of_eos hc hr h),
      fun h => exec_of_hold (attempt_of_needMore hc hr h).2,
      fun h => exec_of_fault (attempt_of_trunc hc hr h).2,
      fun d l k h hd => exec_of_fault (attempt_dstep_of_unusable hc hr h (distUsable_eq_false hd)),
      fun tok k h hu hfull => exec_of_hold (attempt_dstep_of_full hc hr h (tokenUsable_iff.mpr hu) hfull)⟩⟩
  · have hex := exec_of_done (attempt_dstep_of_token hc hr h rfl (Nat.sub_pos_of_lt hroom))
    obtain ⟨r, c, hcons, hrest, -⟩ := s.consume_of_token hs.rbufShort h
    obtain rfl : k = 9 := peek_token_length h
    rw [hcons] at hex
    refine ⟨r, c, _, hex, hrest, ?_, Window.append_count _ _ _⟩
    rw [State.win, Window.length_bytes]
    exact Window.bytes_append_drop hs.windowOk b
  · have hu : tokenUsable s (.ref d l) = true := tokenUsable_iff.mpr fun _ _ ht => by cases ht; exact ⟨hd, hdw⟩
    have hex := exec_of_done (attempt_dstep_of_token hc hr h hu hroom)
    obtain ⟨r, c, hcons, hrest, -⟩ := s.consume_of_token hs.rbufShort h
    obtain rfl : k = 1 + s.ctx.ess := peek_token_length h
    rw [hcons] at hex
    rw [State.win, Window.length_bytes] at hdw ⊢
    exact ⟨r, c, _, _, hex, hrest, Window.length_copy _ _ _ _,
      fun j hj => Window.getElem?_copy hs.windowOk d l j hd hdw hj,
      Window.bytes_copy hs.windowOk d l, Window.count_copy _ _ _ _⟩

/-! ### The bytes of a copy (R201) -/

/-- A copy repeats the last `d` bytes of the window: its first `d` bytes are those, and each later byte is the one
`d` before it in the copy (R201). -/
theorem Window.getElem?_copy_mod {n : Nat} {w : Window} (h : w.Ok n) {d l : Nat} (hd : 1 ≤ d)
    (hdf : d ≤ w.fill.toNat) {j : Nat} (hj : j < l) :
    (w.copy n d l).2[j]? = (w.bytes n)[w.fill.toNat - d + j % d]? := by
  induction j using Nat.strong_induction_on with
  | _ j ih =>
    rw [Window.getElem?_copy h d l j hd hdf hj]
    by_cases hjd : j < d
    · rw [Nat.mod_eq_of_lt hjd, List.getElem?_append_left (by rw [Window.length_bytes]; omega)]
      congr 1
      omega
    · rw [List.getElem?_append_right (by rw [Window.length_bytes]; omega), Window.length_bytes,
        show w.fill.toNat + j - d - w.fill.toNat = j - d by omega, ih (j - d) (by omega) (by omega),
        Nat.mod_eq_sub_mod (Nat.not_lt.mp hjd)]

/-- Settles O48, from the law of the copy. -/
theorem overlappingCopyRepeats : Obligations.OverlappingCopyRepeats := by
  intro s d l j hs hd hdw hj
  rw [State.win, Window.length_bytes] at hdw ⊢
  exact Window.getElem?_copy_mod hs.windowOk hd hdw hj

/-! ### What the engine commands leave unchanged -/

/-- Replaying a token extends ROUT and moves the window, and changes nothing else (R197). -/
theorem State.replay_frame (tok : Token) (s : State) :
    s.replay tok = { s with rout := (s.replay tok).rout, window := (s.replay tok).window } ∧
      s.rout <+: (s.replay tok).rout := by
  cases tok <;> exact ⟨rfl, List.prefix_append _ _⟩

/-- Settles O56, from what CSTEP and DSTEP commit. -/
theorem engineCommandsFrame : Obligations.EngineCommandsFrame := by
  refine ⟨fun b n l s t he => ?_, fun s t he => ?_⟩
  · apply exec_frame he
    case hwait => exact ⟨rfl, List.prefix_rfl⟩
    case hcommit =>
      intro u hd
      obtain ⟨-, -, -, ⟨-, rfl⟩ | ⟨ts, -, -, -, rfl⟩⟩ := tryCstep_done hd
      · exact ⟨rfl, List.prefix_append _ _⟩
      · exact ⟨rfl, List.prefix_append _ _⟩
  · apply exec_frame he
    case hwait => exact ⟨rfl, List.prefix_rfl, List.suffix_rfl⟩
    case hcommit =>
      intro u hd
      obtain ⟨-, -, ⟨-, rfl⟩ | ⟨tok, k, -, -, -, rfl⟩⟩ := tryDstep_done hd
      · exact ⟨rfl, List.prefix_rfl, List.suffix_rfl⟩
      · obtain ⟨hreplay, hrout⟩ := (s.consume k).replay_frame tok
        rw [State.answerToken_frame, hreplay]
        exact ⟨rfl, hrout, List.drop_suffix _ _⟩

end Sys2Proof.Machine
end

section
/-! SUPPORT. What a token stream stands for (R197, R200): the bytes each token produces after a history of which
the window holds the last WSIZE bytes, and that the tokens CSTEP finalizes pending into stand for pending. -/

namespace Sys2Proof.Machine

/-! ### The last bytes of a history -/

/-- What a window of n bytes holds of the bytes appended to it: the last n (R40). -/
def recent (n : Nat) (y : List Byte) : List Byte := y.drop (y.length - n)

@[simp] theorem recent_nil (n : Nat) : recent n [] = [] := List.drop_nil

@[simp] theorem length_recent (n : Nat) (y : List Byte) : (recent n y).length = min n y.length := by
  rw [recent, List.length_drop]
  omega

/-- Bytes that left the window before an append are not seen after it. -/
theorem recent_append (n : Nat) (y a : List Byte) : recent n (recent n y ++ a) = recent n (y ++ a) := by
  have hdrop : recent n y ++ a = (y ++ a).drop (y.length - n) :=
    (List.drop_append_of_le_length (Nat.sub_le _ _)).symm
  rw [recent, List.length_append, length_recent, hdrop, List.drop_drop, recent, List.length_append]
  congr 1
  omega

/-- A byte `d` back from one after the window is the byte `d` back in the whole history, if the window reaches that
far. -/
theorem getElem?_recent_append {n d : Nat} {y : List Byte} (hd : d ≤ (recent n y).length) (a : List Byte)
    (j : Nat) : (recent n y ++ a)[(recent n y).length + j - d]? = (y ++ a)[y.length + j - d]? := by
  have hdrop : recent n y ++ a = (y ++ a).drop (y.length - n) :=
    (List.drop_append_of_le_length (Nat.sub_le _ _)).symm
  rw [length_recent] at hd ⊢
  rw [hdrop, List.getElem?_drop]
  congr 1
  omega

/-- An append leaves the window with the last bytes of the history and the byte (R170). -/
theorem Window.Ok.bytes_append_recent {n : Nat} {w : Window} (h : w.Ok n) (b : Byte) :
    (w.append n b).bytes n = recent n (w.bytes n ++ [b]) := by
  rw [Window.bytes_append_drop h, recent, List.length_append, Window.length_bytes, List.length_singleton]

/-! ### The bytes tokens stand for -/

/-- A token stands for `out` after a window: a literal for its byte, a usable reference for bytes that are each
the one `d` back, its own included (R197). -/
def Token.produces (win out : List Byte) : Token → Prop
  | .lit b => out = [b]
  | .ref d l => 1 ≤ d ∧ d ≤ win.length ∧ out.length = l ∧
      ∀ j, j < l → out[j]? = (win ++ out)[win.length + j - d]?

/-- A reference stands for one sequence of bytes only: each is given by the bytes before it. -/
theorem eq_of_produces_ref {win out out' : List Byte} {d l : Nat} (h : (Token.ref d l).produces win out)
    (h' : (Token.ref d l).produces win out') : out = out' := by
  obtain ⟨hd, hdw, hlen, hback⟩ := h
  obtain ⟨-, -, hlen', hback'⟩ := h'
  have hbyte : ∀ j, j < l → out[j]? = out'[j]? := by
    intro j
    induction j using Nat.strong_induction_on with
    | _ j ih =>
      intro hj
      rw [hback j hj, hback' j hj, List.getElem?_append, List.getElem?_append]
      split
      · rfl
      · exact ih _ (by omega) (by omega)
  apply List.ext_getElem?
  intro j
  by_cases hj : j < l
  · exact hbyte j hj
  · rw [List.getElem?_eq_none (by omega), List.getElem?_eq_none (by omega)]

/-- Tokens that the writer of a context admits stand, after a history, for these bytes: each is replayed after the
history and the bytes before it. -/
inductive Expands (c : Context) : List Byte → List Token → List Byte → Prop
  | nil (y : List Byte) : Expands c y [] []
  | cons {y : List Byte} {t : Token} {a : List Byte} {ts : List Token} {b : List Byte} (ht : t.admissible c)
      (hp : t.produces (recent c.wsize y) a) (h : Expands c (y ++ a) ts b) : Expands c y (t :: ts) (a ++ b)

theorem Expands.append {c : Context} {y a b : List Byte} {ts us : List Token} (h : Expands c y ts a)
    (h' : Expands c (y ++ a) us b) : Expands c y (ts ++ us) (a ++ b) := by
  induction h with
  | nil y => simpa using h'
  | cons ht hp h ih =>
    rw [List.append_assoc]
    exact .cons ht hp (ih (by rwa [List.append_assoc]))

theorem Expands.literals (c : Context) (y p : List Byte) : Expands c y (p.map .lit) p := by
  induction p generalizing y with
  | nil => exact .nil y
  | cons b p ih => exact .cons (a := [b]) trivial rfl (ih (y ++ [b]))

/-- One token alone. -/
theorem Expands.singleton {c : Context} {y a : List Byte} {t : Token} (ht : t.admissible c)
    (hp : t.produces (recent c.wsize y) a) : Expands c y [t] a := by
  simpa using Expands.cons ht hp (.nil _)

/-! ### The tokens of CSTEP -/

/-- The reference CSTEP emits stands for pending, although the window it is replayed after lacks the bytes of
pending that CSTEP's own window holds (R191, R200). -/
theorem State.Inv.produces_reference {s : State} (hs : s.Inv) {y q : List Byte} {b : Byte} {f : Word}
    (hwin : s.win = recent s.ctx.wsize (y ++ q)) (hfind : s.find (q ++ [b]) = some f)
    (h2 : 2 ≤ (q ++ [b]).length) :
    (Token.ref (cstepDistance (q ++ [b]) f s) (q ++ [b]).length).produces (recent s.ctx.wsize y) (q ++ [b]) := by
  obtain ⟨hpos, hreach⟩ := cstepDistance_bounds hfind
  have hback := cstepReferenceReplacesPending s _ f (cstepDistance (q ++ [b]) f s) hs hfind h2 rfl
  have hlen : s.win.length = min s.ctx.wsize (y.length + q.length) := by
    rw [hwin, length_recent, List.length_append]
  rw [← Window.length_bytes s.ctx.wsize s.window, ← State.win] at hreach
  generalize cstepDistance (q ++ [b]) f s = d at *
  have hp : (q ++ [b]).length = q.length + 1 := List.length_append
  have hd : d ≤ (recent s.ctx.wsize y).length := by rw [length_recent]; omega
  refine ⟨hpos, hd, rfl, fun j hj => ?_⟩
  calc (q ++ [b])[j]? = s.win[s.win.length + 1 - (q ++ [b]).length + j - d]? := hback j hj
    _ = (y ++ q)[y.length + j - d]? := by
      rw [hlen, hwin, recent, List.getElem?_drop, List.length_append]
      congr 1
      omega
    _ = (y ++ (q ++ [b]))[y.length + j - d]? := by
      rw [← List.append_assoc, List.getElem?_append_left (l₁ := y ++ q) (by rw [List.length_append]; omega)]
    _ = _ := (getElem?_recent_append hd _ j).symm

/-- The tokens CSTEP finalizes pending into stand for pending (R192, R200). -/
theorem State.Inv.expands_cstepFinal {s : State} (hs : s.Inv) {y q : List Byte} {b : Byte} {ts : List Token}
    (hwin : s.win = recent s.ctx.wsize (y ++ q)) (h : cstepFinal (q ++ [b]) s = some ts) :
    Expands s.ctx y ts (q ++ [b]) := by
  obtain rfl | ⟨f, hfind, h2, hmins, hdist, hmaxs, rfl⟩ := cstepFinal_some h
  · exact .literals _ _ _
  · exact .singleton ⟨hdist, hmins, hmaxs⟩ (hs.produces_reference hwin hfind h2)

end Sys2Proof.Machine
end

section
/-! SUPPORT. The compression loop (R196): the stream the host pops is the tokens that stand for the input, padded
with zero bits. -/

namespace Sys2Proof.Machine

/-! ### Commands of the host's loops -/

theorem State.completed_iff {s : State} : s.completed = true ↔ s.busy = false ∧ s.fault = false := by
  simp [State.completed]

/-- A well-formed command issued to an idle, fault-free block is its meaning on the block that latched it. -/
theorem hostCommand_of_exec_latch {i : Instr} {s t : State} (hb : s.busy = false) (hf : s.fault = false)
    (hi : i.wellFormed = true) (he : exec i (s.latch (encode i)) = .next t) : hostCommand i s = some t :=
  hostCommand_of_exec hb hf (decodeEncodeAgree i hi) he

/-- Popping every byte of COUT keeps the invariant (R30). -/
theorem State.Inv.clearCout {s : State} (h : s.Inv) : ({ s with cout := [] } : State).Inv :=
  { h with
    preSession := fun hc =>
      have ⟨hw, hb, hp, _, hr, hf⟩ := h.preSession hc
      ⟨hw, hb, hp, rfl, hr, hf⟩
    coutFits := Nat.zero_le _ }

/-! ### The session both loops start -/

/-- The context of a session with these widths (R22, R131). -/
def sessionContext (off len : Nat) : Context :=
  { offb := BitVec.ofNat 4 (cfgOperand off), lenb := BitVec.ofNat 4 (cfgOperand len) }

/-- The state in which a loop's CFG leaves the drained block (R131, R274). -/
def State.startSession (off len : Nat) (s : State) : State :=
  (((drainOld s).latch (encode (contextCommand off len))).configure (cfgOperand off) (cfgOperand len)).complete

section Start
variable {s : State} (hs : s.Inv) (hb : s.busy = false) (hf : s.fault = false) {off len : Nat}
  (h : cfgLegal off len = true)
include hf h

include hb in
theorem hostCommand_startSession :
    hostCommand (contextCommand off len) (drainOld s) = some (s.startSession off len) ∧
      (s.startSession off len).completed = true :=
  ⟨hostCommand_contextCommand_legal (s := drainOld s) hb hf h, State.completed_iff.mpr ⟨rfl, hf⟩⟩

include hs in
theorem State.Inv.startSession : (s.startSession off len).Inv :=
  (((drainOld_inv hs).latch hf _).configure _ _ ((cfgLegal_cfgOperand off len).trans h)).complete

end Start

/-! ### The state between the commands of the compression loop -/

/-- The loop is about to issue a command: an open writer in context `c`, COUT drained, `y` the bytes the tokens so
far stand for, and the pending bytes after them in the window (R190, R193). -/
structure State.Compressing (c : Context) (y : List Byte) (s : State) : Prop where
  inv : s.Inv
  idle : s.busy = false
  noFault : s.fault = false
  configured : s.cfgd = true
  context : s.ctx = c
  writerOpen : s.wclosed = false
  drained : s.cout = []
  patShort : s.pat.length < c.maxs
  window : s.win = recent c.wsize (y ++ s.pat)

theorem State.Inv.compressing_startSession {s : State} (hs : s.Inv) (hf : s.fault = false) {off len : Nat}
    (h : cfgLegal off len = true) : (s.startSession off len).Compressing (sessionContext off len) [] where
  inv := hs.startSession hf h
  idle := rfl
  noFault := hf
  configured := rfl
  context := rfl
  writerOpen := rfl
  drained := rfl
  patShort := Context.maxs_pos _
  window := (recent_nil _).symm

/-- With COUT drained and PAT shorter than MAXS a CSTEP commits: it carries pending on, with no tokens, or leaves
none pending, with tokens that stand for it (R190, R193, R200). -/
theorem State.Inv.cstep_commits {s : State} (hs : s.Inv) (hc : s.cfgd = true) (hw : s.wclosed = false)
    (hcout : s.cout = []) (hpat : s.pat.length < s.ctx.maxs) {y : List Byte}
    (hwin : s.win = recent s.ctx.wsize (y ++ s.pat)) (b next : Byte) (last : Bool) :
    ∃ p ts a, Machine.exec (.cstep b next last) s = .next (s.commitStep p (tokensBits s.ctx ts) b).complete ∧
      Expands s.ctx y ts a ∧ s.pat ++ [b] = a ++ p ∧ p.length < s.ctx.maxs ∧ (last = true → p = []) := by
  have hfull : s.pat.length ≠ patCap := (hpat.trans_le (hs.maxs_le hc)).ne
  cases hcarry : cstepCarries (s.pat ++ [b]) next last s with
  | true =>
    obtain ⟨-, hlast, hlen, -⟩ := cstepCarries_iff.mp hcarry
    have hroom := hs.coutNeed_le_coutFree hcout (Nat.zero_le _)
    exact ⟨_, [], [], exec_of_done ((attempt_cstep_of_carries hc hw hfull hcarry).trans
      (State.emitStep_of_room hroom)), .nil y, rfl, hlen, fun h => absurd (hlast.symm.trans h) nofun⟩
  | false =>
    obtain ⟨ts, hts⟩ := hs.cstepFinal_of_le_maxs (p := s.pat ++ [b]) (by simpa using hpat)
    have hroom := hs.coutNeed_le_coutFree hcout (hs.length_cstepFinal_le hc hfull hts)
    exact ⟨[], ts, _, exec_of_done ((attempt_cstep_of_final hc hw hfull hcarry hts).trans
      (State.emitStep_of_room hroom)), hs.expands_cstepFinal hwin hts, (List.append_nil _).symm,
      s.ctx.maxs_pos, fun _ => rfl⟩

section Compressing
variable {c : Context} {y : List Byte} {s : State} (h : s.Compressing c y)
include h

/-- The loop's CSTEP: the tokens emitted stand for what pending and the new byte lose, and their bits are those the
stream gains (R190, R200). -/
theorem State.Compressing.cstep (b next : Byte) (last : Bool) :
    ∃ t ts a, hostCommand (.cstep b next last) s = some t ∧ t.completed = true ∧
      ({ t with cout := [] } : State).Compressing c (y ++ a) ∧ Expands c y ts a ∧
      s.pat ++ [b] = a ++ t.pat ∧ streamBits t.cout ++ t.wacc = s.wacc ++ tokensBits c ts ∧
      (last = true → t.pat = []) := by
  obtain rfl := h.context
  have hinv : (s.latch (encode (.cstep b next last))).Inv := h.inv.latch h.noFault _
  obtain ⟨p, ts, a, hex, hexp, hsplit, hshort, hlast⟩ :=
    hinv.cstep_commits h.configured h.writerOpen h.drained h.patShort h.window b next last
  have hstream := (pushBits_stream s.wacc (tokensBits s.ctx ts) h.inv.waccShort).1
  have hwin : (s.window.append s.ctx.wsize b).bytes s.ctx.wsize = recent s.ctx.wsize (y ++ a ++ p) := by
    rw [h.inv.windowOk.bytes_append_recent, ← State.win, h.window, recent_append, List.append_assoc,
      List.append_assoc]
    exact congrArg (fun q => recent s.ctx.wsize (y ++ q)) hsplit
  refine ⟨_, ts, a, hostCommand_of_exec_latch h.idle h.noFault rfl hex,
    State.completed_iff.mpr ⟨rfl, h.noFault⟩, ⟨(hinv.exec hex).clearCout, rfl, h.noFault, h.configured, rfl,
      h.writerOpen, rfl, hshort, hwin⟩, hexp, hsplit, ?_, hlast⟩
  show streamBits (s.cout ++ _) ++ _ = _
  rw [h.drained]
  exact hstream

/-- The loop's WCLOSE: what is left in WACC is padded to a byte (R143). -/
theorem State.Compressing.wclose :
    ∃ t m, hostCommand .wclose s = some t ∧ t.completed = true ∧ t.Inv ∧ m < 8 ∧
      streamBits t.cout = s.wacc ++ List.replicate m false := by
  have hinv : (s.latch (encode .wclose)).Inv := h.inv.latch h.noFault _
  obtain ⟨hnil, hpad, -⟩ := wcloseCloses (s.latch (encode .wclose)) h.inv.waccShort
  by_cases hw : s.wacc = []
  · have hex := hnil h.configured h.writerOpen hw
    refine ⟨_, 0, hostCommand_of_exec_latch h.idle h.noFault rfl hex, State.completed_iff.mpr ⟨rfl, h.noFault⟩,
      hinv.exec hex, by decide, ?_⟩
    show streamBits s.cout = _
    rw [h.drained, hw]
    rfl
  · have hroom : s.cout.length < s.params.coutDepth := by
      obtain ⟨hdepth, -⟩ := h.inv.params
      rw [h.drained, List.length_nil]
      omega
    obtain ⟨b, hex, hb⟩ := hpad h.configured h.writerOpen hw hroom
    refine ⟨_, 8 - s.wacc.length, hostCommand_of_exec_latch h.idle h.noFault rfl hex,
      State.completed_iff.mpr ⟨rfl, h.noFault⟩, hinv.exec hex, ?_, ?_⟩
    · have := List.length_pos_of_ne_nil hw
      omega
    · show streamBits (s.cout ++ [b]) = _
      rw [h.drained]
      exact (List.append_nil _).trans hb

end Compressing

/-! ### The loop -/

/-- One command of the loop, then the others (R196). -/
theorem runDraining_cons {i : Instr} {is : List Instr} {s t u : State} {out : List Byte}
    (h : hostCommand i s = some t) (ht : t.completed = true)
    (hrest : runDraining is { t with cout := [] } = some (out, u)) :
    runDraining (i :: is) s = some (t.cout ++ out, u) := by
  simp [runDraining, h, ht, hrest]

/-- Each byte of the input has its CSTEP, the last byte the one with LAST (R113). -/
theorem compressCommands_cons (b : Byte) (rest : List Byte) :
    ∃ next, compressCommands (b :: rest) = .cstep b next rest.isEmpty :: compressCommands rest := by
  cases rest with
  | nil => exact ⟨0, rfl⟩
  | cons n rest => exact ⟨n, rfl⟩

/-- From between two commands on, the loop's stream is WACC, tokens that stand for pending and the rest of the input,
and a padding of zero bits (R196, R200). -/
theorem State.Compressing.runDraining {c : Context} {y input : List Byte} {s : State} (h : s.Compressing c y)
    (hlast : input = [] → s.pat = []) :
    ∃ out u ts m, Machine.runDraining (compressCommands input ++ [.wclose]) s = some (out, u) ∧
      u.Inv ∧ u.completed = true ∧ Expands c y ts (s.pat ++ input) ∧ m < 8 ∧
      streamBits out = s.wacc ++ tokensBits c ts ++ List.replicate m false := by
  induction input generalizing s y with
  | nil =>
    obtain ⟨t, m, hcmd, hdone, hinv, hm, hbits⟩ := h.wclose
    rw [hlast rfl]
    exact ⟨_, _, [], m, runDraining_cons hcmd hdone rfl, hinv.clearCout, hdone, .nil y, hm, by simpa using hbits⟩
  | cons b rest ih =>
    obtain ⟨next, hcommands⟩ := compressCommands_cons b rest
    obtain ⟨t, ts, a, hcmd, hdone, hnext, hexp, hsplit, hbits, hempty⟩ := h.cstep b next rest.isEmpty
    obtain ⟨out, u, us, m, hrun, hinv, hdone', hexp', hm, hbits'⟩ := ih hnext fun hr => hempty (by rw [hr]; rfl)
    rw [hcommands]
    refine ⟨_, u, ts ++ us, m, runDraining_cons hcmd hdone hrun, hinv, hdone', ?_, hm, ?_⟩
    · rw [← List.singleton_append, ← List.append_assoc, hsplit, List.append_assoc]
      exact hexp.append hexp'
    · rw [streamBits_append, hbits', tokensBits_append, ← List.append_assoc, ← List.append_assoc, hbits]
      simp only [List.append_assoc]

/-- Compressing gives tokens that stand for the input, padded with zero bits (R196, R200). -/
theorem compressStream_expands {s : State} (hs : s.Inv) (hb : s.busy = false) (hf : s.fault = false)
    {off len : Nat} (h : cfgLegal off len = true) (input : List Byte) :
    ∃ stream u ts m, compressStream off len input s = some (stream, u) ∧ u.Inv ∧ u.completed = true ∧
      Expands (sessionContext off len) [] ts input ∧ m < 8 ∧
      streamBits stream = tokensBits (sessionContext off len) ts ++ List.replicate m false := by
  obtain ⟨hcmd, hdone⟩ := hostCommand_startSession hb hf h
  obtain ⟨out, u, ts, m, hrun, hinv, hdone', hexp, hm, hbits⟩ :=
    (hs.compressing_startSession hf h).runDraining (input := input) fun _ => rfl
  exact ⟨_, u, ts, m, runDraining_cons hcmd hdone hrun, hinv, hdone', hexp, hm, hbits⟩

end Sys2Proof.Machine
end

section
/-! SUPPORT. The decompression loop (R199, R213): fed the bits of a padded token stream it hands out the bytes the
tokens stand for; with the compression loop this is the round trip of R200. -/

namespace Sys2Proof.Machine

/-! ### Feeding CIN (R213) -/

theorem writeCinData_of_room {s : State} (hf : s.fault = false) (heof : s.eof = false)
    (hroom : s.cin.length < s.params.cinDepth) (b : Byte) :
    writeCinData (BitVec.ofNat 32 b.toNat) s = { s with cin := s.cin ++ [b] } := by
  have hb := b.isLt
  have hbyte : BitVec.ofNat 8 (BitVec.ofNat 32 b.toNat).toNat = b := by
    rw [BitVec.toNat_ofNat, Nat.mod_eq_of_lt (by omega), BitVec.ofNat_toNat, BitVec.setWidth_eq]
  rw [writeCinData, hbyte]
  simp [hf, heof, hroom]

theorem State.Inv.feedCin {s : State} (hs : s.Inv) (rest : List Byte) : (feedCin rest s).1.Inv := by
  induction rest generalizing s with
  | nil => exact hs.writeCinEof 1
  | cons b rest ih =>
    rw [Machine.feedCin]
    split
    · exact ih (hs.writeCinData _)
    · exact hs

/-- Feeding moves bytes of the stream into CIN, in order, until none is left and EOF is set, or CIN is full. -/
theorem feedCin_moves {s : State} (hf : s.fault = false) {rest : List Byte} (heof : s.eof = true → rest = []) :
    ∃ cin eof rest', feedCin rest s = ({ s with cin := cin, eof := eof }, rest') ∧ cin ++ rest' = s.cin ++ rest ∧
      ((eof = true ∧ rest' = []) ∨ (eof = false ∧ s.params.cinDepth ≤ cin.length)) := by
  induction rest generalizing s with
  | nil => exact ⟨s.cin, true, [], by simp [feedCin, writeCinEof, hf], rfl, .inl ⟨rfl, rfl⟩⟩
  | cons b rest ih =>
    have hopen : s.eof = false := Bool.eq_false_iff.mpr fun h => absurd (heof h) nofun
    rw [feedCin]
    split
    · rw [writeCinData_of_room hf hopen ‹_›]
      obtain ⟨cin, eof, rest', hfeed, hbytes, hend⟩ :=
        ih (s := { s with cin := s.cin ++ [b] }) hf fun h => absurd (hopen.symm.trans h) nofun
      exact ⟨cin, eof, rest', hfeed, by simpa using hbytes, hend⟩
    · exact ⟨s.cin, s.eof, b :: rest, rfl, rfl, .inr ⟨hopen, Nat.not_lt.mp ‹_›⟩⟩

/-! ### The state between the commands of the decompression loop -/

/-- The loop has still to feed `rest`: an open reader in context `c`, ROUT drained, `y` the bytes produced so far
(R199). -/
structure State.Decompressing (c : Context) (y rest : List Byte) (s : State) : Prop where
  inv : s.Inv
  idle : s.busy = false
  noFault : s.fault = false
  configured : s.cfgd = true
  context : s.ctx = c
  readerOpen : s.rclosed = false
  drained : s.rout = []
  window : s.win = recent c.wsize y
  unfed : s.eof = true → rest = []

theorem State.Inv.decompressing_startSession {s : State} (hs : s.Inv) (hf : s.fault = false) {off len : Nat}
    (h : cfgLegal off len = true) (stream : List Byte) :
    (s.startSession off len).Decompressing (sessionContext off len) [] stream where
  inv := hs.startSession hf h
  idle := rfl
  noFault := hf
  configured := rfl
  context := rfl
  readerOpen := rfl
  drained := rfl
  window := (recent_nil _).symm
  unfed := nofun

/-- The bits the loop has still to read: those in the block, then those to feed. -/
def State.ahead (rest : List Byte) (s : State) : Bits := s.unread ++ streamBits rest

/-- The loop has fed all it can: everything, or at least the 24 bits that tell any token (R150, R199). -/
def State.Fed (rest : List Byte) (s : State) : Prop := (s.eof = true ∧ rest = []) ∨ 24 ≤ s.unread.length

section Decompressing
variable {c : Context} {y rest : List Byte} {s : State} (h : s.Decompressing c y rest)
include h

/-- Feeding keeps the loop's state and the bits ahead (R213). -/
theorem State.Decompressing.feed :
    (feedCin rest s).1.Decompressing c y (feedCin rest s).2 ∧
      (feedCin rest s).1.ahead (feedCin rest s).2 = s.ahead rest ∧ (feedCin rest s).1.Fed (feedCin rest s).2 := by
  have hinv := h.inv.feedCin rest
  obtain ⟨cin, eof, rest', hfeed, hbytes, hend⟩ := feedCin_moves h.noFault h.unfed
  rw [hfeed] at hinv ⊢
  refine ⟨⟨hinv, h.idle, h.noFault, h.configured, h.context, h.readerOpen, h.drained, h.window, ?_⟩, ?_, ?_⟩
  · rintro (rfl : eof = true)
    obtain ⟨-, hr⟩ | ⟨⟨⟩, -⟩ := hend
    exact hr
  · show (s.rbuf ++ streamBits cin) ++ streamBits rest' = (s.rbuf ++ streamBits s.cin) ++ streamBits rest
    rw [List.append_assoc, ← streamBits_append, hbytes, streamBits_append, List.append_assoc]
  · obtain hall | ⟨-, hfull⟩ := hend
    · exact .inl hall
    · obtain ⟨-, hdepth, -⟩ := h.inv.params
      right
      rw [State.length_unread]
      show 24 ≤ s.rbuf.length + 8 * cin.length
      omega

/-- With all fed that can be, `peek` answers the next token ahead (R104, R150). -/
theorem State.Decompressing.peek_token (hfed : s.Fed rest) {t : Token} (ht : t.admissible c) {more : Bits}
    (hahead : s.ahead rest = tokenBits c t ++ more) :
    s.peek = .token t (tokenBits c t).length ∧
      s.unread.drop (tokenBits c t).length ++ streamBits rest = more := by
  obtain rfl := h.context
  have hlen : (tokenBits s.ctx t).length ≤ s.unread.length := by
    obtain ⟨-, rfl⟩ | hbits := hfed
    · rw [State.ahead, streamBits_nil, List.append_nil] at hahead
      rw [hahead, List.length_append]
      omega
    · have hess := h.inv.ess_le h.configured
      cases t with
      | lit b => rw [length_tokenBits_lit]; omega
      | ref d l => rw [length_tokenBits_ref]; omega
  have hprefix : tokenBits s.ctx t <+: s.unread :=
    List.prefix_of_prefix_length_le ⟨more, hahead.symm⟩ (List.prefix_append _ _) hlen
  obtain ⟨tail, htail⟩ := hprefix
  rw [State.peek, ← htail, List.drop_left]
  refine ⟨peek_tokenBits_append ht tail s.eof, ?_⟩
  rw [State.ahead, ← htail, List.append_assoc] at hahead
  exact List.append_cancel_left hahead

end Decompressing

/-- A DSTEP with ROUT drained hands out the bytes its token stands for (R197). -/
theorem State.Inv.dstep_produces {s : State} (hs : s.Inv) (hc : s.cfgd = true) (hr : s.rclosed = false)
    (hrout : s.rout = []) {t : Token} {k : Nat} (h : s.peek = .token t k) {out : List Byte}
    (hp : t.produces s.win out) :
    ∃ r cin w kind a b, Machine.exec .dstep s = .next
        { s with rbuf := r, cin := cin, rout := out, window := w, eos := false, tokkind := kind, resa := a
                 resb := b, busy := false } ∧
      kind ≠ .endOfStream ∧ r ++ streamBits cin = s.unread.drop k ∧
      w.bytes s.ctx.wsize = recent s.ctx.wsize (s.win ++ out) := by
  obtain ⟨hlit, href, -⟩ := dstepReplaysToken.2.2 s hs hc hr
  have hyield := (tokenYield_le_maxs h).trans (hs.maxs_le hc)
  obtain ⟨-, -, hdepth, -⟩ := hs.params
  have hroom : tokenYield t ≤ s.params.routDepth - s.rout.length := by
    rw [hrout, List.length_nil]
    rw [patCap] at hyield
    omega
  cases t with
  | lit b =>
    obtain rfl : out = [b] := hp
    obtain rfl : k = 9 := peek_token_length h
    obtain ⟨r, cin, w, hex, hbits, hwin, -⟩ := hlit b 9 h (Nat.lt_of_sub_pos hroom)
    rw [hrout] at hex
    exact ⟨r, cin, w, _, _, _, hex, nofun, hbits, by rw [hwin, recent, List.length_append, List.length_singleton]⟩
  | ref d l =>
    obtain rfl : k = 1 + s.ctx.ess := peek_token_length h
    obtain ⟨r, cin, w, out', hex, hbits, hlen, hback, hwin, -⟩ := href d l _ h hp.1 hp.2.1 hroom
    obtain rfl : out' = out := eq_of_produces_ref ⟨hp.1, hp.2.1, hlen, hback⟩ hp
    rw [hrout] at hex
    exact ⟨r, cin, w, _, _, _, hex, nofun, hbits, by rw [hwin, recent, List.length_append, hlen]⟩

section Fed
variable {c : Context} {y rest : List Byte} {s : State} (h : s.Decompressing c y rest) (hfed : s.Fed rest)
include h hfed

/-- The loop's DSTEP at a token: its bytes are produced and its bits consumed (R199). -/
theorem State.Decompressing.dstep {t : Token} (ht : t.admissible c) {out : List Byte}
    (hp : t.produces (recent c.wsize y) out) {more : Bits} (hahead : s.ahead rest = tokenBits c t ++ more) :
    ∃ u, hostCommand .dstep s = some u ∧ u.completed = true ∧ u.tokkind ≠ .endOfStream ∧ u.rout = out ∧
      ({ u with rout := [] } : State).Decompressing c (y ++ out) rest ∧ u.ahead rest = more := by
  obtain ⟨hpeek, hmore⟩ := h.peek_token hfed ht hahead
  obtain rfl := h.context
  have hinv : (s.latch (encode .dstep)).Inv := h.inv.latch h.noFault _
  obtain ⟨r, cin, w, kind, a, b, hex, hkind, hbits, hwin⟩ :=
    hinv.dstep_produces h.configured h.readerOpen h.drained hpeek (h.window ▸ hp)
  have hwin' : w.bytes s.ctx.wsize = recent s.ctx.wsize (y ++ out) := by
    rw [← recent_append, ← h.window]
    exact hwin
  exact ⟨_, hostCommand_of_exec_latch h.idle h.noFault rfl hex, State.completed_iff.mpr ⟨rfl, h.noFault⟩, hkind, rfl,
    ⟨(hinv.exec hex).setRout [] h.configured (Nat.zero_le _), rfl, h.noFault, h.configured, rfl, h.readerOpen, rfl,
      hwin', h.unfed⟩, (congrArg (· ++ streamBits rest) hbits).trans hmore⟩

/-- The loop's DSTEP at the padding: the stream has ended, and RCLOSE finds no bit left that is 1 (R155, R199). -/
theorem State.Decompressing.dstep_padding {m : Nat} (hm : m < 8) (hahead : s.ahead rest = List.replicate m false) :
    ∃ t u, hostCommand .dstep s = some t ∧ t.completed = true ∧ t.tokkind = .endOfStream ∧
      hostCommand .rclose t = some u ∧ u.completed = true := by
  have hlen := congrArg List.length hahead
  rw [State.ahead, List.length_append, List.length_replicate] at hlen
  obtain ⟨heof, rfl⟩ := hfed.resolve_right (by omega)
  have hunread : s.unread = List.replicate m false := (List.append_nil _).symm.trans hahead
  have hpeek : (s.latch (encode .dstep)).peek = .eos := by
    show Machine.peek s.ctx s.unread s.eof = .eos
    rw [hunread, heof, peek_padding _ hm]
  have hex := exec_of_done (attempt_dstep_of_eos (s := s.latch (encode .dstep)) h.configured h.readerOpen hpeek)
  have hzero : ∀ b ∈ s.unread, b = false := fun b hb => List.eq_of_mem_replicate (hunread ▸ hb)
  have hclose := (rcloseCloses ((s.latch (encode .dstep)).answerEos.complete.latch (encode .rclose))).1
    h.configured h.readerOpen hzero
  exact ⟨_, _, hostCommand_of_exec_latch h.idle h.noFault rfl hex, State.completed_iff.mpr ⟨rfl, h.noFault⟩, rfl,
    hostCommand_of_exec_latch rfl h.noFault rfl hclose, State.completed_iff.mpr ⟨rfl, h.noFault⟩⟩

end Fed

/-! ### The loop -/

/-- A round of the loop that reads a token, then the other rounds (R199). -/
theorem decompressLoop_token {fuel : Nat} {stream out : List Byte} {s t u : State}
    (h : hostCommand .dstep (feedCin stream s).1 = some t) (ht : t.completed = true)
    (hkind : t.tokkind ≠ .endOfStream)
    (hrest : decompressLoop fuel (feedCin stream s).2 { t with rout := [] } = some (out, u)) :
    decompressLoop (fuel + 1) stream s = some (t.rout ++ out, u) := by
  simp [decompressLoop, h, ht, hkind, hrest]

/-- The round of the loop that reads the end of the stream (R199). -/
theorem decompressLoop_end {fuel : Nat} {stream : List Byte} {s t u : State}
    (h : hostCommand .dstep (feedCin stream s).1 = some t) (ht : t.completed = true)
    (hkind : t.tokkind = .endOfStream) (hclose : hostCommand .rclose t = some u) (hu : u.completed = true) :
    decompressLoop (fuel + 1) stream s = some ([], u) := by
  simp [decompressLoop, h, ht, hkind, hclose, hu]

/-- With padded tokens ahead, and a DSTEP for each token and the end, the loop hands out the bytes the tokens stand
for (R199, R200). -/
theorem State.Decompressing.decompressLoop {c : Context} {y rest out : List Byte} {ts : List Token} {s : State}
    (h : s.Decompressing c y rest) (hexp : Expands c y ts out) {m fuel : Nat} (hm : m < 8)
    (hahead : s.ahead rest = tokensBits c ts ++ List.replicate m false) (hfuel : ts.length ≤ fuel) :
    ∃ u, Machine.decompressLoop (fuel + 1) rest s = some (out, u) := by
  induction hexp generalizing s rest fuel with
  | nil y =>
    obtain ⟨hnext, hkeep, hfed⟩ := h.feed
    obtain ⟨t, u, hcmd, hdone, hkind, hclose, hu⟩ := hnext.dstep_padding hfed hm (hkeep.trans hahead)
    exact ⟨u, decompressLoop_end hcmd hdone hkind hclose hu⟩
  | cons ht hp _ ih =>
    obtain ⟨hnext, hkeep, hfed⟩ := h.feed
    rw [tokensBits_cons, List.append_assoc] at hahead
    obtain ⟨u, hcmd, hdone, hkind, rfl, hnext', hahead'⟩ := hnext.dstep hfed ht hp (hkeep.trans hahead)
    obtain ⟨fuel, rfl⟩ := Nat.exists_eq_add_one_of_ne_zero (Nat.ne_zero_of_lt hfuel)
    obtain ⟨v, hloop⟩ := ih hnext' hahead' (Nat.le_of_succ_le_succ hfuel)
    exact ⟨v, decompressLoop_token hcmd hdone hkind hloop⟩

/-- Every token has at least one bit (R100, R101). -/
theorem length_le_length_tokensBits (c : Context) (ts : List Token) : ts.length ≤ (tokensBits c ts).length := by
  induction ts with
  | nil => exact Nat.zero_le _
  | cons t ts ih =>
    have ht : 1 ≤ (tokenBits c t).length := by cases t <;> simp
    rw [tokensBits_cons, List.length_append, List.length_cons]
    omega

/-- Decompressing padded tokens hands out the bytes they stand for (R199, R200). -/
theorem decompressStream_of_expands {s : State} (hs : s.Inv) (hb : s.busy = false) (hf : s.fault = false)
    {off len : Nat} (h : cfgLegal off len = true) {ts : List Token} {out stream : List Byte} {m : Nat}
    (hexp : Expands (sessionContext off len) [] ts out) (hm : m < 8)
    (hbits : streamBits stream = tokensBits (sessionContext off len) ts ++ List.replicate m false) :
    ∃ u, decompressStream off len stream s = some (out, u) := by
  obtain ⟨hcmd, hdone⟩ := hostCommand_startSession hb hf h
  have hlen := congrArg List.length hbits
  rw [length_streamBits, List.length_append] at hlen
  have hts := length_le_length_tokensBits (sessionContext off len) ts
  have hfuel : ts.length ≤ 8 * stream.length := by omega
  rw [decompressStream, hcmd]
  simp only [if_pos hdone]
  exact (hs.decompressing_startSession hf h stream).decompressLoop hexp hm hbits hfuel

/-- Settles O49: the stream is tokens that stand for the input, and these the decompression loop gives back. -/
theorem roundTrip : Obligations.RoundTrip := by
  intro s off len input hs hb hf ho ho' hl hl'
  have h := (cfgLegal_iff off len).mpr ⟨ho, ho', hl, hl'⟩
  obtain ⟨stream, t, ts, m, hcompress, hinv, hdone, hexp, hm, hbits⟩ := compressStream_expands hs hb hf h input
  obtain ⟨hb', hf'⟩ := State.completed_iff.mp hdone
  obtain ⟨u, hdecompress⟩ := decompressStream_of_expands hinv hb' hf' h hexp hm hbits
  exact ⟨stream, t, u, hcompress, hdecompress⟩

end Sys2Proof.Machine
end

section
/-! SUPPORT. Reading back a header record that was written (R211, R212). -/

namespace Sys2Proof.Machine

/-! ### Decimal fields -/

theorem digitValue_ofNat {d : Nat} (h : d < 10) : digitValue (BitVec.ofNat 8 (0x30 + d)) = some d := by
  have hd : (BitVec.ofNat 8 (0x30 + d)).toNat = 0x30 + d := by
    rw [BitVec.toNat_ofNat, Nat.mod_eq_of_lt (by omega)]
  rw [digitValue, hd, if_pos (by omega), Nat.add_sub_cancel_left]

theorem digitsFrom_digit_cons {d : Nat} (h : d < 10) (bs : List Byte) (acc : Nat) :
    digitsFrom (BitVec.ofNat 8 (0x30 + d) :: bs) acc = digitsFrom bs (acc * 10 + d) := by
  rw [digitsFrom, digitValue_ofNat h]

/-- Reading passes the digits written for `n` and stands before `bs` with the value `n`. -/
theorem parseDecimal_decimalFrom {fuel n : Nat} (h : n < fuel) (bs : List Byte) :
    parseDecimal (decimalFrom fuel n bs) = digitsFrom bs n := by
  induction fuel generalizing n bs with
  | zero => omega
  | succ fuel ih =>
    rw [decimalFrom]
    split
    next hn => rw [parseDecimal, digitsFrom_digit_cons hn, Nat.zero_mul, Nat.zero_add]
    next hn =>
      rw [ih (by omega), digitsFrom_digit_cons (Nat.mod_lt n (by decide)), Nat.div_add_mod']

/-- A number written in decimal reads back (R211, R212). -/
theorem parseDecimal_decimal (n : Nat) : parseDecimal (decimal n) = some n :=
  parseDecimal_decimalFrom n.lt_succ_self []

/-- A byte that is no digit would spoil the number, so none is written. -/
theorem notMem_decimal {b : Byte} (h : b.toNat < 0x30 ∨ 0x39 < b.toNat) (n : Nat) : b ∉ decimal n := by
  intro hb
  have hnone := parseDecimal_eq_none (.inr ⟨b, hb, h⟩)
  rw [parseDecimal_decimal] at hnone
  cases hnone

theorem spaceByte_notMem_decimal (n : Nat) : spaceByte ∉ decimal n := notMem_decimal (by decide) n

theorem newlineByte_notMem_decimal (n : Nat) : newlineByte ∉ decimal n := notMem_decimal (by decide) n

/-! ### The line of a header -/

/-- The header record without its newline (R211). -/
def headerLine (h : Header) : List Byte :=
  decimal h.offb ++ spaceByte :: (decimal h.lenb ++ spaceByte :: (h.timestamp ++ spaceByte ::
    (h.name ++ [spaceByte])))

theorem headerBytes_eq (h : Header) : headerBytes h = headerLine h ++ [newlineByte] := by
  simp [headerBytes, headerLine]

theorem newlineByte_notMem_headerLine {h : Header} (hts : newlineByte ∉ h.timestamp)
    (hname : newlineByte ∉ h.name) : newlineByte ∉ headerLine h := by
  have hne : newlineByte ≠ spaceByte := by decide
  simp [headerLine, hne, newlineByte_notMem_decimal, hts, hname]

theorem getLast?_headerLine (h : Header) : (headerLine h).getLast? = some spaceByte := by
  simp [headerLine, List.getLast?_append, List.getLast?_cons]

/-- The first three spaces end the widths and the timestamp; the name may hold spaces of its own (R212). -/
theorem parseHeaderLine_headerLine {h : Header} (hts : spaceByte ∉ h.timestamp) :
    parseHeaderLine (headerLine h) = some h := by
  rw [parseHeaderLine, getLast?_headerLine, headerLine]
  simp only [cutAt_append (spaceByte_notMem_decimal _), cutAt_append hts, parseDecimal_decimal,
    List.dropLast_concat, if_true]

/-- Settles O59: the newline ends the line that was written, and the line's fields read back. -/
theorem headerRoundTrip : Obligations.HeaderRoundTrip := by
  intro h stream hspace hts hname
  rw [headerBytes_eq, List.append_assoc, List.singleton_append, parseHeader,
    cutAt_append (newlineByte_notMem_headerLine hts hname)]
  simp only [parseHeaderLine_headerLine hspace]

end Sys2Proof.Machine
end

section
/-! SUPPORT. Faults (R231 to R233, R240): what entering one writes, and what a faulted block still does. -/

namespace Sys2Proof.Machine

/-! ### Commands that fault -/

/-- Settles O14: without a session the configuration check fails before every other, and CFG has only the check
of its pair. -/
theorem notConfiguredFault : Obligations.NotConfiguredFault := by
  refine ⟨fun i s hc hnop hcfg => exec_of_fault (attempt_of_not_cfgd hc hnop hcfg), fun o l s t he hl => ?_⟩
  rw [exec_cfg_illegal (by rw [hl]; exact Bool.false_ne_true)] at he
  cases he
  exact ⟨rfl, rfl⟩

/-! ### A faulted block -/

/-- `t` is `s` after nothing but reads of the host: bytes taken from the front of COUT and ROUT, and values added
to the record of reads (R57; log 7). -/
def State.DrainsTo (s t : State) : Prop :=
  t = { s with cout := t.cout, rout := t.rout, reads := t.reads } ∧
    t.cout <:+ s.cout ∧ t.rout <:+ s.rout ∧ s.reads <+: t.reads

theorem State.DrainsTo.refl (s : State) : s.DrainsTo s :=
  ⟨rfl, List.suffix_rfl, List.suffix_rfl, List.prefix_rfl⟩

/-- A read pops COUT, pops ROUT or changes nothing, faulted or not (R57, R78). -/
theorem State.drainsTo_readOffset (addr off : Nat) (s : State) : s.DrainsTo (readOffset addr off s) := by
  rw [readOffset]
  split
  next r _ =>
    cases r with
    | coutData => exact ⟨rfl, List.tail_suffix _, List.suffix_rfl, List.prefix_append ..⟩
    | routData => exact ⟨rfl, List.suffix_rfl, List.tail_suffix _, List.prefix_append ..⟩
    | _ => exact ⟨rfl, List.suffix_rfl, List.suffix_rfl, List.prefix_append ..⟩
  next => exact ⟨rfl, List.suffix_rfl, List.suffix_rfl, List.prefix_append ..⟩

section Faulted
variable {s : State} (hf : s.fault = true)
include hf

/-- While FAULT = 1 the only write with an effect is one of CTRL with SRST set (R233, R240). -/
theorem writeReg_of_faulted (r : Reg) (v : Word) :
    writeReg r v s = s ∨ (r = .ctrl ∧ v.toNat % 2 = 1 ∧ writeReg r v s = s.hardReset) := by
  cases r with
  | cmd => exact .inl (if_pos hf)
  | cinData => exact .inl (if_pos hf)
  | cinEof => exact .inl (if_pos hf)
  | ctrl =>
    by_cases hv : v.toNat % 2 = 1
    · exact .inr ⟨rfl, hv, if_pos hv⟩
    · exact .inl (if_neg hv)
  | _ => exact .inl rfl

theorem writeOffset_of_faulted (off : Nat) (v : Word) :
    writeOffset off v s = s ∨
      (off = Reg.ctrl.offset ∧ v.toNat % 2 = 1 ∧ writeOffset off v s = s.hardReset) := by
  rw [writeOffset]
  split
  next r hr =>
    obtain hsame | ⟨rfl, hv, hreset⟩ := writeReg_of_faulted hf r v
    · exact .inl hsame
    · exact .inr ⟨Reg.eq_offset_of_ofOffset hr, hv, hreset⟩
  next => exact .inl rfl

/-- While FAULT = 1 an access that goes on drains the block or resets it (R233, R240). -/
theorem hostAccess_of_faulted {a : HostAccess} {t : State} (h : hostAccess a s = .next t) :
    s.DrainsTo t ∨ ((Turn.access a).resets s.params = true ∧ t = s.hardReset) := by
  obtain ⟨addr, w, rfl, rfl, -⟩ | ⟨addr, w, v, rfl, rfl, hbase, -⟩ := hostAccess_cases h
  · exact .inl (s.drainsTo_readOffset addr _)
  · obtain hsame | ⟨hoff, hv, hreset⟩ := writeOffset_of_faulted hf (addr - s.params.blockBase) v
    · rw [hsame]
      exact .inl (.refl s)
    · have haddr : addr = s.params.blockBase + Reg.ctrl.offset := by omega
      exact .inr ⟨by simp [Turn.resets, haddr, hv], hreset⟩

end Faulted

/-- Settles O16, turn by turn: a block turn is idle, an access drains or resets the block, a reset resets it. -/
theorem faultIsSticky : Obligations.FaultIsSticky := by
  intro s t hf h
  match hts : s.turns with
  | [] =>
    rw [step_of_no_turns hts, blockTurn_idle (.inr hf)] at h
    cases h
    exact .inl ⟨by rw [List.tail_nil, ← hts], (State.DrainsTo.refl s).2⟩
  | .block :: ts =>
    rw [step_of_block hts, blockTurn_idle (s := { s with turns := ts }) (.inr hf)] at h
    cases h
    exact .inl (State.DrainsTo.refl { s with turns := ts })
  | .access a :: ts =>
    rw [step_of_access hts] at h
    obtain hdrain | ⟨hresets, rfl⟩ := hostAccess_of_faulted (s := { s with turns := ts }) hf h
    · exact .inl hdrain
    · exact .inr ⟨_, _, rfl, hresets, State.hardReset_atReset _⟩
  | .reset :: ts =>
    rw [step_of_reset hts] at h
    cases h
    exact .inr ⟨_, _, rfl, rfl, State.hardReset_atReset _⟩

/-! ### The fault entry -/

/-- A write of CMD while a command is latched faults and abandons the command (R48). -/
theorem writeCmd_of_busy {s : State} (hf : s.fault = false) (hb : s.busy = true) (v : Word) :
    writeCmd v s = s.takeFault .cmdWhileBusy v := by
  rw [writeCmd, hf, if_neg Bool.false_ne_true, if_pos hb]

/-- Settles O13: every fault is entered by `State.takeFault`, which makes the four writes of R232. -/
theorem faultEntryIsPrecise : Obligations.FaultEntryIsPrecise := by
  obtain ⟨-, -, -, -, -, -, hoverflow, -⟩ := fifoRegisters
  exact ⟨fun _ _ _ h => exec_of_fault h, fun s _ hd => performWord_of_reject hd s,
    fun _ v hf hb => writeCmd_of_busy hf hb v, hoverflow⟩

end Sys2Proof.Machine
end
